-- ==== Sys2Proof/Word.lean ====
section
/-! DEFINITION. The byte, the one data type of the block (00_scope.md R12). -/

namespace Sys2Proof

/-- A byte: an unsigned integer 0 to 255 (R12). -/
abbrev Byte := BitVec 8

end Sys2Proof
end

