-- ==== Sys2Proof/Syntax.lean ====
section
/-! DEFINITION. The instructions: one constructor for each row of spec/opcode_table.json, and the words that carry them. -/

namespace Sys2Proof

/-- A requester of the channel; as a bit, `POLL = 0` and `CMD = 1` (30_encoding.md R89, 44_arbiter.md R194). -/
inductive Requester
  | poll
  | cmd
deriving DecidableEq, Repr, Inhabited

/-- The nine `get-` commands, in the order of the table of 30_encoding.md R86. -/
inductive Query
  | temp | vent | fan | filt | valve | byp | preh | hours | unit
deriving DecidableEq, Repr, Inhabited

/-- The eleven commands of the command set (30_encoding.md R86). -/
inductive Command
  | setVent
  | setTemp
  | get (q : Query)
deriving DecidableEq, Repr, Inhabited

/-- The instructions of the block: the ten operations of 30_encoding.md R88, the three frame kinds on the wire
(R72 to R74), and the eleven commands (R86). -/
inductive Instr
  /-- `CSUM bytes`, op 0x1. -/
  | csum (bytes : List Byte)
  /-- `BUILD command, payload`, op 0x2; the operand type asks for a command of two bytes (R89). -/
  | build (command payload : List Byte)
  /-- `ESC payload`, op 0x3. -/
  | esc (payload : List Byte)
  /-- `WIRE frame`, op 0x4. -/
  | wire (frame : List Byte)
  /-- `VALIDATE raw`, op 0x5. -/
  | validate (raw : List Byte)
  /-- `UNESC F, N`, op 0x6. -/
  | unesc (frame : List Byte) (n : Byte)
  /-- `EXEC r, frame`, op 0x7. -/
  | exec (r : Requester) (frame : List Byte)
  /-- `ACQUIRE r`, op 0x8. -/
  | acquire (r : Requester)
  /-- `RELEASE r`, op 0x9. -/
  | release (r : Requester)
  /-- `CANCEL r`, op 0xA. -/
  | cancel (r : Requester)
  /-- `CW`: a command frame on the wire, field by field (R72). `wirePayload` is the payload as it stands on the wire. -/
  | cw (cmd0 cmd1 len : Byte) (wirePayload : List Byte) (csum end0 end1 : Byte)
  /-- `AK`: the acknowledgment on the wire (R73). -/
  | ak
  /-- `RF`: a full response on the wire, field by field (R74). `body` is the payload region and the checksum position
  as far as the capture reaches: one to `len + 1` bytes. -/
  | rf (rcmd0 rcmd1 len : Byte) (body : List Byte) (end0 end1 : Byte)
  /-- `SETVENT`: the intent "set ventilation level to `level`" with the payload that the Command Handler sends. -/
  | setvent (level : Int) (payload : List Byte)
  /-- `SETTEMP`: the intent "set comfort temperature to `temperature`" with the payload that the Command Handler sends. -/
  | settemp (temperature : Int) (payload : List Byte)
  /-- `GETTEMP`: the query get-temperatures. -/
  | gettemp (payload : List Byte)
  /-- `GETVENT`: the query get-ventilation-status. -/
  | getvent (payload : List Byte)
  /-- `GETFAN`: the query get-fan-status. -/
  | getfan (payload : List Byte)
  /-- `GETFILT`: the query get-filter-status. -/
  | getfilt (payload : List Byte)
  /-- `GETVALVE`: the query get-valve-status. -/
  | getvalve (payload : List Byte)
  /-- `GETBYP`: the query get-bypass-control. -/
  | getbyp (payload : List Byte)
  /-- `GETPREH`: the query get-preheating-status. -/
  | getpreh (payload : List Byte)
  /-- `GETHOURS`: the query get-operating-hours. -/
  | gethours (payload : List Byte)
  /-- `GETUNIT`: the query get-unit-status. -/
  | getunit (payload : List Byte)
deriving DecidableEq, Repr

/-- The instruction of a query with its payload. -/
def Query.instr (q : Query) (payload : List Byte) : Instr :=
  match q with
  | .temp => .gettemp payload
  | .vent => .getvent payload
  | .fan => .getfan payload
  | .filt => .getfilt payload
  | .valve => .getvalve payload
  | .byp => .getbyp payload
  | .preh => .getpreh payload
  | .hours => .gethours payload
  | .unit => .getunit payload

/-- Where a word enters the system (DESIGN CHOICE, Log 4). -/
inductive Source
  /-- The request port of the block (30_encoding.md R88). -/
  | request
  /-- The serial line towards the device: a command frame, which only the block writes (R70, R72). -/
  | write
  /-- The serial line from the device: whatever the device sends (R70, R73, R74; 60_exceptions.md R217). -/
  | line
  /-- The messaging boundary: a set intent with its numeric value, for the Command Handler (44_arbiter.md R197). -/
  | intent (value : Int)
  /-- The poll list: a query, for the Poll Cycle (44_arbiter.md R195). -/
  | query
deriving DecidableEq, Repr

/-- A word: one whole message at a source, in transmission order. -/
structure PortWord where
  source : Source
  bytes : List Byte
deriving DecidableEq, Repr

end Sys2Proof
end

