-- ==== Sys2Proof/Config.lean ====
section
/-! DEFINITION. The OPEN parameters of 00_scope.md R8 and 92_eei_decisions.md section 2, and the free values. A constant
without a body stands for every value: no proof can see what it is. -/

namespace Sys2Proof

/-- What one `ChDrain` answers (20_memory.md R56): the captured bytes, or that the overall ceiling was hit. -/
inductive Drain
  | captured (raw : List Byte)
  | ceilingHit
deriving DecidableEq, Repr, Inhabited

namespace Config

/-- `SETTLE_DELAY` (D23). That the times and the rate are natural numbers is the model's choice (Log 34). -/
opaque settleDelay : Nat

/-- `QUIESCENCE_WINDOW` (D24), a natural number (Log 34). -/
opaque quiescenceWindow : Nat

/-- By how much `READ_TIMEOUT` exceeds `SETTLE_DELAY`. -/
opaque timeoutMargin : Nat

/-- `READ_TIMEOUT` (D25), not shorter than the settle delay (10_state.md R36, Log 34). -/
def readTimeout : Nat := settleDelay + timeoutMargin

/-- `SYMBOL_RATE` (D26), a natural number (Log 34). -/
opaque symbolRate : Nat

/-- `POLL_PERIOD` (D27), a natural number (Log 34). No rule computes with it (Log 27). -/
opaque pollPeriod : Nat

/-- `POLL_LIST` (D28) with the payload of each query (D33): drawn from the nine `get-` commands, in any order. -/
opaque pollList : List (Query × List Byte)

/-- `VENT_LEVEL_MIN` (D29). -/
opaque ventLevelMin : Int

/-- The length of the range of ventilation levels (Log 20: the range is not empty). -/
opaque ventLevelSpan : Nat

/-- `VENT_LEVEL_MAX` (D29). -/
def ventLevelMax : Int := ventLevelMin + ventLevelSpan

/-- `COMFORT_TEMP_MIN` (D29). -/
opaque comfortTempMin : Int

/-- The length of the range of comfort temperatures (Log 20: the range is not empty). -/
opaque comfortTempSpan : Nat

/-- `COMFORT_TEMP_MAX` (D29). -/
def comfortTempMax : Int := comfortTempMin + comfortTempSpan

/-- The command id pairs `CMD_<NAME>` (D30, 30_encoding.md R86). That they differ is not assumed. -/
opaque cmdId : Command → Byte × Byte

/-- `ARB_POLICY` (D31): the requester picked at the n-th draw when both wait. A free value (44_arbiter.md R182). -/
opaque arbPick : Nat → Requester

/-- What the n-th draw of `ChDrain` answers where `CH` does not say. A free value (20_memory.md R57). -/
opaque freeDrain : Nat → Drain

/-- What `RX.F` holds at the n-th draw after an `UNESC` of its own whose operand does not fit the register. A free value
(Log 15). -/
opaque freeFrame : Nat → List Byte

end Config

end Sys2Proof
end

