-- ==== Sys2Proof/Machine/Operands.lean ====
section
/-! DEFINITION. The protocol's constants and the operand forms: index accesses, fields of frames, operand types
(00_scope.md R8, R13; 20_memory.md R59, R60, R68; 30_encoding.md R89). -/

namespace Sys2Proof.Machine

/-- The reserved byte that is doubled in a payload (R8). -/
abbrev ESCB : Byte := 0x07
/-- First byte of the start marker (R8). -/
abbrev START0 : Byte := 0x07
/-- Second byte of the start marker (R8). -/
abbrev START1 : Byte := 0xF0
/-- First byte of the end marker (R8). -/
abbrev END0 : Byte := 0x07
/-- Second byte of the end marker (R8). -/
abbrev END1 : Byte := 0x0F
/-- First byte of the acknowledgment marker (R8). -/
abbrev ACK0 : Byte := 0x07
/-- Second byte of the acknowledgment marker (R8). -/
abbrev ACK1 : Byte := 0xF3
/-- Start value of the checksum, 173 (R8, R120). -/
abbrev CSUM_SEED : Byte := 0xAD
/-- Largest logical payload `BUILD` accepts (R8, R101). -/
abbrev PAYLOAD_MAX : Nat := 255
/-- Bytes of a logical command frame besides the payload (R8). -/
abbrev FRAME_OVERHEAD_TX : Nat := 8
/-- Bytes of a captured response besides the declared payload (R8). -/
abbrev FRAME_OVERHEAD_RX : Nat := 10
/-- Index of the declared length in a captured response (R8). -/
abbrev LEN_INDEX_RX : Nat := 6
/-- Index of the first payload byte of a captured response (R8). -/
abbrev PAYLOAD_BASE_RX : Nat := 7
/-- Index of the length byte of a command frame (R59). -/
abbrev LEN_INDEX_TX : Nat := 4
/-- Index of the first payload byte of a command frame (R59). -/
abbrev PAYLOAD_BASE_TX : Nat := 5

/-- The acknowledgment, format `AK` (R73). -/
abbrev ackBytes : List Byte := [ACK0, ACK1]

/-- `delete(B, i)` of R13: `B` without the byte at index `i`. -/
def delete (b : List Byte) (i : Nat) : List Byte := b.eraseIdx i

/-- The logical payload length of a command frame, `frame[4]` (R59, R107). -/
def lenTx (frame : List Byte) : Nat := (frame.getD LEN_INDEX_TX 0).toNat

/-- The declared length `dataset_len` of a capture, `raw[6]` (R134). Only read where the capture has ten bytes. -/
def lenRx (raw : List Byte) : Byte := raw.getD LEN_INDEX_RX 0

/-- The operand type `CF` as `WIRE` tests it (R107): at least 8 bytes, and length `8 + frame[4]`. -/
def isFrame (frame : List Byte) : Bool :=
  decide (FRAME_OVERHEAD_TX ≤ frame.length) && decide (frame.length = FRAME_OVERHEAD_TX + lenTx frame)

/-- The payload field of a command frame, `frame[5 .. 4+N]` (R59). -/
def payloadTx (frame : List Byte) : List Byte := (frame.drop PAYLOAD_BASE_TX).take (lenTx frame)

/-- The header of a command frame, `frame[0 .. 4]` (R59). -/
def headerTx (frame : List Byte) : List Byte := frame.take PAYLOAD_BASE_TX

/-- The checksum and end marker of a command frame, `frame[5+N .. 7+N]` (R59). -/
def trailerTx (frame : List Byte) : List Byte := (frame.drop (PAYLOAD_BASE_TX + lenTx frame)).take 3

/-- The part of a capture that step 4 keeps, `take(raw, N + 10)` (R134). -/
def keptPart (raw : List Byte) : List Byte := raw.take ((lenRx raw).toNat + FRAME_OVERHEAD_RX)

/-- The six marker comparisons of step 5, at fixed positions of the kept part (R135). -/
def markersMatch (f : List Byte) : Bool :=
  f[0]? == some ACK0 && f[1]? == some ACK1 && f[2]? == some START0 && f[3]? == some START1
    && f[f.length - 2]? == some END0 && f[f.length - 1]? == some END1

/-- A returned frame is well-sized when its length is `frame[6] + 10` (R138). -/
def wellSized (f : List Byte) : Bool :=
  decide (FRAME_OVERHEAD_RX ≤ f.length) && decide (f.length = (lenRx f).toNat + FRAME_OVERHEAD_RX)

/-- The payload of a returned frame, defined for well-sized frames only (R138). -/
def payloadRx (f : List Byte) : Option (List Byte) :=
  if wellSized f then some ((f.drop PAYLOAD_BASE_RX).take (lenRx f).toNat) else none

/-- The id of a requester as a bit (R89). -/
def requesterBit : Requester → Nat
  | .poll => 0
  | .cmd => 1

end Sys2Proof.Machine
end

