-- ==== Sys2Proof/Machine/Registers.lean ====
section
/-! DEFINITION. The registers of 10_state.md R20, one structure for each group of that table, and the names their
values are drawn from. -/

namespace Sys2Proof.Machine

/-- The failure kinds of 60_exceptions.md R210, in the order of the source's list. -/
inductive Kind
  | incomplete
  | tooShort
  | malformedFrame
  | indexOutOfRange
  | payloadTooLarge
  | channelTimeout
  | outOfRange
deriving DecidableEq, Repr

/-- The result of `VALIDATE`: `Ok(frame, oor)` or `Err(kind)` (42_rx_deframer.md R130). -/
inductive Verdict
  | ok (frame : List Byte) (oor : Bool)
  | err (kind : Kind)
deriving DecidableEq, Repr

/-- The result of `EXEC`: `Ack`, `Data(frame)` with the warning bit, or `Failure(kind)` (43_transaction.md R160). -/
inductive Result
  | ack
  | data (frame : List Byte) (warn : Bool)
  | failure (kind : Kind)
deriving DecidableEq, Repr

/-- The values of `TXN.phase` (10_state.md R37). -/
inductive Phase
  | idle | write | settle | drain | validate | classify
deriving DecidableEq, Repr

/-- The values of `OUT.class` (10_state.md R39). -/
inductive OutClass
  | none | ack | data | failure
deriving DecidableEq, Repr

/-- The configuration registers `CFG` (10_state.md R36). The spec gives the times and the rate no unit and no width and
calls any value legal; that each is a natural number is the model's choice (Log 34). -/
structure Cfg where
  settleDelay : Nat
  quiescenceWindow : Nat
  readTimeout : Nat
  symbolRate : Nat
deriving DecidableEq, Repr

/-- The checksum unit `CS` (10_state.md R22). -/
structure Cs where
  sum : Byte
  seen07 : Bool
deriving DecidableEq, Repr

/-- The transmit framer's registers `TX` (10_state.md R23). -/
structure Tx where
  cmd0 : Byte
  cmd1 : Byte
  len : Byte
  payload : List Byte
  csum : Byte
deriving DecidableEq, Repr

/-- The frame register `FR` with its valid bit (10_state.md R24). -/
structure Fr where
  valid : Bool
  bytes : List Byte
deriving DecidableEq, Repr

/-- The receive deframer's registers `RX` (10_state.md R32 to R35). -/
structure Rx where
  n : Byte
  m : BitVec 9
  f : List Byte
  i : BitVec 9
  oor : Bool
deriving DecidableEq, Repr

/-- The transaction sequencer's registers `TXN` (10_state.md R37, R38), and `verdict`, which holds the local variable
`v` of the pseudocode of 43_transaction.md R160 from phase VALIDATE to phase CLASSIFY (Log 7). -/
structure Txn where
  phase : Phase
  owner : Requester
  sent : List Byte
  verdict : Option Verdict
deriving DecidableEq, Repr

/-- The status registers `OUT` (10_state.md R39). `err` is `none` for code 0. -/
structure Out where
  cls : OutClass
  frame : List Byte
  err : Option Kind
  warn : Bool
deriving DecidableEq, Repr

/-- The arbiter's registers `ARB` (10_state.md R40, R41). -/
structure Arb where
  holder : Option Requester
  waitPoll : Bool
  waitCmd : Bool
deriving DecidableEq, Repr

/-- `ARB.waiting[r]` (10_state.md R41). -/
abbrev Arb.waiting (a : Arb) : Requester → Bool
  | .poll => a.waitPoll
  | .cmd => a.waitCmd

/-- `ARB.waiting[r] <- b` (10_state.md R41). -/
abbrev Arb.setWaiting (a : Arb) (r : Requester) (b : Bool) : Arb :=
  match r with
  | .poll => { a with waitPoll := b }
  | .cmd => { a with waitCmd := b }

/-- The environment's hidden state `CH` (10_state.md R44): bytes sent by the device and not yet drained, what the read
windows to come will give, and the bytes the block has written. -/
structure Ch where
  arrived : List Byte
  windows : List Drain
  written : List Byte
deriving DecidableEq, Repr

/-- What a request hands back to its caller (the result column of 30_encoding.md R88; 00_scope.md R15). -/
inductive Reply
  /-- No request has been made yet. -/
  | none
  /-- `refuse`: the request has no meaning and changed nothing (R15). -/
  | refused
  /-- The request is accepted; its result comes later (`ACQUIRE`, `EXEC`, a command's transaction). -/
  | accepted
  /-- The request is done and has no result (`RELEASE`, `CANCEL`). -/
  | done
  /-- The byte of `CSUM`. -/
  | byte (b : Byte)
  /-- The byte sequence of `ESC` or `WIRE`. -/
  | bytes (bs : List Byte)
  /-- `Ok(CF)` of `BUILD`. -/
  | frame (f : List Byte)
  /-- `Ok(frame, oor)` of `VALIDATE`, `(frame, oor)` of `UNESC`. -/
  | checked (f : List Byte) (oor : Bool)
  /-- `Err(kind)`. -/
  | error (k : Kind)
deriving DecidableEq, Repr

/-- Where a requester stands in its transaction: suspended until the grant, or until the result (43_transaction.md R175). -/
inductive Stage
  | waiting
  | running
deriving DecidableEq, Repr

/-- A transaction a requester is carrying out: `TXN r, cmd, payload` of 30_encoding.md R91 after its `BUILD` and
its `ACQUIRE` (Log 19). -/
structure Task where
  command : Command
  frame : List Byte
  stage : Stage
deriving DecidableEq, Repr

/-- What a requester reports at the end of a command (44_arbiter.md R195, R197). -/
inductive Report
  /-- The transaction ran; `out` is what the requester read from `OUT` before its `RELEASE`. -/
  | done (command : Command) (out : Out)
  /-- The command failed before the channel was touched (`OutOfRange`, `PayloadTooLarge`). -/
  | rejected (command : Command) (kind : Kind)
deriving DecidableEq, Repr

/-- One turn of the system: which agent moves next (00_scope.md R10). -/
inductive Turn
  /-- A word arrives at its source and is carried out. -/
  | word (w : PortWord)
  /-- The arbiter grants the permit if it can (44_arbiter.md R182). -/
  | grant
  /-- The sequencer performs the next phase of the transaction in flight (43_transaction.md R161). -/
  | sequencer
  /-- Requester `r` takes the next step of what it is doing (44_arbiter.md R190, R195). -/
  | requester (r : Requester)
  /-- The poll period elapses (44_arbiter.md R195). -/
  | timer
  /-- The block is reset (70_reset_and_hazards.md R240). -/
  | reset
deriving DecidableEq, Repr

end Sys2Proof.Machine
end

