-- ==== Sys2Proof/Machine/Flags.lean ====
section
/-! DEFINITION. The flags of 10_state.md R35 and the codes of 60_exceptions.md R211. -/

namespace Sys2Proof.Machine

/-- `CS` at the start of a `CSUM` (41_checksum.md R120). -/
def csStart : Cs := ⟨CSUM_SEED, false⟩

/-- One byte of a `CSUM`: every value is added, but a `0x07` only while `CS.seen07` is clear (41_checksum.md R120). -/
def csStep (cs : Cs) (b : Byte) : Cs :=
  if b = ESCB then
    if cs.seen07 then cs else ⟨cs.sum + b, true⟩
  else ⟨cs.sum + b, cs.seen07⟩

/-- The numeric code of a failure kind (60_exceptions.md R211). -/
def Kind.code : Kind → Nat
  | .incomplete => 1
  | .tooShort => 2
  | .malformedFrame => 3
  | .indexOutOfRange => 4
  | .payloadTooLarge => 5
  | .channelTimeout => 6
  | .outOfRange => 7

/-- The value of `OUT.err` as a number; 0 is "none" (60_exceptions.md R211). -/
def errCode : Option Kind → Nat
  | none => 0
  | some k => k.code

/-- The numeric value of `OUT.class` (10_state.md R39). -/
def OutClass.code : OutClass → Nat
  | .none => 0
  | .ack => 1
  | .data => 2
  | .failure => 3

/-- The warning `IndexOutOfRange` as the events it appends to `LOG` (60_exceptions.md R222). -/
def warnEvents (oor : Bool) : List Kind := if oor then [.indexOutOfRange] else []

/-- The events a `VALIDATE` result appends to `LOG` (60_exceptions.md R222). -/
def Verdict.events : Verdict → List Kind
  | .ok _ oor => warnEvents oor
  | .err k => [k]

/-- The events the result of an `EXEC` appends to `LOG` (43_transaction.md R160, 60_exceptions.md R222). -/
def Result.events : Result → List Kind
  | .ack => []
  | .data _ warn => warnEvents warn
  | .failure k => [k]

/-- `encode(result)`: the four `OUT` registers, `OUT.warn` among them (43_transaction.md R172). -/
def Result.out : Result → Out
  | .ack => ⟨.ack, ackBytes, none, false⟩
  | .data f warn => ⟨.data, f, none, warn⟩
  | .failure k => ⟨.failure, [], some k, false⟩

/-- Whether a set command is reported as a success: only for a positive `Ack` (44_arbiter.md R197). For a query the
spec leaves it to the caller (93_implementation_defined.md U19). -/
def Report.success : Report → Option Bool
  | .done (.get _) _ => none
  | .done _ out => some (out.cls == .ack)
  | .rejected (.get _) _ => none
  | .rejected _ _ => some false

end Sys2Proof.Machine
end

