-- ==== Sys2Proof/Machine/Codec.lean ====
section
/-! DEFINITION. The serial frame codec and the checksum generator as functions on byte sequences (00_scope.md R11):
40_tx_framer.md, 41_checksum.md, 42_rx_deframer.md. -/

namespace Sys2Proof.Machine

/-- The run of `CSUM` over its operand: `CS` as it stands at the end (41_checksum.md R120). -/
def csumRun (bytes : List Byte) : Cs := bytes.foldl csStep csStart

/-- `CSUM` (41_checksum.md R120). -/
def csum (bytes : List Byte) : Byte := (csumRun bytes).sum

/-- `ESC`: every `0x07` doubled (40_tx_framer.md R105). -/
def esc : List Byte → List Byte
  | [] => []
  | b :: t => if b = ESCB then b :: ESCB :: esc t else b :: esc t

/-- `N <- len(payload)` as the length byte (40_tx_framer.md R100). -/
def lenByte (payload : List Byte) : Byte := BitVec.ofNat 8 payload.length

/-- The operand of the checksum of a frame: command, length, logical payload (40_tx_framer.md R102). -/
def csumOperand (c0 c1 : Byte) (payload : List Byte) : List Byte := c0 :: c1 :: lenByte payload :: payload

/-- The logical frame, format `CF` (30_encoding.md R71, 40_tx_framer.md R100). -/
def frameOf (c0 c1 : Byte) (payload : List Byte) : List Byte :=
  [START0, START1, c0, c1, lenByte payload] ++ payload ++ [csum (csumOperand c0 c1 payload), END0, END1]

/-- `WIRE`: the header, the payload escaped, the checksum and end marker (40_tx_framer.md R107). -/
def wireBytes (frame : List Byte) : List Byte := headerTx frame ++ esc (payloadTx frame) ++ trailerTx frame

/-- The scan of `UNESC` (42_rx_deframer.md R141) from index `i` with `k` indices left to the fixed end: the frame, the
index where it stopped, and `oor`. A scan that comes to its end leaves the index one past the last one scanned, as the loop
of R141 does (Log 33). -/
def unescScan : Nat → Nat → List Byte → List Byte × Nat × Bool
  | 0, i, f => (f, i, false)
  | k + 1, i, f =>
    match f[i]? with
    | none => (f, i, true)
    | some b =>
      if b = ESCB then
        match f[i + 1]? with
        | none => (f, i, true)
        | some c => if c = ESCB then unescScan k (i + 1) (delete f (i + 1)) else unescScan k (i + 1) f
      else unescScan k (i + 1) f

/-- `UNESC F, N`: the scan over the indices 7 to `5 + N` (42_rx_deframer.md R141). -/
def unesc (f : List Byte) (n : Byte) : List Byte × Nat × Bool := unescScan (n.toNat - 1) PAYLOAD_BASE_RX f

/-- `VALIDATE` (42_rx_deframer.md R130), step by step. -/
def validate (raw : List Byte) : Verdict :=
  if raw.length ≤ 1 then .err .incomplete                                   -- step 1
  else if raw.length = 2 ∧ raw = ackBytes then .ok raw false                -- step 2
  else if raw.length < 10 then .err .tooShort                               -- step 3
  else if markersMatch (keptPart raw) then                                  -- steps 4 and 5
    let u := unesc (keptPart raw) (lenRx raw)                               -- step 6
    .ok u.1 u.2.2                                                           -- step 7
  else .err .malformedFrame

/-- The `RX` registers after a `VALIDATE` of `raw` (42_rx_deframer.md R130): `RX.oor` is cleared at the start; `RX.N`,
`RX.M` and `RX.F` are written by step 4, and `RX.F`, `RX.i`, `RX.oor` by step 6, where the steps are reached. -/
def rxValidate (raw : List Byte) (rx : Rx) : Rx :=
  if raw.length < 10 then { rx with oor := false }
  else
    let n := lenRx raw
    let kept := keptPart raw
    let m : BitVec 9 := n.zeroExtend 9 + 10
    if markersMatch kept then
      let u := unesc kept n
      ⟨n, m, u.1, BitVec.ofNat 9 u.2.1, u.2.2⟩
    else ⟨n, m, kept, rx.i, false⟩

/-- Whether the operand of an `UNESC` fits `RX.F` (10_state.md R33). -/
def fitsRx (f : List Byte) : Bool := decide (f.length ≤ 265)

/-- The `RX` registers after an `UNESC` of its own (42_rx_deframer.md R141, 10_state.md R20): the scan index, the flag,
and the working frame, a free value of at most 265 bytes where the operand does not fit the register (Log 15). -/
def rxUnesc (f : List Byte) (n : Byte) (draw : Nat) (rx : Rx) : Rx :=
  let u := unesc f n
  { rx with f := if fitsRx f then u.1 else (Config.freeFrame draw).take 265, i := BitVec.ofNat 9 u.2.1, oor := u.2.2 }

/-- Phase CLASSIFY (43_transaction.md R160, R166). -/
def classify : Verdict → Result
  | .err k => .failure k
  | .ok f oor => if f = ackBytes then .ack else .data f oor

end Sys2Proof.Machine
end

