-- ==== Sys2Proof/WellFormed.lean ====
section
/-! DEFINITION. Well-formed instructions: every operand is of the type the spec gives it, so that the instruction has an
encoding of its format. -/

namespace Sys2Proof

open Sys2Proof.Machine

/-- Takes `n` logical bytes off an escaped byte sequence, a doubled `0x07` counting once (30_encoding.md R77): the logical
bytes and the rest. -/
def takeEscaped : Nat → List Byte → Option (List Byte × List Byte)
  | 0, rest => some ([], rest)
  | _ + 1, [] => none
  | n + 1, b :: t =>
    if b = ESCB then
      match t with
      | c :: t' =>
        if c = ESCB then
          match takeEscaped n t' with
          | some (p, rest) => some (b :: p, rest)
          | none => none
        else none
      | [] => none
    else
      match takeEscaped n t with
      | some (p, rest) => some (b :: p, rest)
      | none => none

/-- The payload of a command fits its length byte (40_tx_framer.md R101). -/
abbrev payloadFits (payload : List Byte) : Bool := decide (payload.length ≤ PAYLOAD_MAX)

/-- The fields of a `CW` agree (30_encoding.md R72): the wire payload is the escaped form of `len` logical bytes, the
checksum is theirs, and the end marker stands. -/
def wellFormedCw (c0 c1 len : Byte) (wirePayload : List Byte) (k e0 e1 : Byte) : Bool :=
  match takeEscaped len.toNat wirePayload with
  | some (p, []) => k == csum (csumOperand c0 c1 p) && e0 == END0 && e1 == END1
  | _ => false

/-- Every operand is of its type: the command of `BUILD` has two bytes (30_encoding.md R89), the frame of `WIRE` and
`EXEC` is a `CF` (40_tx_framer.md R107, 43_transaction.md R160), the fields of a frame on the wire agree
(30_encoding.md R72, R74), and a command's payload fits a frame (R71). -/
def wellFormed : Instr → Bool
  | .csum _ => true
  | .build command _ => decide (command.length = 2)
  | .esc _ => true
  | .wire frame => isFrame frame
  | .validate _ => true
  | .unesc _ _ => true
  | .exec _ frame => isFrame frame
  | .acquire _ => true
  | .release _ => true
  | .cancel _ => true
  | .cw c0 c1 len wp k e0 e1 => wellFormedCw c0 c1 len wp k e0 e1
  | .ak => true
  | .rf _ _ len body e0 e1 =>
    decide (1 ≤ body.length) && decide (body.length ≤ len.toNat + 1) && e0 == END0 && e1 == END1
  | .setvent _ p => payloadFits p
  | .settemp _ p => payloadFits p
  | .gettemp p => payloadFits p
  | .getvent p => payloadFits p
  | .getfan p => payloadFits p
  | .getfilt p => payloadFits p
  | .getvalve p => payloadFits p
  | .getbyp p => payloadFits p
  | .getpreh p => payloadFits p
  | .gethours p => payloadFits p
  | .getunit p => payloadFits p

end Sys2Proof
end

