-- ==== Sys2Proof/Decode.lean ====
section
/-! DEFINITION. The decoder from words to instructions, total on any bytes and rejecting by name, and after it the encoder. -/

namespace Sys2Proof

open Sys2Proof.Machine

/-- Why a word is no instruction. -/
inductive DecodeError
  /-- The word has no bytes. -/
  | empty
  /-- The select code is one of the reserved ones, `0x0` and `0xB` to `0xF` (30_encoding.md R88). -/
  | reservedSelect (op : Nat)
  /-- The request byte has a bit set that no operand of its operation uses (Log 2). -/
  | reservedBits
  /-- The word ends before its operands do. -/
  | truncated
  /-- Bytes stand after the last operand. -/
  | trailing
  /-- The bytes have the form of no frame kind of their direction (30_encoding.md R70, R81). -/
  | noFrameKind
  /-- The word of an intent or a query is no command frame (30_encoding.md R86). -/
  | notACommandFrame
  /-- The command id is none of those its requester issues (30_encoding.md R86, R87). -/
  | unknownCommand
deriving DecidableEq, Repr

/-- The length of a byte-sequence operand (Log 3): every byte `0xFF` counts 255 and goes on, the next byte ends it. -/
def decodeLength : List Byte → Option (Nat × List Byte)
  | [] => none
  | b :: t =>
    if b = 0xFF then
      match decodeLength t with
      | some (n, rest) => some (n + 255, rest)
      | none => none
    else some (b.toNat, t)

/-- A byte-sequence operand that ends the word: its length, then exactly that many bytes (30_encoding.md R89). -/
def decodeSequence (bytes : List Byte) : Except DecodeError (List Byte) :=
  match decodeLength bytes with
  | none => .error .truncated
  | some (n, rest) =>
    if rest.length < n then .error .truncated
    else if n < rest.length then .error .trailing
    else .ok rest

/-- The requester in bits 7:4 of a request byte: `POLL = 0`, `CMD = 1` (30_encoding.md R89, Log 2). -/
def decodeRequester (high : Nat) : Except DecodeError Requester :=
  match high with
  | 0 => .ok .poll
  | 1 => .ok .cmd
  | _ => .error .reservedBits

/-- An operation that names no requester: bits 7:4 of its request byte are clear (Log 2). -/
def withoutRequester (high : Nat) (i : Except DecodeError Instr) : Except DecodeError Instr :=
  if high = 0 then i else .error .reservedBits

/-- An operation whose only operand is its requester. -/
def requesterOnly (high : Nat) (rest : List Byte) (op : Requester → Instr) : Except DecodeError Instr :=
  match decodeRequester high with
  | .error e => .error e
  | .ok r => if rest = [] then .ok (op r) else .error .trailing

/-- A word at the request port (30_encoding.md R88, R89): the select code in bits 3:0 of the first byte. -/
def decodeRequest : List Byte → Except DecodeError Instr
  | [] => .error .empty
  | h :: rest =>
    let high := h.toNat / 16
    match h.toNat % 16 with
    | 0x1 => withoutRequester high ((decodeSequence rest).map .csum)
    | 0x2 =>
      withoutRequester high <|
        match rest with
        | c0 :: c1 :: t => (decodeSequence t).map (.build [c0, c1])
        | _ => .error .truncated
    | 0x3 => withoutRequester high ((decodeSequence rest).map .esc)
    | 0x4 => withoutRequester high ((decodeSequence rest).map .wire)
    | 0x5 => withoutRequester high ((decodeSequence rest).map .validate)
    | 0x6 =>
      withoutRequester high <|
        match rest with
        | n :: t => (decodeSequence t).map (fun f => .unesc f n)
        | _ => .error .truncated
    | 0x7 =>
      match decodeRequester high with
      | .error e => .error e
      | .ok r => (decodeSequence rest).map (.exec r)
    | 0x8 => requesterOnly high rest .acquire
    | 0x9 => requesterOnly high rest .release
    | 0xA => requesterOnly high rest .cancel
    | op => .error (.reservedSelect op)

/-- The last three bytes of a sequence and what stands before them. -/
def splitLast3 (bytes : List Byte) : Option (List Byte × Byte × Byte × Byte) :=
  match bytes.drop (bytes.length - 3) with
  | [a, b, c] => some (bytes.take (bytes.length - 3), a, b, c)
  | _ => none

/-- The last two bytes of a sequence and what stands before them. -/
def splitLast2 (bytes : List Byte) : Option (List Byte × Byte × Byte) :=
  match bytes.drop (bytes.length - 2) with
  | [a, b] => some (bytes.take (bytes.length - 2), a, b)
  | _ => none

/-- A frame towards the device: `CW`, which begins `07 f0` (30_encoding.md R72). -/
def decodeWrite : List Byte → Except DecodeError Instr
  | [] => .error .empty
  | b0 :: b1 :: c0 :: c1 :: len :: t =>
    if b0 = START0 ∧ b1 = START1 then
      match splitLast3 t with
      | some (wp, k, e0, e1) => .ok (.cw c0 c1 len wp k e0 e1)
      | none => .error .truncated
    else .error .noFrameKind
  | _ => .error .truncated

/-- A frame from the device, told apart by its leading bytes as in the table: `AK` is `07 f3` alone, `RF` begins
`07 f3 07 f0` (30_encoding.md R73, R74, R79). Bytes without the `07 f3` are no frame of the device (R82). -/
def decodeLine : List Byte → Except DecodeError Instr
  | [] => .error .empty
  | [_] => .error .noFrameKind
  | b0 :: b1 :: rest =>
    if b0 = ACK0 ∧ b1 = ACK1 then
      match rest with
      | [] => .ok .ak
      | s0 :: s1 :: c0 :: c1 :: len :: t =>
        if s0 = START0 ∧ s1 = START1 then
          match splitLast2 t with
          | some (body, e0, e1) => .ok (.rf c0 c1 len body e0 e1)
          | none => .error .truncated
        else .error .noFrameKind
      | _ => .error .noFrameKind
    else .error .noFrameKind

/-- The command id and the logical payload of a command frame in its wire form `CW`, every field checked
(30_encoding.md R72). Its length is one byte, so a word cannot give a set intent or a query a payload above 255 bytes, and
`PayloadTooLarge` arises from no word of theirs: the model's choice of their form (Log 4). -/
def decodeCommandFrame (bytes : List Byte) : Option (Byte × Byte × List Byte) :=
  match bytes with
  | b0 :: b1 :: c0 :: c1 :: len :: t =>
    if b0 = START0 ∧ b1 = START1 then
      match takeEscaped len.toNat t with
      | some (p, rest) => if rest = [csum (csumOperand c0 c1 p), END0, END1] then some (c0, c1, p) else none
      | none => none
    else none
  | _ => none

/-- The nine queries in the order of the table of 30_encoding.md R86. -/
def queries : List Query := [.temp, .vent, .fan, .filt, .valve, .byp, .preh, .hours, .unit]

/-- The set command of an intent with command id `id` (30_encoding.md R86). Where two commands have one id the first of
the table is taken (Log 21). -/
def decodeIntent (ids : Command → Byte × Byte) (value : Int) (bytes : List Byte) : Except DecodeError Instr :=
  match decodeCommandFrame bytes with
  | none => .error .notACommandFrame
  | some (c0, c1, p) =>
    if ids .setVent = (c0, c1) then .ok (.setvent value p)
    else if ids .setTemp = (c0, c1) then .ok (.settemp value p)
    else .error .unknownCommand

/-- The query with command id `id` (30_encoding.md R86); the first of the table where two have one id (Log 21). -/
def decodeQuery (ids : Command → Byte × Byte) (bytes : List Byte) : Except DecodeError Instr :=
  match decodeCommandFrame bytes with
  | none => .error .notACommandFrame
  | some (c0, c1, p) =>
    match queries.find? (fun q => ids (.get q) = (c0, c1)) with
    | some q => .ok (q.instr p)
    | none => .error .unknownCommand

/-- The decoder, with the command ids as an argument (00_scope.md R9). -/
def decodeWith (ids : Command → Byte × Byte) (w : PortWord) : Except DecodeError Instr :=
  match w.source with
  | .request => decodeRequest w.bytes
  | .write => decodeWrite w.bytes
  | .line => decodeLine w.bytes
  | .intent value => decodeIntent ids value w.bytes
  | .query => decodeQuery ids w.bytes

/-- The decoder of the machine: the command ids are the OPEN parameters of Config. -/
def decode (w : PortWord) : Except DecodeError Instr := decodeWith Config.cmdId w

/-! ## The encoder -/

/-- The length form of Log 3. -/
def encodeLength (n : Nat) : List Byte := List.replicate (n / 255) 0xFF ++ [BitVec.ofNat 8 (n % 255)]

/-- A byte-sequence operand: its length, then its bytes (30_encoding.md R89). -/
def encodeSequence (bs : List Byte) : List Byte := encodeLength bs.length ++ bs

/-- The request byte: select code in bits 3:0, requester in bit 4 (30_encoding.md R88, R89, Log 2). -/
def requestByte (op : Nat) (r : Requester) : Byte := BitVec.ofNat 8 (op + 16 * requesterBit r)

/-- A command's frame as wire bytes, format `CW` (30_encoding.md R72, R86). -/
def commandWire (id : Byte × Byte) (payload : List Byte) : List Byte := wireBytes (frameOf id.1 id.2 payload)

/-- The word of an instruction, with the command ids as an argument. -/
def encodeWith (ids : Command → Byte × Byte) : Instr → PortWord
  | .csum bs => ⟨.request, requestByte 0x1 .poll :: encodeSequence bs⟩
  | .build command p => ⟨.request, requestByte 0x2 .poll :: command ++ encodeSequence p⟩
  | .esc p => ⟨.request, requestByte 0x3 .poll :: encodeSequence p⟩
  | .wire f => ⟨.request, requestByte 0x4 .poll :: encodeSequence f⟩
  | .validate raw => ⟨.request, requestByte 0x5 .poll :: encodeSequence raw⟩
  | .unesc f n => ⟨.request, requestByte 0x6 .poll :: n :: encodeSequence f⟩
  | .exec r f => ⟨.request, requestByte 0x7 r :: encodeSequence f⟩
  | .acquire r => ⟨.request, [requestByte 0x8 r]⟩
  | .release r => ⟨.request, [requestByte 0x9 r]⟩
  | .cancel r => ⟨.request, [requestByte 0xA r]⟩
  | .cw c0 c1 len wp k e0 e1 => ⟨.write, [START0, START1, c0, c1, len] ++ wp ++ [k, e0, e1]⟩
  | .ak => ⟨.line, ackBytes⟩
  | .rf c0 c1 len body e0 e1 => ⟨.line, [ACK0, ACK1, START0, START1, c0, c1, len] ++ body ++ [e0, e1]⟩
  | .setvent v p => ⟨.intent v, commandWire (ids .setVent) p⟩
  | .settemp v p => ⟨.intent v, commandWire (ids .setTemp) p⟩
  | .gettemp p => ⟨.query, commandWire (ids (.get .temp)) p⟩
  | .getvent p => ⟨.query, commandWire (ids (.get .vent)) p⟩
  | .getfan p => ⟨.query, commandWire (ids (.get .fan)) p⟩
  | .getfilt p => ⟨.query, commandWire (ids (.get .filt)) p⟩
  | .getvalve p => ⟨.query, commandWire (ids (.get .valve)) p⟩
  | .getbyp p => ⟨.query, commandWire (ids (.get .byp)) p⟩
  | .getpreh p => ⟨.query, commandWire (ids (.get .preh)) p⟩
  | .gethours p => ⟨.query, commandWire (ids (.get .hours)) p⟩
  | .getunit p => ⟨.query, commandWire (ids (.get .unit)) p⟩

/-- The encoder of the machine. -/
def encode (i : Instr) : PortWord := encodeWith Config.cmdId i

/-! ## The words of spec/opcode_table.json -/

/-- `k` bytes of the number `w`, the most significant first: the table writes a pattern of bytes in transmission order as
one number (30_encoding.md R73), so its first byte is the number's highest (Log 5). -/
def tableBytes : Nat → Nat → List Byte
  | 0, _ => []
  | k + 1, w => BitVec.ofNat 8 (w / 256 ^ k) :: tableBytes k w

/-- `bytes` made up to `n` bytes with zeros. -/
def padTo (n : Nat) (bytes : List Byte) : List Byte := bytes ++ List.replicate (n - bytes.length) 0

/-- How many bytes the shortest request with select code `op` has. -/
def shortestRequest : Nat → Nat
  | 0x2 => 4
  | 0x6 => 3
  | 0x8 | 0x9 | 0xA => 1
  | _ => 2

/-- The word the table's number `w` of `nbits` bits stands for, operand bytes of zeros added up to the shortest
instruction of its kind: up to 8 bits a request, above that a frame on the line, a `CW` towards the device and the others
from it (Log 5). -/
def tableWord (nbits w : Nat) : PortWord :=
  if nbits ≤ 8 then ⟨.request, padTo (shortestRequest (w % 16)) (tableBytes 1 w)⟩
  else
    let bytes := tableBytes ((nbits + 7) / 8) w
    if bytes.take 2 = [START0, START1] then ⟨.write, padTo 8 bytes⟩
    else if bytes.length = 2 then ⟨.line, bytes⟩
    else ⟨.line, padTo 10 bytes⟩

/-- The instruction the decoder reads from the table's number `w` of `nbits` bits. -/
def decodeTableWord (nbits w : Nat) : Option Instr := (decode (tableWord nbits w)).toOption

end Sys2Proof
end

