-- ==== Sys2Proof/Machine/State.lean ====
section
/-! DEFINITION. The state of the machine: the registers of 10_state.md R20, and the model's own fields after them. -/

namespace Sys2Proof.Machine

/-- The state. The first twelve fields are the rows of the table of 10_state.md R20; the rest are the model's own. -/
structure State where
  /-- `CFG` (R36). -/
  cfg : Cfg
  /-- `CS` (R22). -/
  cs : Cs
  /-- `TX` (R23). -/
  tx : Tx
  /-- `FR` (R24). -/
  fr : Fr
  /-- `TXW` (R25). -/
  txw : List Byte
  /-- `RAW`; `RAW.len` is its length (R27, R31). -/
  raw : List Byte
  /-- `RX` (R32 to R35). -/
  rx : Rx
  /-- `TXN` (R37, R38). -/
  txn : Txn
  /-- `OUT` (R39). -/
  out : Out
  /-- `ARB` (R40, R41). -/
  arb : Arb
  /-- `CH`, the environment's hidden state (R44). -/
  ch : Ch
  /-- `LOG`, oldest event first (R45). -/
  log : List Kind
  /-- The model's own: the turns still to come (Log 6). -/
  schedule : List Turn
  /-- The model's own: what the last request handed back (Log 28). -/
  reply : Reply
  /-- The model's own: the transaction `POLL` is carrying out (Log 19). -/
  taskPoll : Option Task
  /-- The model's own: the transaction `CMD` is carrying out (Log 19). -/
  taskCmd : Option Task
  /-- The model's own: the queries of the Poll Cycle not yet begun, with their payloads (Log 22). -/
  todo : List (Query × List Byte)
  /-- The model's own: what the requesters have reported, oldest first (Log 19). -/
  reports : List Report
  /-- The model's own: how many free values have been taken (Log 11). -/
  draws : Nat
deriving DecidableEq, Repr

/-- Why the machine stops with a fault. Both are safe: no state a run reaches raises one (Log 30). -/
inductive Fault
  /-- Raised by the sequencer in phase WRITE when `TXN.sent` is no command frame, so that `WIRE` has no value
  (40_tx_framer.md R107). Safe. -/
  | sentNotAFrame
  /-- Raised by the sequencer in phase CLASSIFY when no verdict has been computed (00_scope.md R13: no value). Safe. -/
  | noVerdict
deriving DecidableEq, Repr

/-- Why an instruction has no meaning. -/
inductive Refusal
  /-- Raised by an arm of exec whose instruction is not modelled yet. Safe. -/
  | notModelled (mnemonic : String)
deriving DecidableEq, Repr

/-- The configuration that boot establishes (70_reset_and_hazards.md R244), from the OPEN parameters (Log 9). -/
def State.bootCfg : Cfg := ⟨Config.settleDelay, Config.quiescenceWindow, Config.readTimeout, Config.symbolRate⟩

/-- The machine right after reset (70_reset_and_hazards.md R240), configured by boot (R244). The values of the
registers that R240 leaves unspecified are named in Log 8, those of `CH` in Log 10, of the own fields in Log 28. -/
def State.reset : State where
  cfg := State.bootCfg
  cs := ⟨0, false⟩
  tx := ⟨0, 0, 0, [], 0⟩
  fr := ⟨false, []⟩
  txw := []
  raw := []
  rx := ⟨0, 0, [], 0, false⟩
  txn := ⟨.idle, .poll, [], none⟩
  out := ⟨.none, [], none, false⟩
  arb := ⟨none, false, false⟩
  ch := ⟨[], [], []⟩
  log := []
  schedule := []
  reply := .none
  taskPoll := none
  taskCmd := none
  todo := []
  reports := []
  draws := 0

end Sys2Proof.Machine
end

