-- ==== Sys2Proof/Machine/Ops.lean ====
section
/-! DEFINITION. The operations the meanings share: replies and failures, buffer reads, the channel, delivery of a result,
the permit. -/

namespace Sys2Proof.Machine

/-! ## Replies, refusals and failures -/

/-- Hands `r` back to the caller of a request. -/
def answer (r : Reply) (s : State) : State := { s with reply := r }

/-- `refuse`: the request has no meaning and no state of the block changes (00_scope.md R15, Log 1). -/
def refuse (s : State) : State := answer .refused s

/-- Appends events to `LOG` (60_exceptions.md R222). -/
def logEvents (ks : List Kind) (s : State) : State := { s with log := s.log ++ ks }

/-- `raise k` in an operation other than `EXEC`: the caller receives `Err(k)` and one event is logged
(60_exceptions.md R218, R222). Nothing else changes. -/
def raise (k : Kind) (s : State) : State := answer (.error k) (logEvents [k] s)

/-! ## The buffers -/

/-- The byte-addressed index spaces of 10_state.md R43. -/
inductive Buffer
  | fr | txw | raw | rxF
deriving DecidableEq, Repr

/-- The contents of a buffer. -/
def State.buffer (s : State) : Buffer → List Byte
  | .fr => s.fr.bytes
  | .txw => s.txw
  | .raw => s.raw
  | .rxF => s.rx.f

/-- `MemRead(buffer, i, 1)`: no value at an index that is not below the length (00_scope.md R13, R14; 20_memory.md R53). -/
def memRead (s : State) (b : Buffer) (i : Nat) : Option Byte := (s.buffer b)[i]?

/-! ## The channel -/

/-- `ChWrite(bytes)` (20_memory.md R55): the bytes go out, first byte first; it cannot fail. -/
def chWrite (bytes : List Byte) (s : State) : State := { s with ch := { s.ch with written := s.ch.written ++ bytes } }

/-- Bytes the device sends reach the channel and wait in `CH` until they are drained (20_memory.md R58, 60_exceptions.md
R217). -/
def arrive (bytes : List Byte) (s : State) : State := { s with ch := { s.ch with arrived := s.ch.arrived ++ bytes } }

/-- What the next read window gives: the next entry of `ch.windows`, or a free value where `CH` holds none
(20_memory.md R57, Log 10). -/
def nextWindow (s : State) : Drain :=
  match s.ch.windows with
  | d :: _ => d
  | [] => Config.freeDrain s.draws

/-- `ChDrain()` (20_memory.md R54, R56): the bytes that waited come first, then those of the read window; all are removed
from the channel, and where the ceiling is hit they are lost (43_transaction.md R170, Log 12). -/
def chDrain (s : State) : Drain × State :=
  let drained : State :=
    match s.ch.windows with
    | _ :: ds => { s with ch := { s.ch with arrived := [], windows := ds } }
    | [] => { s with ch := { s.ch with arrived := [] }, draws := s.draws + 1 }
  match nextWindow s with
  | .captured raw => (.captured (s.ch.arrived ++ raw), drained)
  | .ceilingHit => (.ceilingHit, drained)

/-! ## Delivery of a result (the analogue of trap entry) -/

/-- Delivery of the result of an `EXEC` (43_transaction.md R160, R172; 60_exceptions.md R218): the four `OUT` registers
together, one event for a failure or a warning, the capture discarded, the sequencer idle. The permit stays with its
holder; there is no return operation (60_exceptions.md R219). -/
def deliver (r : Result) (s : State) : State :=
  { s with
    out := r.out
    log := s.log ++ r.events
    raw := []
    txn := { s.txn with phase := .idle, verdict := none } }

/-! ## The registers of the pure operations -/

/-- The registers after a successful `BUILD` (40_tx_framer.md R100; 10_state.md R22 to R24). -/
def build (c0 c1 : Byte) (payload : List Byte) (s : State) : State :=
  let k := csumRun (csumOperand c0 c1 payload)
  { s with
    cs := k
    tx := ⟨c0, c1, lenByte payload, payload, k.sum⟩
    fr := ⟨true, frameOf c0 c1 payload⟩ }

/-! ## The permit -/

/-- Whether `ACQUIRE r` is accepted (44_arbiter.md R181, R188). -/
def acquirable (r : Requester) (s : State) : Bool := decide (s.arb.holder ≠ some r) && !s.arb.waiting r

/-- `ARB.waiting[r] <- b`. -/
def setWaiting (r : Requester) (b : Bool) (s : State) : State := { s with arb := s.arb.setWaiting r b }

/-- Whether `RELEASE r` is accepted (44_arbiter.md R184). -/
def releasable (r : Requester) (s : State) : Bool := decide (s.arb.holder = some r) && decide (s.txn.phase = .idle)

/-- The effect of an accepted `RELEASE` (44_arbiter.md R184). -/
def release (s : State) : State := { s with arb := { s.arb with holder := none } }

/-- Whether the grant is enabled (44_arbiter.md R182). -/
def grantable (s : State) : Bool := decide (s.arb.holder = none) && (s.arb.waitPoll || s.arb.waitCmd)

/-- Gives `r` the permit (44_arbiter.md R182). -/
def giveTo (r : Requester) (s : State) : State := { s with arb := { s.arb.setWaiting r false with holder := some r } }

/-- The grant (44_arbiter.md R182): the one requester that waits, or where both wait the one `ARB_POLICY` picks, a free
value. Where the grant is not enabled nothing happens. -/
def grant (s : State) : State :=
  if grantable s then
    match s.arb.waitPoll, s.arb.waitCmd with
    | true, true => giveTo (Config.arbPick s.draws) { s with draws := s.draws + 1 }
    | true, false => giveTo .poll s
    | false, _ => giveTo .cmd s
  else s

/-! ## The sequencer -/

/-- Whether `EXEC r, frame` is accepted: the permit, the idle phase, and an operand that is a command frame
(43_transaction.md R160, R168; Log 13). -/
def executable (r : Requester) (frame : List Byte) (s : State) : Bool :=
  decide (s.arb.holder = some r) && decide (s.txn.phase = .idle) && isFrame frame

/-- The registers when an `EXEC` is accepted (43_transaction.md R160): the transaction stands before its write. -/
def beginTxn (r : Requester) (frame : List Byte) (s : State) : State :=
  { s with txn := ⟨.write, r, frame, none⟩ }

/-- `TXN.phase <- p`. -/
def setPhase (p : Phase) (s : State) : State := { s with txn := { s.txn with phase := p } }

/-- Phase WRITE (43_transaction.md R162): the wire bytes of the frame, held in `TXW`, go out once, and the settle delay
begins. -/
def writePhase (s : State) : State :=
  let w := wireBytes s.txn.sent
  setPhase .settle (chWrite w { s with txw := w })

/-- Phase DRAIN (43_transaction.md R164, R170). -/
def drainPhase (s : State) : State :=
  match chDrain s with
  | (.captured raw, s') => setPhase .validate { s' with raw := raw }
  | (.ceilingHit, s') => deliver (.failure .channelTimeout) s'

/-- Phase VALIDATE (43_transaction.md R165): the whole capture goes to `VALIDATE`. -/
def validatePhase (s : State) : State :=
  { s with rx := rxValidate s.raw s.rx, txn := { s.txn with phase := .classify, verdict := some (validate s.raw) } }

/-- The sequencer's next step (43_transaction.md R161). With no transaction in flight it does nothing. -/
def sequencer (s : State) : Host.Outcome State Fault Refusal :=
  match s.txn.phase with
  | .idle => .next s
  | .write => if isFrame s.txn.sent then .next (writePhase s) else .fault .sentNotAFrame
  | .settle => .next (setPhase .drain s)
  | .drain => .next (drainPhase s)
  | .validate => .next (validatePhase s)
  | .classify =>
    match s.txn.verdict with
    | some v => .next (deliver (classify v) s)
    | none => .fault .noVerdict

/-! ## The requesters -/

/-- The task of requester `r`. -/
abbrev State.task (s : State) : Requester → Option Task
  | .poll => s.taskPoll
  | .cmd => s.taskCmd

/-- Sets the task of requester `r`. -/
abbrev State.setTask (s : State) (r : Requester) (t : Option Task) : State :=
  match r with
  | .poll => { s with taskPoll := t }
  | .cmd => { s with taskCmd := t }

/-- Appends a report. -/
def report (x : Report) (s : State) : State := { s with reports := s.reports ++ [x] }

/-- Which requester issues a command (30_encoding.md R86). -/
def issuer : Command → Requester
  | .setVent | .setTemp => .cmd
  | .get _ => .poll

/-- Whether requester `r` is in its idle state, so that it can begin a command (44_arbiter.md R196, R200; Log 19). -/
def atRest (r : Requester) (s : State) : Bool := (s.task r).isNone && acquirable r s

/-- A command fails before the channel is touched (44_arbiter.md R198, R200). -/
def rejectCommand (c : Command) (k : Kind) (s : State) : State := report (.rejected c k) (raise k s)

/-- The beginning of `TXN r, cmd, payload` (30_encoding.md R91): `BUILD`, then `ACQUIRE`; the requester is then suspended
until the grant. -/
def startTransaction (c : Command) (payload : List Byte) (s : State) : State :=
  let id := Config.cmdId c
  let r := issuer c
  answer .accepted
    (setWaiting r true ((build id.1 id.2 payload s).setTask r (some ⟨c, frameOf id.1 id.2 payload, .waiting⟩)))

/-- A command whose requester is at rest begins its transaction, or fails in `BUILD` (40_tx_framer.md R101). While its
requester is suspended in another transaction a command is turned away (43_transaction.md R175, Log 19). A query that arrives
as a word while `POLL` is at rest between two queries of a cycle begins at once, ahead of those still in `todo`, whether or
not the poll list has it: the model's choice, 44_arbiter.md R195 knows only the queries of the list in order (Log 36). -/
def beginCommand (c : Command) (payload : List Byte) (s : State) : State :=
  if atRest (issuer c) s then
    if PAYLOAD_MAX < payload.length then rejectCommand c .payloadTooLarge s else startTransaction c payload s
  else refuse s

/-- A set intent: its range check comes first, before anything else (44_arbiter.md R197, R198). -/
def setIntent (c : Command) (inRange : Bool) (payload : List Byte) (s : State) : State :=
  if inRange then beginCommand c payload s else rejectCommand c .outOfRange s

/-- The end of a transaction: the requester reads `OUT`, releases the permit and reports (44_arbiter.md R190, R195, R197;
70_reset_and_hazards.md R250). -/
def finishTransaction (r : Requester) (t : Task) (s : State) : State :=
  report (.done t.command s.out) (release (s.setTask r none))

/-- A pending wait is abandoned (44_arbiter.md R186, R190): the body behind it is not run, nothing is released. The command
the requester was carrying out ends there, and the model reports nothing of it (Log 35). -/
def abandonWait (r : Requester) (s : State) : State := (setWaiting r false s).setTask r none

/-- The way out of a hold, where the permit is given back (44_arbiter.md R184, R185, R190). With the body of a command run,
its value is read from `OUT` and reported, whether the `RELEASE` comes from the requester's own turn or as a request of the
requester; with the body not yet begun the command ends as on the cancellation path of R186, and nothing is reported. What
becomes of the command is the model's choice (Log 35). -/
def endHold (r : Requester) (s : State) : State :=
  match s.task r with
  | some t =>
    match t.stage with
    | .waiting => release (s.setTask r none)
    | .running => finishTransaction r t s
  | none => release s

/-- The next step of a requester with a task (44_arbiter.md R190): suspended until the grant, then `EXEC`, suspended until
the result, then `RELEASE`. -/
def taskStep (r : Requester) (t : Task) (s : State) : State :=
  match t.stage with
  | .waiting =>
    if executable r t.frame s then (beginTxn r t.frame s).setTask r (some { t with stage := .running }) else s
  | .running => if releasable r s then endHold r s else s

/-- The next query of the Poll Cycle (44_arbiter.md R195): each begins only when the one before it has been released. A query
is taken off the list when it begins, so a query whose wait is cancelled is not asked again, and the cycle goes on with the
one behind it: the model's choice (Log 35). -/
def nextQuery (s : State) : State :=
  match s.todo with
  | (q, payload) :: rest => if atRest .poll s then beginCommand (.get q) payload { s with todo := rest } else s
  | [] => s

/-- A requester's turn. -/
def requesterTurn (r : Requester) (s : State) : State :=
  match s.task r, r with
  | some t, _ => taskStep r t s
  | none, .poll => nextQuery s
  | none, .cmd => s

/-- The poll period elapses: the queries of one more cycle follow those still to come, so that cycles do not overlap
(44_arbiter.md R195, R196; Log 22). -/
def pollTimer (s : State) : State := { s with todo := s.todo ++ Config.pollList }

/-! ## Reset, undecodable words, the default turn -/

/-- The reset event (70_reset_and_hazards.md R240, R242): the block and its requesters start again; the configuration, the
channel and what is still to come are not reached (Log 23). -/
def resetEvent (s : State) : State :=
  { State.reset with cfg := s.cfg, ch := s.ch, schedule := s.schedule, reports := s.reports, draws := s.draws }

/-- A word that is no instruction: from the device it is noise, which waits in `CH` like all bytes that arrive
(20_memory.md R57, Log 18); anywhere else it is refused (30_encoding.md R88). -/
def undecoded (w : PortWord) (s : State) : State :=
  match w.source with
  | .line => arrive w.bytes s
  | .write => refuse s
  | .request => refuse s
  | .intent _ => refuse s
  | .query => refuse s

/-- Whether a turn of requester `r` would do something. -/
def canMove (r : Requester) (s : State) : Bool :=
  match s.task r, r with
  | some t, _ =>
    match t.stage with
    | .waiting => executable r t.frame s
    | .running => releasable r s
  | none, .poll => !s.todo.isEmpty && atRest .poll s
  | none, .cmd => false

/-- Which agent moves when nothing is scheduled (Log 6): the engine where it can, then a requester; nobody when all wait
for requests (70_reset_and_hazards.md R241). -/
def defaultTurn (s : State) : Option Turn :=
  if s.txn.phase ≠ .idle then some .sequencer
  else if grantable s then some .grant
  else if canMove .poll s then some (.requester .poll)
  else if canMove .cmd s then some (.requester .cmd)
  else none

end Sys2Proof.Machine
end

