-- ==== Sys2Proof/Machine/Arbiter.lean ====
section
/-! DEFINITION. The channel arbiter: `ACQUIRE`, `RELEASE`, `CANCEL` (44_arbiter.md). The grant is an engine step, in Ops. -/

namespace Sys2Proof.Machine

/-- `ACQUIRE r` (44_arbiter.md R181): refused where `r` holds the permit or already waits for it. -/
def execAcquire (r : Requester) (s : State) : Host.Outcome State Fault Refusal :=
  if acquirable r s then .next (answer .accepted (setWaiting r true s)) else .next (refuse s)

/-- `RELEASE r` (44_arbiter.md R184): refused where `r` does not hold the permit or a transaction is in flight. What becomes
of a command that `r` is carrying out is the model's choice (Log 35). -/
def execRelease (r : Requester) (s : State) : Host.Outcome State Fault Refusal :=
  if releasable r s then .next (answer .done (endHold r s)) else .next (refuse s)

/-- `CANCEL r` (44_arbiter.md R186): refused where `r` has no pending wait. The body behind an abandoned wait is not run and
nothing is released (R190); that nothing is reported of its command is the model's choice (Log 35). -/
def execCancel (r : Requester) (s : State) : Host.Outcome State Fault Refusal :=
  if s.arb.waiting r then .next (answer .done (abandonWait r s)) else .next (refuse s)

end Sys2Proof.Machine
end

