-- ==== Sys2Proof/Machine/Channel.lean ====
section
/-! DEFINITION. The frames on the wire: `CW`, `AK`, `RF` (30_encoding.md R72 to R74). -/

namespace Sys2Proof.Machine

/-- `CW` towards the device (30_encoding.md R72): the write of phase WRITE, which is the only one that puts a command frame on
the channel (20_memory.md R55, 43_transaction.md R162). Anywhere else, or with other bytes than those of the frame in flight,
nothing reaches the channel (70_reset_and_hazards.md R247; Log 17). Bytes of this shape that the device sends are no `CW`:
they come from the other direction of the line and wait in `CH` (60_exceptions.md R217; Log 17, 18). -/
def execCw (cmd0 cmd1 len : Byte) (wirePayload : List Byte) (k end0 end1 : Byte) (s : State) :
    Host.Outcome State Fault Refusal :=
  if s.txn.phase = .write ∧ isFrame s.txn.sent = true
      ∧ wireBytes s.txn.sent = (encode (.cw cmd0 cmd1 len wirePayload k end0 end1)).bytes then
    .next (writePhase s)
  else .next (refuse s)

/-- `AK` on the line (30_encoding.md R73): the device's acknowledgment reaches the channel (Log 18). -/
def execAk (s : State) : Host.Outcome State Fault Refusal := .next (arrive (encode .ak).bytes s)

/-- `RF` on the line (30_encoding.md R74): the device's full response reaches the channel (Log 18). -/
def execRf (rcmd0 rcmd1 len : Byte) (body : List Byte) (end0 end1 : Byte) (s : State) :
    Host.Outcome State Fault Refusal :=
  .next (arrive (encode (.rf rcmd0 rcmd1 len body end0 end1)).bytes s)

end Sys2Proof.Machine
end

