-- ==== Sys2Proof/Machine/Commands.lean ====
section
/-! DEFINITION. The eleven commands of the command set (30_encoding.md R86), each the beginning of the transaction of its
requester (R91; 44_arbiter.md R195, R197; Log 19). -/

namespace Sys2Proof.Machine

/-- A ventilation level inside `VENT_LEVEL_MIN..MAX` (44_arbiter.md R198). -/
def ventInRange (level : Int) : Bool := decide (Config.ventLevelMin ≤ level) && decide (level ≤ Config.ventLevelMax)

/-- A comfort temperature inside `COMFORT_TEMP_MIN..MAX` (44_arbiter.md R198). -/
def tempInRange (temperature : Int) : Bool :=
  decide (Config.comfortTempMin ≤ temperature) && decide (temperature ≤ Config.comfortTempMax)

/-- `SETVENT`: set-ventilation-level (30_encoding.md R86, 44_arbiter.md R197). -/
def execSetvent (level : Int) (payload : List Byte) (s : State) : Host.Outcome State Fault Refusal :=
  .next (setIntent .setVent (ventInRange level) payload s)

/-- `SETTEMP`: set-comfort-temperature (30_encoding.md R86, 44_arbiter.md R197). -/
def execSettemp (temperature : Int) (payload : List Byte) (s : State) : Host.Outcome State Fault Refusal :=
  .next (setIntent .setTemp (tempInRange temperature) payload s)

/-- `GETTEMP`: get-temperatures (30_encoding.md R86, 44_arbiter.md R195). -/
def execGettemp (payload : List Byte) (s : State) : Host.Outcome State Fault Refusal :=
  .next (beginCommand (.get .temp) payload s)

/-- `GETVENT`: get-ventilation-status (30_encoding.md R86, 44_arbiter.md R195). -/
def execGetvent (payload : List Byte) (s : State) : Host.Outcome State Fault Refusal :=
  .next (beginCommand (.get .vent) payload s)

/-- `GETFAN`: get-fan-status (30_encoding.md R86, 44_arbiter.md R195). -/
def execGetfan (payload : List Byte) (s : State) : Host.Outcome State Fault Refusal :=
  .next (beginCommand (.get .fan) payload s)

/-- `GETFILT`: get-filter-status (30_encoding.md R86, 44_arbiter.md R195). -/
def execGetfilt (payload : List Byte) (s : State) : Host.Outcome State Fault Refusal :=
  .next (beginCommand (.get .filt) payload s)

/-- `GETVALVE`: get-valve-status (30_encoding.md R86, 44_arbiter.md R195). -/
def execGetvalve (payload : List Byte) (s : State) : Host.Outcome State Fault Refusal :=
  .next (beginCommand (.get .valve) payload s)

/-- `GETBYP`: get-bypass-control (30_encoding.md R86, 44_arbiter.md R195). -/
def execGetbyp (payload : List Byte) (s : State) : Host.Outcome State Fault Refusal :=
  .next (beginCommand (.get .byp) payload s)

/-- `GETPREH`: get-preheating-status (30_encoding.md R86, 44_arbiter.md R195). -/
def execGetpreh (payload : List Byte) (s : State) : Host.Outcome State Fault Refusal :=
  .next (beginCommand (.get .preh) payload s)

/-- `GETHOURS`: get-operating-hours (30_encoding.md R86, 44_arbiter.md R195). -/
def execGethours (payload : List Byte) (s : State) : Host.Outcome State Fault Refusal :=
  .next (beginCommand (.get .hours) payload s)

/-- `GETUNIT`: get-unit-status (30_encoding.md R86, 44_arbiter.md R195). -/
def execGetunit (payload : List Byte) (s : State) : Host.Outcome State Fault Refusal :=
  .next (beginCommand (.get .unit) payload s)

end Sys2Proof.Machine
end

