-- ==== Sys2Proof/Machine/Receive.lean ====
section
/-! DEFINITION. The receive side: `VALIDATE`, `UNESC` (42_rx_deframer.md). -/

namespace Sys2Proof.Machine

/-- What a `VALIDATE` hands back (42_rx_deframer.md R130). -/
def verdictReply : Verdict → Reply
  | .ok f oor => .checked f oor
  | .err k => .error k

/-- `VALIDATE raw` as an operation of its own (42_rx_deframer.md R130). It writes the `RX` registers and not `RAW`
(00_scope.md R11, Log 14); a failure or a warning is one event (60_exceptions.md R222). -/
def execValidate (raw : List Byte) (s : State) : Host.Outcome State Fault Refusal :=
  .next (answer (verdictReply (validate raw)) (logEvents (validate raw).events { s with rx := rxValidate raw s.rx }))

/-- `UNESC F, N` as an operation of its own (42_rx_deframer.md R141); the warning is one event (60_exceptions.md R222). -/
def execUnesc (frame : List Byte) (n : Byte) (s : State) : Host.Outcome State Fault Refusal :=
  let u := unesc frame n
  .next (answer (.checked u.1 u.2.2) (logEvents (warnEvents u.2.2) { s with
    rx := rxUnesc frame n s.draws s.rx
    draws := if fitsRx frame then s.draws else s.draws + 1 }))

end Sys2Proof.Machine
end

