-- ==== Sys2Proof/Machine/Transaction.lean ====
section
/-! DEFINITION. The transaction sequencer: `EXEC` (43_transaction.md). -/

namespace Sys2Proof.Machine

/-- `EXEC r, frame` (43_transaction.md R160): refused unless `r` holds the permit, no transaction is in flight and the
operand is a command frame. When it is accepted the transaction stands in phase WRITE, and the sequencer carries it through
its phases to delivery, one step a phase (R161, Log 7). -/
def execExec (r : Requester) (frame : List Byte) (s : State) : Host.Outcome State Fault Refusal :=
  if executable r frame s then .next (answer .accepted (beginTxn r frame s)) else .next (refuse s)

end Sys2Proof.Machine
end

