-- ==== Sys2Proof/Machine/Transmit.lean ====
section
/-! DEFINITION. The transmit side: `CSUM`, `BUILD`, `ESC`, `WIRE` (41_checksum.md, 40_tx_framer.md). -/

namespace Sys2Proof.Machine

/-- `CSUM bytes` (41_checksum.md R120). -/
def execCsum (bytes : List Byte) (s : State) : Host.Outcome State Fault Refusal :=
  .next (answer (.byte (csum bytes)) { s with cs := csumRun bytes })

/-- `BUILD command, payload` (40_tx_framer.md R100): refused where the command has not two bytes, `PayloadTooLarge` above
255 bytes, else the logical frame in `FR`. -/
def execBuild (command payload : List Byte) (s : State) : Host.Outcome State Fault Refusal :=
  match command with
  | [c0, c1] =>
    if PAYLOAD_MAX < payload.length then .next (raise .payloadTooLarge s)
    else .next (answer (.frame (frameOf c0 c1 payload)) (build c0 c1 payload s))
  | _ => .next (refuse s)

/-- `ESC payload` (40_tx_framer.md R105). -/
def execEsc (payload : List Byte) (s : State) : Host.Outcome State Fault Refusal :=
  .next (answer (.bytes (esc payload)) s)

/-- `WIRE frame` (40_tx_framer.md R107): refused where the operand is no command frame. -/
def execWire (frame : List Byte) (s : State) : Host.Outcome State Fault Refusal :=
  if isFrame frame then .next (answer (.bytes (wireBytes frame)) { s with txw := wireBytes frame })
  else .next (refuse s)

end Sys2Proof.Machine
end

