-- ==== Sys2Proof/Machine/Dispatch.lean ====
section
/-! DEFINITION. One arm per instruction. -/

namespace Sys2Proof.Machine

def exec (i : Instr) (s : State) : Host.Outcome State Fault Refusal :=
  match i with
  | .csum bytes => Sys2Proof.Machine.execCsum bytes s
  | .build command payload => Sys2Proof.Machine.execBuild command payload s
  | .esc payload => Sys2Proof.Machine.execEsc payload s
  | .wire frame => Sys2Proof.Machine.execWire frame s
  | .validate raw => Sys2Proof.Machine.execValidate raw s
  | .unesc frame n => Sys2Proof.Machine.execUnesc frame n s
  | .exec r frame => Sys2Proof.Machine.execExec r frame s
  | .acquire r => Sys2Proof.Machine.execAcquire r s
  | .release r => Sys2Proof.Machine.execRelease r s
  | .cancel r => Sys2Proof.Machine.execCancel r s
  | .cw cmd0 cmd1 len wirePayload k end0 end1 => Sys2Proof.Machine.execCw cmd0 cmd1 len wirePayload k end0 end1 s
  | .ak => Sys2Proof.Machine.execAk s
  | .rf rcmd0 rcmd1 len body end0 end1 => Sys2Proof.Machine.execRf rcmd0 rcmd1 len body end0 end1 s
  | .setvent level payload => Sys2Proof.Machine.execSetvent level payload s
  | .settemp temperature payload => Sys2Proof.Machine.execSettemp temperature payload s
  | .gettemp payload => Sys2Proof.Machine.execGettemp payload s
  | .getvent payload => Sys2Proof.Machine.execGetvent payload s
  | .getfan payload => Sys2Proof.Machine.execGetfan payload s
  | .getfilt payload => Sys2Proof.Machine.execGetfilt payload s
  | .getvalve payload => Sys2Proof.Machine.execGetvalve payload s
  | .getbyp payload => Sys2Proof.Machine.execGetbyp payload s
  | .getpreh payload => Sys2Proof.Machine.execGetpreh payload s
  | .gethours payload => Sys2Proof.Machine.execGethours payload s
  | .getunit payload => Sys2Proof.Machine.execGetunit payload s

end Sys2Proof.Machine
end

