-- ==== Sys2Proof/Machine/Step.lean ====
section
/-! DEFINITION. One step of the system: the next turn of the schedule, or the default turn where nothing is scheduled. -/

namespace Sys2Proof.Machine

/-- Carries out one turn. A word is decoded and run (30_encoding.md R88). -/
def runTurn (t : Turn) (s : State) : Host.Outcome State Fault Refusal :=
  match t with
  | .word w =>
    match decode w with
    | .ok i => exec i s
    | .error _ => .next (undecoded w s)
  | .grant => .next (grant s)
  | .sequencer => sequencer s
  | .requester r => .next (requesterTurn r s)
  | .timer => .next (pollTimer s)
  | .reset => .next (resetEvent s)

/-- One step (00_scope.md R10, Log 6). With nothing scheduled and nobody able to move the system waits for requests. -/
def step (s : State) : Host.Outcome State Fault Refusal :=
  match s.schedule with
  | t :: rest => runTurn t { s with schedule := rest }
  | [] =>
    match defaultTurn s with
    | some t => runTurn t s
    | none => .next s

/-- `s` with the table's word `w` of `nbits` bits as its next turn (Log 5). -/
def State.withFetchWord (s : State) (nbits w : Nat) : State :=
  { s with schedule := .word (tableWord nbits w) :: s.schedule }

end Sys2Proof.Machine
end

