-- ==== Sys2Proof/Safety.lean ====
section
/-! DEFINITION. What counts as a safe state, and the terms the statements are written in. -/

namespace Sys2Proof.Machine

/-- The values the `OUT` registers may hold together (10_state.md R39, 43_transaction.md R166, R172, 60_exceptions.md
R211): nothing yet; the acknowledgment; a response of 9 to 265 bytes; a failure of one of the four kinds `EXEC` can deliver. -/
def outLegal (o : Out) : Prop :=
  match o.cls with
  | .none => o = ⟨.none, [], none, false⟩
  | .ack => o = ⟨.ack, [0x07, 0xF3], none, false⟩
  | .data => 9 ≤ o.frame.length ∧ o.frame.length ≤ 265 ∧ o.err = none
  | .failure => o.frame = [] ∧ o.warn = false ∧
      (o.err = some .incomplete ∨ o.err = some .tooShort ∨ o.err = some .malformedFrame ∨ o.err = some .channelTimeout)

/-- The invariant of the machine. -/
structure Inv (s : State) : Prop where
  /-- A transaction in flight belongs to the holder of the permit (44_arbiter.md R183). -/
  permit : s.txn.phase ≠ .idle → s.arb.holder = some s.txn.owner
  /-- A requester that waits does not hold the permit (10_state.md R41). -/
  waiting : ∀ r, s.arb.waiting r = true → s.arb.holder ≠ some r
  /-- The frame in flight is a command frame (43_transaction.md R160). -/
  sent : s.txn.phase ≠ .idle → isFrame s.txn.sent = true
  /-- The verdict stands in phase CLASSIFY alone, and is the capture's (43_transaction.md R165). -/
  verdict : s.txn.verdict = if s.txn.phase = .classify then some (validate s.raw) else none
  /-- No capture survives its transaction (10_state.md R27). -/
  raw : s.raw = [] ∨ s.txn.phase = .validate ∨ s.txn.phase = .classify
  /-- A valid `FR` holds the frame that `BUILD` made of the values in `TX`, where `TX.payload` holds at most 255 bytes and
  `TX.len` counts them (10_state.md R23, R24). Where `FR` is not valid nothing is asked of `TX`. -/
  fr : s.fr.valid = true → s.tx.payload.length ≤ 255 ∧ s.tx.len.toNat = s.tx.payload.length ∧
    s.fr.bytes = frameOf s.tx.cmd0 s.tx.cmd1 s.tx.payload
  /-- `TXW` is empty or holds 8 to 518 bytes (10_state.md R25). -/
  txw : s.txw = [] ∨ 8 ≤ s.txw.length ∧ s.txw.length ≤ 518
  /-- `RX.F` holds at most 265 bytes (10_state.md R33). -/
  rx : s.rx.f.length ≤ 265
  /-- `OUT` holds a legal combination (10_state.md R39). -/
  out : outLegal s.out
  /-- The frame of a requester's task is a command frame; a task that has not begun its `EXEC` belongs to a requester that
  waits for the permit or holds it, one that has begun it to the holder (44_arbiter.md R190). The tasks are the model's
  (Log 19). -/
  task : ∀ r k, s.task r = some k → isFrame k.frame = true ∧
    (k.stage = .waiting → s.arb.waiting r = true ∨ s.arb.holder = some r) ∧
    (k.stage = .running → s.arb.holder = some r)
  /-- The ceiling is not shorter than the settle delay (10_state.md R36). -/
  timeout : s.cfg.settleDelay ≤ s.cfg.readTimeout

/-- The reply of an outcome that is a next state. -/
def replyOf : Host.Outcome State Fault Refusal → Option Reply
  | .next s => some s.reply
  | .fault _ => none
  | .refused _ => none

/-- `OUT` and `LOG` of `t` are those of `s` after the delivery of the outcome that the capture `raw` calls for: the failure
that `VALIDATE` raises, `Ack` for `07 f3` alone, else `Data` with the warning of `VALIDATE` (43_transaction.md R166, R172;
60_exceptions.md R222). -/
def DeliversOutcome (raw : List Byte) (s t : State) : Prop :=
  (∀ k, replyOf (exec (.validate raw) s) = some (.error k) → t.out = ⟨.failure, [], some k, false⟩ ∧ t.log = s.log ++ [k]) ∧
  (raw = [0x07, 0xF3] → t.out = ⟨.ack, [0x07, 0xF3], none, false⟩ ∧ t.log = s.log) ∧
  (∀ g oor, raw ≠ [0x07, 0xF3] → replyOf (exec (.validate raw) s) = some (.checked g oor) →
    t.out = ⟨.data, g, none, oor⟩ ∧ t.log = s.log ++ (if oor then [Kind.indexOutOfRange] else []))

/-- The checksum in closed form (41_checksum.md R121): 173, every byte other than `0x07`, and 7 once if any byte is `0x07`,
modulo 256. -/
def checksumOf (bytes : List Byte) : Byte :=
  BitVec.ofNat 8 (173 + ((bytes.filter (· ≠ 0x07)).map BitVec.toNat).sum + if (0x07 : Byte) ∈ bytes then 7 else 0)

/-- Reading from the left, drops the second byte of each non-overlapping pair `07 07` (40_tx_framer.md R106). -/
def dropSeconds : List Byte → List Byte
  | [] => []
  | [b] => [b]
  | b :: c :: t => if b = 0x07 ∧ c = 0x07 then b :: dropSeconds t else b :: dropSeconds (c :: t)

/-- The kept part of a capture of at least ten bytes: the first `raw[6] + 10` bytes (42_rx_deframer.md R134). -/
def kept (raw : List Byte) : List Byte := raw.take ((raw.getD 6 0).toNat + 10)

/-- The markers of a full response stand where step 5 looks for them (42_rx_deframer.md R135). -/
def marked (f : List Byte) : Prop := f.take 4 = [0x07, 0xF3, 0x07, 0xF0] ∧ f.drop (f.length - 2) = [0x07, 0x0F]

/-- The instruction of a command; a query has no numeric value. -/
def commandInstr (c : Command) (value : Int) (payload : List Byte) : Instr :=
  match c with
  | .setVent => .setvent value payload
  | .setTemp => .settemp value payload
  | .get q => q.instr payload

/-- The numeric value of a set intent lies in its range (44_arbiter.md R198); a query has no range. -/
def commandInRange (c : Command) (value : Int) : Prop :=
  match c with
  | .setVent => Config.ventLevelMin ≤ value ∧ value ≤ Config.ventLevelMax
  | .setTemp => Config.comfortTempMin ≤ value ∧ value ≤ Config.comfortTempMax
  | .get _ => True

/-- The requester that issues a command (30_encoding.md R86). -/
def commandRequester (c : Command) : Requester :=
  match c with
  | .setVent => .cmd
  | .setTemp => .cmd
  | .get _ => .poll

/-- The other requester. -/
def otherRequester : Requester → Requester
  | .poll => .cmd
  | .cmd => .poll

/-- A requester that carries out nothing, holds nothing and waits for nothing (44_arbiter.md R200). -/
def idleRequester (r : Requester) (s : State) : Prop :=
  s.task r = none ∧ s.arb.holder ≠ some r ∧ s.arb.waiting r = false

/-- `t` is `s` after the beginning of the transaction of command `c` with payload `p` (30_encoding.md R91): `FR` and `TX`
hold its frame and its parts, its requester waits for the permit and remembers the transaction (Log 19), and nothing else
has changed but `CS` and the reply. -/
def Begun (c : Command) (p : List Byte) (s t : State) : Prop :=
  t.reply = .accepted ∧
  t.fr = ⟨true, frameOf (Config.cmdId c).1 (Config.cmdId c).2 p⟩ ∧
  t.tx.cmd0 = (Config.cmdId c).1 ∧ t.tx.cmd1 = (Config.cmdId c).2 ∧ t.tx.payload = p ∧
  t.arb.holder = s.arb.holder ∧ t.arb.waiting (commandRequester c) = true ∧
  t.arb.waiting (otherRequester (commandRequester c)) = s.arb.waiting (otherRequester (commandRequester c)) ∧
  t.task (commandRequester c) = some ⟨c, frameOf (Config.cmdId c).1 (Config.cmdId c).2 p, .waiting⟩ ∧
  t.task (otherRequester (commandRequester c)) = s.task (otherRequester (commandRequester c)) ∧
  { t with cs := s.cs, tx := s.tx, fr := s.fr, arb := s.arb, taskPoll := s.taskPoll, taskCmd := s.taskCmd,
           reply := s.reply } = s

end Sys2Proof.Machine
end

