-- ==== Sys2Proof/Certificates/Slice0/Obligations.lean ====
section
/-! DEFINITION. The statements for the provers. -/

open Sys2Proof Sys2Proof.Machine

/-! ## Words and decoding -/

/-- Words written out from the encodings of 30_encoding.md R72, R73, R74, R88, R89 decode to the instructions they stand
for. The layout of a request around its select code is the model's (Log 2, 3), and so is the form of the last word: that a
set intent is written as its value beside the command frame of its command, and which source a word has (Log 4). -/
def Obligations.SpecWordsDecode : Prop :=
  decode ⟨.request, [0x01, 0x02, 0x53, 0x07]⟩ = .ok (.csum [0x53, 0x07]) ∧
  decode ⟨.request, [0x02, 0xAA, 0xBB, 0x01, 0x07]⟩ = .ok (.build [0xAA, 0xBB] [0x07]) ∧
  decode ⟨.request, [0x06, 0x05, 0x02, 0x11, 0x22]⟩ = .ok (.unesc [0x11, 0x22] 0x05) ∧
  decode ⟨.request, [0x18]⟩ = .ok (.acquire .cmd) ∧
  decode ⟨.line, [0x07, 0xF3]⟩ = .ok .ak ∧
  decode ⟨.line, [0x07, 0xF3, 0x07, 0xF0, 0x00, 0x0F, 0x00, 0x86, 0x07, 0x0F]⟩ =
    .ok (.rf 0x00 0x0F 0x00 [0x86] 0x07 0x0F) ∧
  decode ⟨.write, [0x07, 0xF0, 0xAA, 0xBB, 0x01, 0x07, 0x07, 0x1A, 0x07, 0x0F]⟩ =
    .ok (.cw 0xAA 0xBB 0x01 [0x07, 0x07] 0x1A 0x07 0x0F) ∧
  (∀ ids : Command → Byte × Byte, ids .setVent = (0x10, 0x32) →
    decodeWith ids ⟨.intent 2, [0x07, 0xF0, 0x10, 0x32, 0x01, 0x02, 0xF2, 0x07, 0x0F]⟩ = .ok (.setvent 2 [0x02]))

/-- A step runs the word at the head of the schedule: a word that decodes to an instruction is that instruction's meaning,
on the state with the word taken off. A word that decodes to none is refused (Log 1), or from the device reaches the channel
as noise (Log 18). The schedule is the model's (Log 6). -/
def Obligations.StepRunsDecodedWord : Prop :=
  ∀ (s : State) (w : PortWord) (rest : List Turn), s.schedule = .word w :: rest →
    (∀ i, decode w = .ok i → step s = exec i { s with schedule := rest }) ∧
    (∀ e, decode w = .error e → w.source ≠ .line → step s = .next { s with schedule := rest, reply := .refused }) ∧
    (∀ e, decode w = .error e → w.source = .line →
      step s = .next { s with schedule := rest, ch := { s.ch with arrived := s.ch.arrived ++ w.bytes } })

/-- Decoding the word of a well-formed instruction gives that instruction back, for all command ids that differ. -/
def Obligations.DecodeEncodeRoundTrip : Prop :=
  ∀ ids : Command → Byte × Byte, Function.Injective ids →
    ∀ i : Instr, wellFormed i = true → decodeWith ids (encodeWith ids i) = .ok i

/-- A word that decodes is the word of the instruction it decodes to: each word has one reading and no bit of it is
dropped, whatever the command ids are. -/
def Obligations.EncodeDecodeRoundTrip : Prop :=
  ∀ (ids : Command → Byte × Byte) (w : PortWord) (i : Instr), decodeWith ids w = .ok i → encodeWith ids i = w

/-- A request whose select code is reserved (`0x0`, `0xB` to `0xF`) is refused whatever follows it, with no change of
state but the reply (30_encoding.md R88). -/
def Obligations.ReservedSelectRefused : Prop :=
  ∀ (s : State) (b : Byte) (tail : List Byte) (rest : List Turn),
    s.schedule = .word ⟨.request, b :: tail⟩ :: rest → (b.toNat % 16 = 0 ∨ 0xB ≤ b.toNat % 16) →
    step s = .next { s with schedule := rest, reply := .refused }

/-! ## Checksum, framing, escaping -/

/-- `CSUM` completes on every operand and state; its byte is the closed form of 41_checksum.md R121; it writes `CS` and
the reply and nothing else. -/
def Obligations.CsumResult : Prop :=
  ∀ (bytes : List Byte) (s : State), ∃ t, exec (.csum bytes) s = .next t ∧
    t.reply = .byte (checksumOf bytes) ∧ t.cs.sum = checksumOf bytes ∧ (t.cs.seen07 = true ↔ (0x07 : Byte) ∈ bytes) ∧
    { t with cs := s.cs, reply := s.reply } = s

/-- The checksum is invariant to extra `0x07` bytes, equal on a payload and its escaped form, and depends on a sum
without `0x07` modulo 256 only (41_checksum.md R125). -/
def Obligations.ChecksumIgnoresRepeatsAndWraps : Prop :=
  (∀ (a b : List Byte) (s : State), (0x07 : Byte) ∈ a ++ b →
    replyOf (exec (.csum (a ++ 0x07 :: b)) s) = replyOf (exec (.csum (a ++ b)) s)) ∧
  (∀ (p e : List Byte) (s : State), replyOf (exec (.esc p) s) = some (.bytes e) →
    replyOf (exec (.csum e) s) = replyOf (exec (.csum p) s)) ∧
  (∀ (x y : List Byte) (s : State), (0x07 : Byte) ∉ x → (0x07 : Byte) ∉ y →
    (x.map BitVec.toNat).sum % 256 = (y.map BitVec.toNat).sum % 256 →
    replyOf (exec (.csum x) s) = replyOf (exec (.csum y) s))

/-- `BUILD` of a payload of at most 255 bytes completes in every state with the frame of 20_memory.md R59 in the reply and
in `FR`; `TX` and `CS` hold its intermediate values; nothing else changes. -/
def Obligations.BuildFrameLayout : Prop :=
  ∀ (c0 c1 : Byte) (p : List Byte) (s : State), p.length ≤ 255 → ∃ t f, exec (.build [c0, c1] p) s = .next t ∧
    t.reply = .frame f ∧ t.fr = ⟨true, f⟩ ∧ f.length = 8 + p.length ∧
    f[0]? = some 0x07 ∧ f[1]? = some 0xF0 ∧ f[2]? = some c0 ∧ f[3]? = some c1 ∧
    f[4]? = some (BitVec.ofNat 8 p.length) ∧ (∀ i, i < p.length → f[5 + i]? = p[i]?) ∧
    f[5 + p.length]? = some (checksumOf (c0 :: c1 :: BitVec.ofNat 8 p.length :: p)) ∧
    f[6 + p.length]? = some 0x07 ∧ f[7 + p.length]? = some 0x0F ∧
    t.tx = ⟨c0, c1, BitVec.ofNat 8 p.length, p, checksumOf (c0 :: c1 :: BitVec.ofNat 8 p.length :: p)⟩ ∧
    t.cs.sum = checksumOf (c0 :: c1 :: BitVec.ofNat 8 p.length :: p) ∧
    { t with cs := s.cs, tx := s.tx, fr := s.fr, reply := s.reply } = s

/-- A payload of exactly 255 bytes is accepted and gives `LEN = 0xFF` and 263 bytes; a longer one raises
`PayloadTooLarge`, one warning event, and changes nothing else, `FR` included (40_tx_framer.md R101). -/
def Obligations.BuildPayloadLimit : Prop :=
  ∀ (c0 c1 : Byte) (p : List Byte) (s : State),
    (p.length = 255 → ∃ t f, exec (.build [c0, c1] p) s = .next t ∧ t.reply = .frame f ∧ f[4]? = some 0xFF ∧
      f.length = 263) ∧
    (256 ≤ p.length → exec (.build [c0, c1] p) s =
      .next { s with log := s.log ++ [.payloadTooLarge], reply := .error .payloadTooLarge })

/-- A request with an operand outside its type is refused and changes nothing but the reply: a `BUILD` command that is not
two bytes, a `WIRE` or `EXEC` operand shorter than 8 bytes or not `8 + frame[4]` bytes long (for `EXEC`: Log 13). -/
def Obligations.OperandsOutsideTheirTypeRefused : Prop :=
  (∀ (command p : List Byte) (s : State), command.length ≠ 2 →
    exec (.build command p) s = .next { s with reply := .refused }) ∧
  (∀ (f : List Byte) (s : State), (f.length < 8 ∨ f.length ≠ 8 + (f.getD 4 0).toNat) →
    exec (.wire f) s = .next { s with reply := .refused }) ∧
  (∀ (r : Requester) (f : List Byte) (s : State), (f.length < 8 ∨ f.length ≠ 8 + (f.getD 4 0).toNat) →
    exec (.exec r f) s = .next { s with reply := .refused })

/-- `ESC` completes on every payload and state and changes nothing but the reply: every `0x07` is doubled, so the length
grows by their number, every maximal run of `0x07` is even, the other bytes keep value and order, and dropping the second
byte of each pair gives the payload back (40_tx_framer.md, properties of `ESC`). -/
def Obligations.EscResult : Prop :=
  ∀ (p : List Byte) (s : State), ∃ t e, exec (.esc p) s = .next t ∧ t.reply = .bytes e ∧
    e.length = p.length + p.count 0x07 ∧ dropSeconds e = p ∧ e.filter (· ≠ 0x07) = p.filter (· ≠ 0x07) ∧
    (∀ (a b : List Byte) (m : Nat), e = a ++ List.replicate m 0x07 ++ b → a.getLast? ≠ some 0x07 →
      b.head? ≠ some 0x07 → m % 2 = 0) ∧
    { t with reply := s.reply } = s

/-- `WIRE` of a command frame (five header bytes, the payload, three trailer bytes) completes in every state: header and
trailer are copied, the payload is escaped, `TXW` holds the bytes, a payload without `0x07` is sent as it is, and nothing
else changes (40_tx_framer.md, `WIRE`). -/
def Obligations.WireResult : Prop :=
  ∀ (hd pl tl : List Byte) (s : State), hd.length = 5 → pl.length ≤ 255 →
    hd[4]? = some (BitVec.ofNat 8 pl.length) → tl.length = 3 →
    ∃ t e, exec (.wire (hd ++ pl ++ tl)) s = .next t ∧ t.reply = .bytes (hd ++ e ++ tl) ∧ t.txw = hd ++ e ++ tl ∧
      dropSeconds e = pl ∧ (hd ++ e ++ tl).length = 8 + pl.length + pl.count 0x07 ∧ ((0x07 : Byte) ∉ pl → e = pl) ∧
      { t with txw := s.txw, reply := s.reply } = s

/-! ## Receiving -/

/-- Steps 1 to 3 of `VALIDATE`: up to one byte is `Incomplete`, exactly `07 f3` is returned as it is, any other capture of
two to nine bytes is `TooShort`; `RX.oor` is cleared, a failure is one event, nothing else changes. That a `VALIDATE` of its
own logs the event is the model's reading (Log 16), and so is that it leaves `RAW` alone (Log 14). -/
def Obligations.ValidateShortCaptures : Prop :=
  ∀ (raw : List Byte) (s : State),
    (raw.length ≤ 1 → exec (.validate raw) s = .next
      { s with rx := { s.rx with oor := false }, log := s.log ++ [.incomplete], reply := .error .incomplete }) ∧
    (raw = [0x07, 0xF3] → exec (.validate raw) s = .next
      { s with rx := { s.rx with oor := false }, reply := .checked [0x07, 0xF3] false }) ∧
    (2 ≤ raw.length → raw.length ≤ 9 → raw ≠ [0x07, 0xF3] → exec (.validate raw) s = .next
      { s with rx := { s.rx with oor := false }, log := s.log ++ [.tooShort], reply := .error .tooShort })

/-- Steps 4 and 5 of `VALIDATE`: a capture of ten bytes or more whose kept part has a wrong marker is `MalformedFrame`;
`RX.N`, `RX.M`, `RX.F` hold the declared length, the message length and the kept part; one event; nothing else changes. That
a `VALIDATE` of its own logs the event is the model's reading (Log 16), and so is that it leaves `RAW` alone (Log 14). -/
def Obligations.ValidateMalformed : Prop :=
  ∀ (raw : List Byte) (s : State), 10 ≤ raw.length → ¬ marked (kept raw) →
    ∃ t, exec (.validate raw) s = .next t ∧ t.reply = .error .malformedFrame ∧ t.log = s.log ++ [.malformedFrame] ∧
      raw[6]? = some t.rx.n ∧ t.rx.m.toNat = t.rx.n.toNat + 10 ∧ t.rx.f = kept raw ∧ t.rx.i = s.rx.i ∧ t.rx.oor = false ∧
      { t with rx := s.rx, log := s.log, reply := s.reply } = s

/-- Steps 4 to 7 of `VALIDATE`: a capture of ten bytes or more whose markers stand is returned as `UNESC` leaves its kept
part, with the warning of the scan; `RX` holds the result, the warning is one event, nothing else changes. That a `VALIDATE`
of its own logs the event is the model's reading (Log 16), that it leaves `RAW` alone too (Log 14), and so is where `RX.i`
rests: one past the last index of a scan that came to its end, at the index where the scan stopped otherwise (Log 33). -/
def Obligations.ValidateAccepts : Prop :=
  ∀ (raw : List Byte) (s : State), 10 ≤ raw.length → marked (kept raw) →
    ∃ t n f oor, raw[6]? = some n ∧ replyOf (exec (.unesc (kept raw) n) s) = some (.checked f oor) ∧
      exec (.validate raw) s = .next t ∧ t.reply = .checked f oor ∧
      t.log = s.log ++ (if oor then [Kind.indexOutOfRange] else []) ∧
      t.rx.n = n ∧ t.rx.m.toNat = n.toNat + 10 ∧ t.rx.f = f ∧ t.rx.oor = oor ∧
      (oor = false → t.rx.i.toNat = max 7 (6 + n.toNat)) ∧
      (oor = true → 7 ≤ t.rx.i.toNat ∧ t.rx.i.toNat ≤ 5 + n.toNat ∧ f.length ≤ t.rx.i.toNat + 1) ∧
      { t with rx := s.rx, log := s.log, reply := s.reply } = s

/-- Whatever the capture, `VALIDATE` fails with `Incomplete`, `TooShort` or `MalformedFrame` only: running past the
available bytes is a warning beside a frame and never an error (42_rx_deframer.md R137, 60_exceptions.md R214). -/
def Obligations.ValidateErrorKinds : Prop :=
  ∀ (raw : List Byte) (s : State) (k : Kind), replyOf (exec (.validate raw) s) = some (.error k) →
    k = .incomplete ∨ k = .tooShort ∨ k = .malformedFrame

/-- The captures `VALIDATE` accepts are exactly the wire forms: `AK` alone, and those whose kept part is a well-formed
`RF` (30_encoding.md R81). -/
def Obligations.AcceptedCapturesAreWireForms : Prop :=
  ∀ (raw : List Byte) (s : State),
    (∃ f oor, replyOf (exec (.validate raw) s) = some (.checked f oor)) ↔
      (raw = (encode .ak).bytes ∨ ∃ c0 c1 len body, wellFormed (.rf c0 c1 len body 0x07 0x0F) = true ∧
        raw.take (len.toNat + 10) = (encode (.rf c0 c1 len body 0x07 0x0F)).bytes)

/-- Bytes after a full response of the declared length do not change the result, and `07 f3` with anything after it is no
acknowledgment (42_rx_deframer.md R149). -/
def Obligations.ValidateTrailingBytes : Prop :=
  (∀ (r t : List Byte) (s : State), 10 ≤ r.length → r.length = (r.getD 6 0).toNat + 10 →
    replyOf (exec (.validate (r ++ t)) s) = replyOf (exec (.validate r) s)) ∧
  (∀ (t : List Byte) (s : State) (oor : Bool), t ≠ [] →
    replyOf (exec (.validate ([0x07, 0xF3] ++ t)) s) ≠ some (.checked [0x07, 0xF3] oor))

/-- A capture buffer of 265 bytes or more that drops the excess gives the results of an unbounded one (10_state.md R31;
the model's `RAW` is unbounded, Log 24). -/
def Obligations.CaptureBufferMayDropExcess : Prop :=
  ∀ (raw : List Byte) (cap : Nat) (s : State), 265 ≤ cap → exec (.validate (raw.take cap)) s = exec (.validate raw) s

/-- `UNESC` completes on every operand and state. It never lengthens the frame, and for a declared length `N` of 0 or 1 it
reads nothing. For a longer one it warns where it leaves fewer than `N + 6` bytes, be it a short part or five deletions of a
full one, and does not where it leaves more; where it leaves `N + 6` it warns exactly where the last of them is a `0x07` with
no second byte behind it, that is one that the scan of one index less leaves last, too (42_rx_deframer.md R142). It writes
`RX` (its index, its flag and the working frame), one event for a warning, and nothing else. What the working frame is after
an operand of more than 265 bytes is a free value of at most 265 bytes (Log 15), for which one draw is counted. Where `RX.i`
rests is the model's reading (Log 33), and that an `UNESC` of its own logs the event too (Log 16). -/
def Obligations.UnescResult : Prop :=
  ∀ (F : List Byte) (n : Byte) (s : State), ∃ t f oor, exec (.unesc F n) s = .next t ∧ t.reply = .checked f oor ∧
    f.length ≤ F.length ∧ (n.toNat ≤ 1 → f = F ∧ oor = false) ∧
    (2 ≤ n.toNat → f.length ≤ n.toNat + 5 → oor = true) ∧ (n.toNat + 7 ≤ f.length → oor = false) ∧
    (2 ≤ n.toNat → f.length = n.toNat + 6 → f[n.toNat + 5]? ≠ some 0x07 → oor = false) ∧
    (2 ≤ n.toNat → f.length = n.toNat + 6 → f[n.toNat + 5]? = some 0x07 →
      (oor = true ↔ replyOf (exec (.unesc F (n - 1)) s) = some (.checked f false))) ∧
    t.rx.n = s.rx.n ∧ t.rx.m = s.rx.m ∧ (F.length ≤ 265 → t.rx.f = f ∧ t.draws = s.draws) ∧
    (265 < F.length → t.draws = s.draws + 1) ∧
    t.rx.f.length ≤ 265 ∧ t.rx.oor = oor ∧ (oor = false → t.rx.i.toNat = max 7 (6 + n.toNat)) ∧
    (oor = true → 7 ≤ t.rx.i.toNat ∧ t.rx.i.toNat ≤ 5 + n.toNat ∧ f.length ≤ t.rx.i.toNat + 1) ∧
    t.log = s.log ++ (if oor then [Kind.indexOutOfRange] else []) ∧
    { t with rx := s.rx, log := s.log, reply := s.reply, draws := s.draws } = s

/-- Where no two adjacent bytes of the scanned range are both `0x07`, `UNESC` returns the frame as it is; it warns of nothing
where every byte it needs is there, and it warns where one is not (42_rx_deframer.md R142, R145). -/
def Obligations.UnescWithoutPairs : Prop :=
  ∀ (F : List Byte) (n : Byte) (s : State),
    (∀ i, 7 ≤ i → i ≤ 5 + n.toNat → ¬ (F[i]? = some 0x07 ∧ F[i + 1]? = some 0x07)) →
    ∃ oor, replyOf (exec (.unesc F n) s) = some (.checked F oor) ∧
      (n.toNat + 7 ≤ F.length → oor = false) ∧
      (6 + n.toNat ≤ F.length → (∀ i, 7 ≤ i → i ≤ 5 + n.toNat → F[i]? ≠ some 0x07) → oor = false) ∧
      (2 ≤ n.toNat → F.length ≤ 5 + n.toNat → oor = true) ∧
      (2 ≤ n.toNat → F.length = 6 + n.toNat → F[5 + n.toNat]? = some 0x07 → oor = true)

/-- Pairs are taken from the left and do not overlap: a run of `2m` bytes `0x07` that the scan covers becomes `m`, a run of
`2m + 1` becomes `m + 1`, and what follows the run stays (42_rx_deframer.md, runs of `0x07`). The third clause says what the
scan deletes wherever the first run of pairs stands: with `j` bytes and `2m` bytes `0x07` behind index 7, and `n` indices
still to scan behind them, the run becomes `m` bytes and the rest is what the scan with the declared length that `n` indices
call for makes of it, the old checksum and end marker included when the rest reaches them. The last clause is vector V19,
where it does (the reading of the scan: Log 26). -/
def Obligations.UnescHalvesRuns : Prop :=
  (∀ (pre post : List Byte) (b n : Byte) (m : Nat) (s : State), pre.length = 7 → b ≠ 0x07 →
    (n.toNat = m + 1 →
      replyOf (exec (.unesc (pre ++ List.replicate (2 * m) 0x07 ++ b :: post) n) s) =
        some (.checked (pre ++ List.replicate m 0x07 ++ b :: post) false)) ∧
    (n.toNat = m + 2 →
      replyOf (exec (.unesc (pre ++ List.replicate (2 * m + 1) 0x07 ++ b :: post) n) s) =
        some (.checked (pre ++ List.replicate (m + 1) 0x07 ++ b :: post) false))) ∧
  (∀ (pre x post g : List Byte) (n n' : Byte) (j m : Nat) (oor : Bool) (s : State),
    pre.length = 7 + j → x.length = 7 → (0 < j → pre.getLast? ≠ some 0x07) →
    (∀ i, 7 ≤ i → ¬ (pre[i]? = some 0x07 ∧ pre[i + 1]? = some 0x07)) →
    1 ≤ n'.toNat → n.toNat = j + m + n'.toNat →
    replyOf (exec (.unesc (x ++ post) n') s) = some (.checked (x ++ g) oor) →
    replyOf (exec (.unesc (pre ++ List.replicate (2 * m) 0x07 ++ post) n) s) =
      some (.checked (pre ++ List.replicate m 0x07 ++ g) oor)) ∧
  (∀ s : State, replyOf (exec (.validate [0x07, 0xF3, 0x07, 0xF0, 0x00, 0xD2, 0x06, 0x07, 0x07, 0x07, 0x07, 0x01, 0x02, 0x07,
    0x07, 0x0F]) s) = some (.checked [0x07, 0xF3, 0x07, 0xF0, 0x00, 0xD2, 0x06, 0x07, 0x07, 0x01, 0x02, 0x07, 0x0F] false))

/-- The round trip with its exact domain: a built frame, sent behind an acknowledgment, is validated to itself if and only
if its payload holds no `0x07` (42_rx_deframer.md, consequences a model must reproduce; 90_conflicts.md C2, C3). -/
def Obligations.RoundTripIffNoReservedByte : Prop :=
  ∀ (c0 c1 : Byte) (p f w : List Byte) (s : State), p.length ≤ 255 →
    replyOf (exec (.build [c0, c1] p) s) = some (.frame f) → replyOf (exec (.wire f) s) = some (.bytes w) →
    (replyOf (exec (.validate ([0x07, 0xF3] ++ w)) s) = some (.checked ([0x07, 0xF3] ++ f) false) ↔ (0x07 : Byte) ∉ p)

/-- A response whose payload holds exactly one `0x07`, sent escaped, is rejected as `MalformedFrame` (42_rx_deframer.md,
consequences a model must reproduce; 70_reset_and_hazards.md R253). -/
def Obligations.SingleReservedByteRejected : Prop :=
  ∀ (c0 c1 : Byte) (p f w : List Byte) (s : State), p.length ≤ 255 → p.count 0x07 = 1 →
    replyOf (exec (.build [c0, c1] p) s) = some (.frame f) → replyOf (exec (.wire f) s) = some (.bytes w) →
    replyOf (exec (.validate ([0x07, 0xF3] ++ w)) s) = some (.error .malformedFrame)

/-- The payload of a returned frame is defined for well-sized frames only (42_rx_deframer.md R138): a built frame behind an
acknowledgment has the payload it was built from, and a frame whose length is not `frame[6] + 10` has none. -/
def Obligations.PayloadOfReturnedFrame : Prop :=
  (∀ (c0 c1 : Byte) (p f : List Byte) (s : State), p.length ≤ 255 →
    replyOf (exec (.build [c0, c1] p) s) = some (.frame f) → payloadRx ([0x07, 0xF3] ++ f) = some p) ∧
  (∀ r : List Byte, (r.length < 10 ∨ r.length ≠ (r.getD 6 0).toNat + 10) → payloadRx r = none)

/-! ## Transactions -/

/-- `EXEC` by the holder of the permit with no transaction in flight is accepted, and five steps of the sequencer carry it
to delivery where the read window gives a capture (that they are five steps is the model's reading, Log 7): the wire bytes
of the frame go out once; the capture, waiting bytes first (Log 12), is validated, and `RX` is as `VALIDATE` of it leaves it;
`OUT` and `LOG` receive `Ack`, `Data` or `Failure` as `VALIDATE` of the capture says; the capture is discarded; the permit,
`FR`, the configuration and everything else stay. The window is the next one that `CH` names, or a free draw
(20_memory.md R57), for which one draw is counted.

Whatever the interleaving (00_scope.md R10), from every state that meets the invariant: the sequencer's turn in phase VALIDATE
leaves `RX` as `VALIDATE` of the capture leaves it, its turn in phase CLASSIFY delivers what `VALIDATE` of the capture calls
for, and every other step but a reset leaves the transaction, its capture and `OUT` as they are. -/
def Obligations.ExecDeliversOutcome : Prop :=
  (∀ (s : State) (r : Requester) (f raw : List Byte), s.arb.holder = some r → s.txn.phase = .idle →
    isFrame f = true → nextWindow s = .captured raw →
    ∃ a v t, exec (.exec r f) s = .next a ∧ a.txn.phase = .write ∧ a.txn.owner = r ∧ a.txn.sent = f ∧
      { a with txn := s.txn, reply := s.reply } = s ∧
      exec (.validate (s.ch.arrived ++ raw)) s = .next v ∧
      Host.Core.run Sys2Proof.core 5 { a with schedule := List.replicate 5 .sequencer } = .next t ∧
      t.txn.phase = .idle ∧ t.txn.owner = r ∧ t.txn.sent = f ∧ t.txw = wireBytes f ∧ t.raw = [] ∧ t.rx = v.rx ∧
      t.ch = ⟨[], s.ch.windows.tail, s.ch.written ++ wireBytes f⟩ ∧
      t.draws = s.draws + (if s.ch.windows = [] then 1 else 0) ∧
      DeliversOutcome (s.ch.arrived ++ raw) s t ∧
      { t with txn := s.txn, txw := s.txw, rx := s.rx, ch := s.ch, out := s.out, log := s.log, raw := s.raw,
               schedule := s.schedule, reply := s.reply, draws := s.draws } = s) ∧
  (∀ (s : State) (rest : List Turn), Inv s → s.schedule = .sequencer :: rest →
    (s.txn.phase = .validate → ∃ v t, exec (.validate s.raw) s = .next v ∧ step s = .next t ∧ t.rx = v.rx ∧
      t.txn.phase = .classify ∧ t.txn.owner = s.txn.owner ∧ t.txn.sent = s.txn.sent ∧
      { t with rx := s.rx, txn := s.txn, schedule := s.schedule } = s) ∧
    (s.txn.phase = .classify → ∃ t, step s = .next t ∧ DeliversOutcome s.raw s t ∧ t.raw = [] ∧
      t.txn.phase = .idle ∧ t.txn.owner = s.txn.owner ∧ t.txn.sent = s.txn.sent ∧
      { t with out := s.out, log := s.log, raw := s.raw, txn := s.txn, schedule := s.schedule } = s)) ∧
  (∀ s t : State, (s.txn.phase = .validate ∨ s.txn.phase = .classify) → s.schedule.head? ≠ some .reset →
    step s = .next t → t.txn.phase = s.txn.phase → t.txn = s.txn ∧ t.raw = s.raw ∧ t.out = s.out)

/-- When the drain reports that the ceiling is hit, the transaction fails with `ChannelTimeout` whatever had been
collected: nothing is validated, `RX` is untouched, the command has been sent, one event is logged, and the permit is
still held (43_transaction.md R170). That it takes three sequencer steps is the model's reading (Log 7), and so is that the
bytes that waited in `CH` are lost with the rest (Log 12). The ceiling may be named in `CH` or be a free draw. -/
def Obligations.CeilingFailsTransaction : Prop :=
  ∀ (s : State) (r : Requester) (f : List Byte), s.arb.holder = some r → s.txn.phase = .idle →
    isFrame f = true → nextWindow s = .ceilingHit →
    ∃ a t, exec (.exec r f) s = .next a ∧
      Host.Core.run Sys2Proof.core 3 { a with schedule := List.replicate 3 .sequencer } = .next t ∧
      t.out = ⟨.failure, [], some .channelTimeout, false⟩ ∧ t.log = s.log ++ [.channelTimeout] ∧
      t.txn.phase = .idle ∧ t.raw = [] ∧ t.rx = s.rx ∧ t.arb = s.arb ∧ t.fr = s.fr ∧
      t.ch = ⟨[], s.ch.windows.tail, s.ch.written ++ wireBytes f⟩ ∧
      t.draws = s.draws + (if s.ch.windows = [] then 1 else 0)

/-- `EXEC` by a requester that does not hold the permit, or with a transaction in flight, is refused: nothing is written
to the channel and nothing but the reply changes (43_transaction.md R168). -/
def Obligations.ExecRefusedWithoutPermit : Prop :=
  ∀ (s : State) (r : Requester) (f : List Byte), (s.arb.holder ≠ some r ∨ s.txn.phase ≠ .idle) →
    exec (.exec r f) s = .next { s with reply := .refused }

/-- Every step but a reset keeps the phase or moves it along the fixed order; the one short cut, from DRAIN to delivery, is
taken when the ceiling is hit and then only, and no phase is skipped otherwise (43_transaction.md R161). -/
def Obligations.PhasesFollowTheOrder : Prop :=
  ∀ s t : State, s.schedule.head? ≠ some .reset → step s = .next t → t.txn.phase = s.txn.phase ∨
    (s.txn.phase, t.txn.phase) ∈ [(Phase.idle, Phase.write), (.write, .settle), (.settle, .drain), (.validate, .classify),
      (.classify, .idle)] ∨
    (s.txn.phase = .drain ∧ t.txn.phase = .validate ∧ ∃ raw, nextWindow s = .captured raw) ∨
    (s.txn.phase = .drain ∧ t.txn.phase = .idle ∧ nextWindow s = .ceilingHit)

/-- While a transaction is in flight, no step but a reset changes who holds the permit, who owns the transaction or which
frame is sent: a later `BUILD` cannot change it and nobody can abandon it (43_transaction.md R169, 20_memory.md R66). -/
def Obligations.InFlightTransactionKept : Prop :=
  ∀ s t : State, Inv s → s.txn.phase ≠ .idle → s.schedule.head? ≠ some .reset → step s = .next t →
    t.arb.holder = s.arb.holder ∧ t.txn.owner = s.txn.owner ∧ t.txn.sent = s.txn.sent

/-- While a transaction is in flight, `RELEASE` and `CANCEL` by its owner are refused (43_transaction.md R169). -/
def Obligations.OwnerCannotAbandon : Prop :=
  ∀ s : State, Inv s → s.txn.phase ≠ .idle →
    exec (.release s.txn.owner) s = .next { s with reply := .refused } ∧
    exec (.cancel s.txn.owner) s = .next { s with reply := .refused }

/-- A step writes to the channel only in phase WRITE, and then the whole wire form of the frame in flight, once: the bytes
on the channel are a concatenation of whole frames and never an interleaving (44_arbiter.md R183, 43_transaction.md R162). -/
def Obligations.ChannelSeesWholeFrames : Prop :=
  ∀ s t : State, step s = .next t → t.ch.written = s.ch.written ∨
    (s.txn.phase = .write ∧ t.txn.phase = .settle ∧ ∃ w, replyOf (exec (.wire s.txn.sent) s) = some (.bytes w) ∧
      t.ch.written = s.ch.written ++ w)

/-! ## The arbiter -/

/-- `ACQUIRE r` is accepted exactly where `r` neither holds the permit nor waits for it; then `r` waits, and nothing else
changes but the reply. Otherwise it is refused (44_arbiter.md R181, R188). -/
def Obligations.AcquireEffect : Prop :=
  ∀ (r : Requester) (s : State),
    (s.arb.holder ≠ some r → s.arb.waiting r = false → ∃ t, exec (.acquire r) s = .next t ∧
      t.arb.holder = s.arb.holder ∧ t.arb.waiting r = true ∧
      t.arb.waiting (otherRequester r) = s.arb.waiting (otherRequester r) ∧
      { t with arb := s.arb, reply := s.reply } = s) ∧
    (s.arb.holder = some r ∨ s.arb.waiting r = true → exec (.acquire r) s = .next { s with reply := .refused })

/-- The grant: where the permit is free and somebody waits, one of those that wait receives it and no longer waits, and
nothing else changes but the turn and the count of draws; which one is a free value (Log 11). Otherwise the turn does
nothing (44_arbiter.md R182; when the turn comes is the schedule's, Log 6). -/
def Obligations.GrantPicksOneThatWaits : Prop :=
  ∀ (s : State) (rest : List Turn), s.schedule = .grant :: rest →
    (s.arb.holder = none → (∃ q, s.arb.waiting q = true) → ∃ t r, step s = .next t ∧ s.arb.waiting r = true ∧
      t.arb.holder = some r ∧ t.arb.waiting r = false ∧
      t.arb.waiting (otherRequester r) = s.arb.waiting (otherRequester r) ∧
      { t with arb := s.arb, draws := s.draws, schedule := s.schedule } = s) ∧
    (s.arb.holder ≠ none ∨ (∀ q, s.arb.waiting q = false) → step s = .next { s with schedule := rest })

/-- `RELEASE r` is accepted exactly where `r` holds the permit and no transaction is in flight; then nobody holds it and
nothing else of the block changes. Otherwise it is refused (44_arbiter.md R184). What becomes of a command that `r` is
carrying out is said in `RequestsThatEndACommand`. -/
def Obligations.ReleaseEffect : Prop :=
  ∀ (r : Requester) (s : State),
    (s.arb.holder = some r → s.txn.phase = .idle → ∃ t, exec (.release r) s = .next t ∧ t.arb.holder = none ∧
      (∀ q, t.arb.waiting q = s.arb.waiting q) ∧ t.task (otherRequester r) = s.task (otherRequester r) ∧
      { t with arb := s.arb, taskPoll := s.taskPoll, taskCmd := s.taskCmd, reports := s.reports, reply := s.reply } = s) ∧
    (s.arb.holder ≠ some r ∨ s.txn.phase ≠ .idle → exec (.release r) s = .next { s with reply := .refused })

/-- `CANCEL r` is accepted exactly where `r` waits; then it waits no longer, and nothing else of the block changes. Otherwise
it is refused (44_arbiter.md R186). What becomes of the command behind the wait is said in `RequestsThatEndACommand`. -/
def Obligations.CancelEffect : Prop :=
  ∀ (r : Requester) (s : State),
    (s.arb.waiting r = true → ∃ t, exec (.cancel r) s = .next t ∧ t.arb.holder = s.arb.holder ∧
      t.arb.waiting r = false ∧ t.arb.waiting (otherRequester r) = s.arb.waiting (otherRequester r) ∧
      t.task (otherRequester r) = s.task (otherRequester r) ∧
      { t with arb := s.arb, taskPoll := s.taskPoll, taskCmd := s.taskCmd, reports := s.reports, reply := s.reply } = s) ∧
    (s.arb.waiting r = false → exec (.cancel r) s = .next { s with reply := .refused })

/-- A step other than a reset changes the holder of the permit in two ways only: a grant gives a free permit to one that
waits, and a release with no transaction in flight frees it (10_state.md R40). -/
def Obligations.HolderChangesByGrantOrRelease : Prop :=
  ∀ s t : State, s.schedule.head? ≠ some .reset → step s = .next t → t.arb.holder = s.arb.holder ∨
    (s.arb.holder = none ∧ ∃ r, s.arb.waiting r = true ∧ t.arb.holder = some r) ∨
    (s.txn.phase = .idle ∧ s.arb.holder ≠ none ∧ t.arb.holder = none)

/-! ## The line -/

/-- An acknowledgment or a response on the line completes in every state: its bytes wait in `CH` behind those already
there, and nothing else changes (Log 18). -/
def Obligations.FramesOnTheLineArrive : Prop :=
  ∀ s : State,
    (∃ t, exec .ak s = .next t ∧ t.ch = { s.ch with arrived := s.ch.arrived ++ [0x07, 0xF3] } ∧
      { t with ch := s.ch } = s) ∧
    (∀ (c0 c1 len : Byte) (body : List Byte) (e0 e1 : Byte), ∃ t, exec (.rf c0 c1 len body e0 e1) s = .next t ∧
      t.ch = { s.ch with arrived := s.ch.arrived ++
        ([0x07, 0xF3, 0x07, 0xF0, c0, c1, len] ++ body ++ [e0, e1]) } ∧
      { t with ch := s.ch } = s)

/-- A command frame towards the device in phase WRITE is the write of the frame in flight: the bytes go out, `TXW` holds
them, the settle delay begins, nothing else changes. Outside phase WRITE, or with other bytes than the wire form of a frame
in flight, it is refused (Log 17). -/
def Obligations.CommandFrameWritten : Prop :=
  ∀ (s : State) (c0 c1 len : Byte) (wp : List Byte) (k e0 e1 : Byte),
    (s.txn.phase = .write → isFrame s.txn.sent = true →
      wireBytes s.txn.sent = [0x07, 0xF0, c0, c1, len] ++ wp ++ [k, e0, e1] →
      exec (.cw c0 c1 len wp k e0 e1) s = .next { s with
        txw := [0x07, 0xF0, c0, c1, len] ++ wp ++ [k, e0, e1],
        ch := { s.ch with written := s.ch.written ++ ([0x07, 0xF0, c0, c1, len] ++ wp ++ [k, e0, e1]) },
        txn := { s.txn with phase := .settle } }) ∧
    (s.txn.phase ≠ .write ∨ isFrame s.txn.sent = false ∨
        wireBytes s.txn.sent ≠ [0x07, 0xF0, c0, c1, len] ++ wp ++ [k, e0, e1] →
      exec (.cw c0 c1 len wp k e0 e1) s = .next { s with reply := .refused })

/-- Bytes that waited on the channel come first in the next capture, and a drain takes them off the channel
(70_reset_and_hazards.md R252, 20_memory.md R54; Log 12). The read window is the next one that `CH` names; where it names
none it is a free draw, which is counted (20_memory.md R57; Log 10). -/
def Obligations.WaitingBytesComeFirst : Prop :=
  ∀ s : State, (∀ d ws, s.ch.windows = d :: ws → nextWindow s = d) ∧
    (s.ch.windows = [] → nextWindow s = Config.freeDrain s.draws) ∧
    (∀ (raw : List Byte) (rest : List Turn), s.schedule = .sequencer :: rest → s.txn.phase = .drain →
      nextWindow s = .captured raw →
      ∃ t, step s = .next t ∧ t.raw = s.ch.arrived ++ raw ∧
        t.ch = { s.ch with arrived := [], windows := s.ch.windows.tail } ∧
        t.draws = s.draws + (if s.ch.windows = [] then 1 else 0) ∧
        t.txn = { s.txn with phase := .validate } ∧
        { t with raw := s.raw, ch := s.ch, txn := s.txn, schedule := s.schedule, draws := s.draws } = s)

/-! ## The commands and their requesters -/

/-- A set intent outside its range is rejected in every state with `OutOfRange`: one event, one report, no `BUILD`, no
`ACQUIRE`, and nothing else changes (44_arbiter.md R198; the report and the reply are the model's own fields, Log 19, 28). -/
def Obligations.OutOfRangeIntentRejected : Prop :=
  ∀ (c : Command) (value : Int) (p : List Byte) (s : State), ¬ commandInRange c value →
    exec (commandInstr c value p) s = .next { s with
      log := s.log ++ [.outOfRange], reply := .error .outOfRange, reports := s.reports ++ [.rejected c .outOfRange] }

/-- Each of the eleven commands, given to its requester at rest with a payload that fits and a value in range, completes:
`BUILD` of the command's id and payload, then `ACQUIRE`. `FR` holds the frame, the requester waits for the permit and
remembers the transaction (Log 19), nothing else changes. That a query begins at once where `POLL` is at rest, ahead of the
queries still to come, is the model's choice (Log 36). -/
def Obligations.CommandBeginsTransaction : Prop :=
  ∀ (c : Command) (value : Int) (p f : List Byte) (s : State), commandInRange c value → p.length ≤ 255 →
    idleRequester (commandRequester c) s →
    replyOf (exec (.build [(Config.cmdId c).1, (Config.cmdId c).2] p) s) = some (.frame f) →
    ∃ t, exec (commandInstr c value p) s = .next t ∧ t.reply = .accepted ∧ t.fr = ⟨true, f⟩ ∧
      t.tx.cmd0 = (Config.cmdId c).1 ∧ t.tx.cmd1 = (Config.cmdId c).2 ∧ t.tx.payload = p ∧
      t.arb.holder = s.arb.holder ∧ t.arb.waiting (commandRequester c) = true ∧
      t.arb.waiting (otherRequester (commandRequester c)) = s.arb.waiting (otherRequester (commandRequester c)) ∧
      t.task (commandRequester c) = some ⟨c, f, .waiting⟩ ∧
      t.task (otherRequester (commandRequester c)) = s.task (otherRequester (commandRequester c)) ∧
      { t with cs := s.cs, tx := s.tx, fr := s.fr, arb := s.arb, taskPoll := s.taskPoll, taskCmd := s.taskCmd,
               reply := s.reply } = s

/-- A command in range that its requester cannot begin: with a payload above 255 bytes it fails in `BUILD` with
`PayloadTooLarge`, one event and one report; while its requester is engaged it is turned away with nothing changed but the
reply (the model's choice, Log 19). That a query is tried at once where `POLL` is at rest, ahead of the queries still to come,
is the model's choice too (Log 36). -/
def Obligations.CommandThatCannotBegin : Prop :=
  ∀ (c : Command) (value : Int) (p : List Byte) (s : State), commandInRange c value →
    (256 ≤ p.length → idleRequester (commandRequester c) s → exec (commandInstr c value p) s = .next { s with
      log := s.log ++ [.payloadTooLarge], reply := .error .payloadTooLarge,
      reports := s.reports ++ [.rejected c .payloadTooLarge] }) ∧
    (¬ idleRequester (commandRequester c) s → exec (commandInstr c value p) s = .next { s with reply := .refused })

/-- The whole transaction of a command on a free channel whose read window gives a capture: grant, `EXEC`, the five phases,
`RELEASE`. The channel receives exactly the wire bytes of the command's frame; the permit is free again and the requester at
rest; the report carries the outcome; and a set command is a success if and only if the capture, the bytes that waited and
then those of the window (Log 12), is `07 f3` alone (44_arbiter.md R190, R195, R197). The turns are the model's (Log 6, 7,
19), and so is when a query given as a word begins (Log 36). -/
def Obligations.CommandTransactionRuns : Prop :=
  ∀ (c : Command) (value : Int) (p f raw : List Byte) (s : State), commandInRange c value →
    p.length ≤ 255 → idleRequester (commandRequester c) s → s.arb.holder = none → s.txn.phase = .idle →
    s.arb.waiting (otherRequester (commandRequester c)) = false → nextWindow s = .captured raw →
    f = frameOf (Config.cmdId c).1 (Config.cmdId c).2 p →
    ∃ a t, exec (commandInstr c value p) s = .next a ∧
      Host.Core.run Sys2Proof.core 8 { a with schedule := [.grant, .requester (commandRequester c), .sequencer,
        .sequencer, .sequencer, .sequencer, .sequencer, .requester (commandRequester c)] } = .next t ∧
      t.ch.written = s.ch.written ++ wireBytes f ∧ t.arb = s.arb ∧ t.txn.phase = .idle ∧ t.txn.sent = f ∧
      t.txn.owner = commandRequester c ∧ idleRequester (commandRequester c) t ∧
      t.reports = s.reports ++ [.done c t.out] ∧
      (t.out.cls = .ack ↔ s.ch.arrived ++ raw = [0x07, 0xF3]) ∧
      ((∀ q, c ≠ .get q) → (Report.success (.done c t.out) = some true ↔ s.ch.arrived ++ raw = [0x07, 0xF3]))

/-- A transaction that runs into the ceiling is a failure, and the permit is released all the same (44_arbiter.md R185,
43_transaction.md R170). The ceiling may be named in `CH` or be a free draw. The turns are the model's (Log 6, 7, 19),
and so is when a query given as a word begins (Log 36). -/
def Obligations.PermitReleasedAfterTimeout : Prop :=
  ∀ (c : Command) (value : Int) (p : List Byte) (s : State), commandInRange c value →
    p.length ≤ 255 → idleRequester (commandRequester c) s → s.arb.holder = none → s.txn.phase = .idle →
    s.arb.waiting (otherRequester (commandRequester c)) = false → nextWindow s = .ceilingHit →
    ∃ a t, exec (commandInstr c value p) s = .next a ∧
      Host.Core.run Sys2Proof.core 6 { a with schedule := [.grant, .requester (commandRequester c), .sequencer,
        .sequencer, .sequencer, .requester (commandRequester c)] } = .next t ∧
      t.arb = s.arb ∧ t.txn.phase = .idle ∧ idleRequester (commandRequester c) t ∧
      t.out = ⟨.failure, [], some .channelTimeout, false⟩ ∧ t.log = s.log ++ [.channelTimeout] ∧
      t.reports = s.reports ++ [.done c t.out]

/-- The Poll Cycle takes one query at a time: `POLL` at rest begins the first query still to come, with no intervening
hold; while `POLL` is carrying out a transaction its turn begins no other query; and the poll period only adds the queries
of the next cycle behind those still to come (44_arbiter.md R195, R196; the backlog is the model's, Log 22). -/
def Obligations.PollCycleOneQueryAtATime : Prop :=
  ∀ (s : State) (rest : List Turn),
    (s.schedule = .requester .poll :: rest → ∀ q p qs, s.todo = (q, p) :: qs → idleRequester .poll s →
      step s = exec (q.instr p) { s with schedule := rest, todo := qs }) ∧
    (s.schedule = .requester .poll :: rest → s.task .poll ≠ none → ∀ t, step s = .next t → t.todo = s.todo) ∧
    (s.schedule = .timer :: rest → step s = .next { s with schedule := rest, todo := s.todo ++ Config.pollList })

/-! ## The whole machine -/

/-- The six pure operations write no state that the requesters share: the configuration, the capture, the transaction in
flight, its outcome, the permit, the channel and the requesters are as before (00_scope.md R11, 60_exceptions.md R216). Which
of the registers left open here each of them writes is said in the statements of their results. That a `VALIDATE` of its own
leaves the capture `RAW` alone is the model's reading (Log 14), that it may write `LOG` too (Log 16); the count of draws is the
model's own (Log 15). -/
def Obligations.PureOperationsShareNothing : Prop :=
  ∀ (s t : State) (i : Instr),
    (∃ bs, i = .csum bs) ∨ (∃ c p, i = .build c p) ∨ (∃ p, i = .esc p) ∨ (∃ f, i = .wire f) ∨ (∃ raw, i = .validate raw) ∨
      (∃ f n, i = .unesc f n) →
    exec i s = .next t →
    { t with cs := s.cs, tx := s.tx, fr := s.fr, txw := s.txw, rx := s.rx, log := s.log, reply := s.reply,
             draws := s.draws } = s

/-- Every step but a reset appends at most one event to `LOG` and removes none (60_exceptions.md R222). -/
def Obligations.AtMostOneEventPerStep : Prop :=
  ∀ s t : State, s.schedule.head? ≠ some .reset → step s = .next t → t.log = s.log ∨ ∃ k, t.log = s.log ++ [k]

/-- No step writes the configuration (10_state.md R36). -/
def Obligations.ConfigurationNeverWritten : Prop :=
  ∀ s t : State, step s = .next t → t.cfg = s.cfg

/-- The numeric codes of the failure kinds, 0 for none; codes 4, 5 and 7 never stand in `OUT.err` (60_exceptions.md R211). -/
def Obligations.FailureCodes : Prop :=
  errCode none = 0 ∧ errCode (some .incomplete) = 1 ∧ errCode (some .tooShort) = 2 ∧ errCode (some .malformedFrame) = 3 ∧
  errCode (some .indexOutOfRange) = 4 ∧ errCode (some .payloadTooLarge) = 5 ∧ errCode (some .channelTimeout) = 6 ∧
  errCode (some .outOfRange) = 7 ∧
  (∀ s t : State, Inv s → step s = .next t → errCode t.out.err ≠ 4 ∧ errCode t.out.err ≠ 5 ∧ errCode t.out.err ≠ 7)

/-- The machine right after reset: the values of 70_reset_and_hazards.md R240. -/
def Obligations.ResetValues : Prop :=
  State.reset.arb = ⟨none, false, false⟩ ∧ State.reset.txn.phase = .idle ∧ State.reset.txn.sent = [] ∧
  State.reset.out = ⟨.none, [], none, false⟩ ∧ State.reset.raw = [] ∧ State.reset.rx.f = [] ∧ State.reset.rx.oor = false ∧
  State.reset.fr.valid = false ∧ State.reset.txw = [] ∧ State.reset.log = []

/-- The reset event: the values of 70_reset_and_hazards.md R240, from every state; the configuration and the channel are
not reached (R242). That `CH`, which R242 calls unspecified after reset, and the turns still to come are kept as they stand
is the model's choice (Log 23). -/
def Obligations.ResetEventValues : Prop :=
  ∀ (s : State) (rest : List Turn), s.schedule = .reset :: rest → ∃ t, step s = .next t ∧
    t.arb = ⟨none, false, false⟩ ∧ t.txn.phase = .idle ∧ t.txn.sent = [] ∧ t.out = ⟨.none, [], none, false⟩ ∧
    t.raw = [] ∧ t.rx.f = [] ∧ t.rx.oor = false ∧ t.fr.valid = false ∧ t.txw = [] ∧ t.log = [] ∧
    t.ch = s.ch ∧ t.cfg = s.cfg ∧ t.schedule = rest

/-- The invariant holds right after reset. It asks nothing of the registers that R240 leaves unspecified: its clause about
`TX` speaks of a valid `FR` only, and `FR` is invalid. The clause about tasks is of the model's own fields (Log 19, 28). -/
def Obligations.InvariantAtReset : Prop := Inv State.reset

/-- Every step from a state that meets the invariant gives a state that meets it: the permit and the transaction agree,
waiting excludes holding, the frame in flight is a command frame, the capture does not outlive its transaction, a valid `FR`
holds the frame of the values in `TX`, the buffers keep their bounds, `OUT` is legal. That a task belongs to a requester that
waits or holds is of the model's own fields (Log 19). After a reset turn the clause about `TX` asks nothing, because `FR` is
invalid. -/
def Obligations.InvariantKeptByEveryStep : Prop :=
  ∀ s t : State, Inv s → step s = .next t → Inv t

/-- From a state that meets the invariant the machine always takes a step: no failure and no refused request stops the
block (60_exceptions.md R213). -/
def Obligations.MachineNeverStops : Prop :=
  ∀ s : State, Inv s → ∃ t, step s = .next t

/-! ## What completes -/

/-- `EXEC` by the holder of the permit with no transaction in flight and a command frame is accepted in every such state: the
transaction stands before its write, and nothing else changes but the reply (43_transaction.md R160, R168). That acceptance is
a step of its own, which stops before the write, is the model's reading (Log 7), and so is that the operand must be a command
frame (Log 13). -/
def Obligations.ExecAccepted : Prop :=
  ∀ (r : Requester) (f : List Byte) (s : State), s.arb.holder = some r → s.txn.phase = .idle → isFrame f = true →
    ∃ t, exec (.exec r f) s = .next t ∧ t.txn.phase = .write ∧ t.txn.owner = r ∧ t.txn.sent = f ∧ t.reply = .accepted ∧
      { t with txn := s.txn, reply := s.reply } = s

/-- Each command form by its name: given to its requester at rest, with a payload that fits and, for a set intent, a value
in range, it completes with the beginning of its transaction (30_encoding.md R86, R91; 44_arbiter.md R195, R197, R198; that
the beginning is one step is Log 19, and that a query begins ahead of those still to come is Log 36). -/
def Obligations.EachCommandCompletes : Prop :=
  ∀ (p : List Byte) (s : State), p.length ≤ 255 →
    (idleRequester .cmd s →
      (∀ v, Config.ventLevelMin ≤ v → v ≤ Config.ventLevelMax →
        ∃ t, exec (.setvent v p) s = .next t ∧ Begun .setVent p s t) ∧
      (∀ v, Config.comfortTempMin ≤ v → v ≤ Config.comfortTempMax →
        ∃ t, exec (.settemp v p) s = .next t ∧ Begun .setTemp p s t)) ∧
    (idleRequester .poll s →
      (∃ t, exec (.gettemp p) s = .next t ∧ Begun (.get .temp) p s t) ∧
      (∃ t, exec (.getvent p) s = .next t ∧ Begun (.get .vent) p s t) ∧
      (∃ t, exec (.getfan p) s = .next t ∧ Begun (.get .fan) p s t) ∧
      (∃ t, exec (.getfilt p) s = .next t ∧ Begun (.get .filt) p s t) ∧
      (∃ t, exec (.getvalve p) s = .next t ∧ Begun (.get .valve) p s t) ∧
      (∃ t, exec (.getbyp p) s = .next t ∧ Begun (.get .byp) p s t) ∧
      (∃ t, exec (.getpreh p) s = .next t ∧ Begun (.get .preh) p s t) ∧
      (∃ t, exec (.gethours p) s = .next t ∧ Begun (.get .hours) p s t) ∧
      (∃ t, exec (.getunit p) s = .next t ∧ Begun (.get .unit) p s t))

/-! ## The requesters between their turns -/

/-- The turn of a requester that is carrying out a command (44_arbiter.md R190; the turns and the task are the model's,
Log 6, 19). While it waits for its grant or for its result its turn does nothing. With the permit and no transaction in
flight its next turn issues `EXEC` of its own frame where it has not yet, and else reads `OUT`, gives the permit back and
reports. -/
def Obligations.RequesterTurnFollowsWithx : Prop :=
  ∀ (r : Requester) (k : Task) (s : State) (rest : List Turn), s.schedule = .requester r :: rest → s.task r = some k →
    isFrame k.frame = true →
    (s.arb.holder ≠ some r ∨ s.txn.phase ≠ .idle → step s = .next { s with schedule := rest }) ∧
    (s.arb.holder = some r → s.txn.phase = .idle → k.stage = .waiting → ∃ t, step s = .next t ∧
      t.txn.phase = .write ∧ t.txn.owner = r ∧ t.txn.sent = k.frame ∧
      t.task r = some ⟨k.command, k.frame, .running⟩ ∧ t.task (otherRequester r) = s.task (otherRequester r) ∧
      { t with txn := s.txn, taskPoll := s.taskPoll, taskCmd := s.taskCmd, schedule := s.schedule } = s) ∧
    (s.arb.holder = some r → s.txn.phase = .idle → k.stage = .running → ∃ t, step s = .next t ∧
      t.arb.holder = none ∧ (∀ q, t.arb.waiting q = s.arb.waiting q) ∧ t.task r = none ∧
      t.task (otherRequester r) = s.task (otherRequester r) ∧ t.reports = s.reports ++ [.done k.command s.out] ∧
      { t with arb := s.arb, taskPoll := s.taskPoll, taskCmd := s.taskCmd, reports := s.reports,
               schedule := s.schedule } = s)

/-- What a request of a requester that is carrying out a command makes of it (44_arbiter.md R186, R190; what is reported is
the model's choice, Log 35). After an accepted `CANCEL` the command is over and nothing is reported of it: whatever the
permit is afterwards, granted to the requester again included, the requester's turn neither issues `EXEC` nor gives the
permit back. An accepted `RELEASE` ends the command too: with a report of `OUT` where its `EXEC` had begun, with none where
it had not. -/
def Obligations.RequestsThatEndACommand : Prop :=
  ∀ (r : Requester) (s : State),
    (s.arb.waiting r = true → ∃ t, exec (.cancel r) s = .next t ∧ t.task r = none ∧ t.reports = s.reports ∧
      (∀ (a : Arb) (x : Txn) (rest : List Turn),
        ∃ u, step { t with arb := a, txn := x, schedule := .requester r :: rest } = .next u ∧ u.txn = x ∧
          u.arb.holder = a.holder)) ∧
    (s.arb.holder = some r → s.txn.phase = .idle → ∃ t, exec (.release r) s = .next t ∧ t.task r = none ∧
      (s.task r = none → t.reports = s.reports) ∧
      (∀ k, s.task r = some k → k.stage = .waiting → t.reports = s.reports) ∧
      (∀ k, s.task r = some k → k.stage = .running → t.reports = s.reports ++ [.done k.command s.out]))

/-! ## The outcome registers -/

/-- The numbers of `OUT.class`, and what stands beside them after every step from a state that meets the invariant:
`OUT.err` is 0 unless the class is FAILURE, `OUT.warn` is set with class DATA only, and the frame of class ACK is `07 f3`
(10_state.md R39). -/
def Obligations.OutcomeClassCodes : Prop :=
  OutClass.none.code = 0 ∧ OutClass.ack.code = 1 ∧ OutClass.data.code = 2 ∧ OutClass.failure.code = 3 ∧
  (∀ s t : State, Inv s → step s = .next t →
    (errCode t.out.err ≠ 0 ↔ t.out.cls.code = 3) ∧ (t.out.warn = true → t.out.cls.code = 2) ∧
    (t.out.cls.code = 1 → t.out.frame = [0x07, 0xF3]))
end

