-- ==== Sys2Proof/Laws/Codec.lean ====
section
/-! SUPPORT. What the codec's functions do: checksum, escaping, frames, the scan of `UNESC`, `VALIDATE`. -/

namespace Sys2Proof.Machine

/-! ### Checksum -/

theorem foldl_csStep_seen07 (bs : List Byte) (v : Byte) (b : Bool) :
    (bs.foldl csStep ⟨v, b⟩).seen07 = (b || decide (7#8 ∈ bs)) := by
  induction bs generalizing v b with
  | nil => simp
  | cons x t ih =>
    by_cases hx : x = 7#8
    · cases b <;> simp [csStep, hx, ih]
    · have : ¬ 7#8 = x := fun h => hx h.symm
      simp [csStep, hx, ih, this]

/-- The running sum after the bytes `bs`: every other value is added, and 7 once if no `0x07` had been counted. -/
theorem foldl_csStep_sum (bs : List Byte) (v : Byte) (b : Bool) :
    (bs.foldl csStep ⟨v, b⟩).sum = v + BitVec.ofNat 8
      (((bs.filter (· ≠ 7#8)).map BitVec.toNat).sum + if 7#8 ∈ bs ∧ b = false then 7 else 0) := by
  induction bs generalizing v b with
  | nil => simp
  | cons x t ih =>
    by_cases hx : x = 7#8
    · subst hx
      cases b
      · simp [csStep, ih, BitVec.ofNat_add]; bv_omega
      · simp [csStep, ih]
    · have hx' : ¬ 7#8 = x := fun h => hx h.symm
      simp [csStep, hx, ih, hx', BitVec.ofNat_add, BitVec.add_assoc]

/-! ### Escaping -/

@[simp] theorem esc_nil : esc [] = [] := rfl

theorem esc_cons (b : Byte) (t : List Byte) : esc (b :: t) = if b = 7#8 then b :: 7#8 :: esc t else b :: esc t := rfl

@[simp] theorem esc_reserved (t : List Byte) : esc (7#8 :: t) = 7#8 :: 7#8 :: esc t := by simp [esc_cons]

theorem esc_other (b : Byte) (t : List Byte) (h : b ≠ 7#8) : esc (b :: t) = b :: esc t := by simp [esc_cons, h]

theorem esc_append (a b : List Byte) : esc (a ++ b) = esc a ++ esc b := by
  induction a with
  | nil => simp
  | cons x t ih => by_cases hx : x = 7#8 <;> simp [esc_cons, hx, ih]

theorem esc_length (p : List Byte) : (esc p).length = p.length + p.count 7#8 := by
  induction p with
  | nil => simp
  | cons x t ih =>
    by_cases hx : x = 7#8
    · subst hx; simp [ih]; omega
    · simp [esc_other, hx, ih, List.count_cons_of_ne]; omega

/-- A payload without the reserved byte is its own escaped form. -/
theorem esc_eq_self (p : List Byte) (h : 7#8 ∉ p) : esc p = p := by
  induction p with
  | nil => rfl
  | cons x t ih =>
    rw [List.mem_cons, not_or] at h
    rw [esc_other x t (Ne.symm h.1), ih h.2]

theorem mem_esc (p : List Byte) : 7#8 ∈ esc p ↔ 7#8 ∈ p := by
  induction p with
  | nil => simp
  | cons x t ih => by_cases hx : x = 7#8 <;> simp [esc_cons, hx, ih]

theorem esc_filter (p : List Byte) : (esc p).filter (· ≠ 7#8) = p.filter (· ≠ 7#8) := by
  induction p with
  | nil => rfl
  | cons x t ih => by_cases hx : x = 7#8 <;> simp_all [esc_cons]

/-- Taking the logical bytes off an escaped payload gives the payload and leaves what follows it. -/
theorem takeEscaped_esc (p rest : List Byte) : takeEscaped p.length (esc p ++ rest) = some (p, rest) := by
  induction p with
  | nil => rfl
  | cons x t ih =>
    by_cases hx : x = 7#8
    · subst hx; simp [takeEscaped, ih]
    · simp [esc_other, hx, takeEscaped, ih]

/-- `takeEscaped` accepts nothing but an escaped payload of the length asked for. -/
theorem takeEscaped_eq_some (n : Nat) (bs p rest : List Byte) (h : takeEscaped n bs = some (p, rest)) :
    bs = esc p ++ rest ∧ p.length = n := by
  induction n generalizing bs p with
  | zero => simp only [takeEscaped, Option.some.injEq, Prod.mk.injEq] at h; obtain ⟨rfl, rfl⟩ := h; simp
  | succ n ih =>
    match bs with
    | [] => simp [takeEscaped] at h
    | b :: t =>
      by_cases hb : b = 7#8
      · subst hb
        match t with
        | [] => simp [takeEscaped] at h
        | c :: t' =>
          by_cases hc : c = 7#8
          · subst hc
            cases hr : takeEscaped n t' with
            | none => simp [takeEscaped, hr] at h
            | some pr =>
              obtain ⟨p', r'⟩ := pr
              simp [takeEscaped, hr] at h
              obtain ⟨rfl, rfl⟩ := h
              obtain ⟨h1, h2⟩ := ih t' p' hr
              simp [h1, h2]
          · simp [takeEscaped, hc] at h
      · cases hr : takeEscaped n t with
        | none => simp [takeEscaped, hr, hb] at h
        | some pr =>
          obtain ⟨p', r'⟩ := pr
          simp [takeEscaped, hr, hb] at h
          obtain ⟨rfl, rfl⟩ := h
          obtain ⟨h1, h2⟩ := ih t p' hr
          simp [h1, h2, esc_other, hb]

/-! ### Frames -/

@[simp] theorem lenByte_toNat (p : List Byte) (h : p.length ≤ 255) : (lenByte p).toNat = p.length := by
  simp [lenByte]; omega

theorem frameOf_length (c0 c1 : Byte) (p : List Byte) : (frameOf c0 c1 p).length = 8 + p.length := by
  simp [frameOf]; omega

/-- `WIRE` on a frame written as header, payload and trailer. -/
theorem wireBytes_parts (hd pl tl : List Byte) (h5 : hd.length = 5) (hl : hd[4]? = some (lenByte pl))
    (hp : pl.length ≤ 255) (h3 : tl.length = 3) :
    isFrame (hd ++ pl ++ tl) = true ∧ wireBytes (hd ++ pl ++ tl) = hd ++ esc pl ++ tl := by
  have hlen : lenTx (hd ++ pl ++ tl) = pl.length := by
    have : (hd ++ pl ++ tl)[4]? = some (lenByte pl) := by
      rw [List.append_assoc, List.getElem?_append_left (by omega), hl]
    simp only [lenTx, LEN_INDEX_TX, List.getD_eq_getElem?_getD, this, Option.getD_some, lenByte_toNat pl hp]
  refine ⟨by simp only [isFrame, hlen, FRAME_OVERHEAD_TX, List.length_append, h5, h3]; simp; omega, ?_⟩
  have h1 : headerTx (hd ++ pl ++ tl) = hd := by
    rw [headerTx, List.append_assoc, PAYLOAD_BASE_TX, ← h5, List.take_left]
  have h2 : payloadTx (hd ++ pl ++ tl) = pl := by
    rw [payloadTx, hlen, List.append_assoc, PAYLOAD_BASE_TX, ← h5, List.drop_left, List.take_left]
  have h4 : trailerTx (hd ++ pl ++ tl) = tl := by
    rw [trailerTx, hlen, PAYLOAD_BASE_TX, ← h5, ← List.length_append, List.drop_left, ← h3, List.take_length]
  rw [wireBytes, h1, h2, h4]

/-- A command frame is a header of five bytes that counts the payload, the payload, and a trailer of three bytes. -/
theorem isFrame_parts (f : List Byte) (h : isFrame f = true) :
    ∃ hd pl tl, f = hd ++ pl ++ tl ∧ hd.length = 5 ∧ hd[4]? = some (lenByte pl) ∧ pl.length ≤ 255 ∧ tl.length = 3 := by
  simp only [isFrame, Bool.and_eq_true, decide_eq_true_eq, FRAME_OVERHEAD_TX] at h
  obtain ⟨h8, hl⟩ := h
  have hlt : lenTx f < 256 := (f.getD LEN_INDEX_TX 0).isLt
  refine ⟨f.take 5, (f.drop 5).take (lenTx f), (f.drop 5).drop (lenTx f), ?_, ?_, ?_, ?_, ?_⟩
  · rw [List.append_assoc, List.take_append_drop, List.take_append_drop]
  · simp; omega
  · have h4 : 4 < f.length := by omega
    have hlen : ((f.drop 5).take (lenTx f)).length = lenTx f := by simp; omega
    simp only [lenByte, hlen, List.getElem?_take, show 4 < 5 by omega, if_true, List.getElem?_eq_getElem h4,
      Option.some.injEq]
    simp [lenTx, LEN_INDEX_TX, List.getD_eq_getElem?_getD, List.getElem?_eq_getElem h4]
  · simp; omega
  · simp; omega

theorem wireBytes_length (f : List Byte) (h : isFrame f = true) :
    8 ≤ (wireBytes f).length ∧ (wireBytes f).length ≤ 518 := by
  obtain ⟨hd, pl, tl, rfl, h5, hl, hp, h3⟩ := isFrame_parts f h
  rw [(wireBytes_parts hd pl tl h5 hl hp h3).2]
  have := List.count_le_length (a := 7#8) (l := pl)
  simp [esc_length, h5, h3]; omega

/-- A built frame is a command frame, and its wire form has the payload escaped. -/
theorem wireBytes_frameOf (c0 c1 : Byte) (p : List Byte) (h : p.length ≤ 255) :
    isFrame (frameOf c0 c1 p) = true ∧ wireBytes (frameOf c0 c1 p) =
      [START0, START1, c0, c1, lenByte p] ++ esc p ++ [csum (csumOperand c0 c1 p), END0, END1] :=
  wireBytes_parts _ _ _ rfl rfl h rfl

/-! ### The scan of UNESC -/

/-- The scan never lengthens the frame and deletes at most one byte an index. -/
theorem unescScan_length (k i : Nat) (f : List Byte) :
    (unescScan k i f).1.length ≤ f.length ∧ f.length ≤ (unescScan k i f).1.length + k := by
  induction k generalizing i f with
  | zero => simp [unescScan]
  | succ k ih =>
    unfold unescScan
    split
    · simp
    · split
      · split
        · simp
        · next hc =>
          split
          · have h1 := ih (i + 1) (delete f (i + 1))
            have h2 : (delete f (i + 1)).length = f.length - 1 := by
              have := (List.getElem?_eq_some_iff.mp hc).1
              simp [delete, List.length_eraseIdx, this]
            omega
          · have := ih (i + 1) f; omega
      · have := ih (i + 1) f; omega

/-- A scan that finds no pair leaves the frame as it is; it warns only where the frame ends before the scan does. -/
theorem unescScan_noPair (k i : Nat) (f : List Byte)
    (h : ∀ j, i ≤ j → j < i + k → ¬ (f[j]? = some 7#8 ∧ f[j + 1]? = some 7#8)) :
    (unescScan k i f).1 = f ∧ (i + k < f.length → (unescScan k i f).2.2 = false) ∧
      (i + k ≤ f.length → (∀ j, i ≤ j → j < i + k → f[j]? ≠ some 7#8) → (unescScan k i f).2.2 = false) := by
  induction k generalizing i with
  | zero => simp [unescScan]
  | succ k ih =>
    have hrec := ih (i + 1) (fun j h1 h2 => h j (by omega) (by omega))
    unfold unescScan
    split
    · next hn => simp only [List.getElem?_eq_none_iff] at hn; refine ⟨rfl, by omega, by omega⟩
    · next b hb =>
      split
      · next hbe =>
        subst hbe
        split
        · next hn =>
          simp only [List.getElem?_eq_none_iff] at hn
          exact ⟨rfl, by omega, fun _ hall => absurd hb (hall i (by omega) (by omega))⟩
        · next c hc =>
          have hcne : c ≠ ESCB := fun hce => h i (by omega) (by omega) ⟨hb, by rw [hc, hce]; rfl⟩
          rw [if_neg hcne]
          exact ⟨hrec.1, fun hl => hrec.2.1 (by omega), fun hl hall => absurd hb (hall i (by omega) (by omega))⟩
      · exact ⟨hrec.1, fun hl => hrec.2.1 (by omega),
          fun hl hall => hrec.2.2 (by omega) (fun j h1 h2 => hall j (by omega) (by omega))⟩

/-- A frame that ends in another byte than `0x07` keeps its last byte and at least `i + 2` bytes through a scan from `i`. -/
theorem unescScan_lower (k i : Nat) (f : List Byte) (hi : i + 2 ≤ f.length) (hl : f[f.length - 1]? ≠ some 7#8) :
    i + 2 ≤ (unescScan k i f).1.length := by
  suffices h : ∀ m, m ≤ i → m + 2 ≤ f.length → m + 2 ≤ (unescScan k i f).1.length from h i (Nat.le_refl _) hi
  intro m hm hmf
  clear hi
  induction k generalizing i f with
  | zero => simpa [unescScan] using hmf
  | succ k ih =>
    unfold unescScan
    split
    · exact hmf
    · split
      · split
        · exact hmf
        · next c hc =>
          split
          · next hce =>
            subst hce
            have hlt := (List.getElem?_eq_some_iff.mp hc).1
            have hne : i + 1 ≠ f.length - 1 := fun he => hl (he ▸ hc)
            have hlen : (delete f (i + 1)).length = f.length - 1 := by simp [delete, List.length_eraseIdx, hlt]
            refine ih (i + 1) _ ?_ (by omega) (by omega)
            rw [hlen, delete, List.getElem?_eraseIdx]
            rw [if_neg (by omega)]
            rwa [show f.length - 1 - 1 + 1 = f.length - 1 by omega]
          · exact ih (i + 1) f hl (by omega) hmf
      · exact ih (i + 1) f hl (by omega) hmf

/-- A scan over a run of pairs: `2m` bytes `0x07` from index `i` on become `m`, in `m` indices. -/
theorem unescScan_run (m k : Nat) (pre post : List Byte) :
    unescScan (m + k) pre.length (pre ++ List.replicate (2 * m) 7#8 ++ post) =
      unescScan k (pre.length + m) (pre ++ List.replicate m 7#8 ++ post) := by
  induction m generalizing pre with
  | zero => simp
  | succ m ih =>
    have e1 : pre ++ List.replicate (2 * (m + 1)) 7#8 ++ post =
        pre ++ (7#8 :: 7#8 :: (List.replicate (2 * m) 7#8 ++ post)) := by
      rw [show 2 * (m + 1) = 2 * m + 1 + 1 by omega]; simp [List.replicate_succ]
    have e2 : delete (pre ++ (7#8 :: 7#8 :: (List.replicate (2 * m) 7#8 ++ post))) (pre.length + 1) =
        (pre ++ [7#8]) ++ List.replicate (2 * m) 7#8 ++ post := by
      rw [delete, List.eraseIdx_append_of_length_le (by omega)]; simp
    have e3 : (pre ++ [7#8]) ++ List.replicate m 7#8 ++ post = pre ++ List.replicate (m + 1) 7#8 ++ post := by
      simp [List.replicate_succ]
    have := ih (pre ++ [7#8])
    rw [List.length_append, List.length_singleton] at this
    rw [e1, show m + 1 + k = (m + k) + 1 by omega, unescScan]
    simp only [List.getElem?_append_right (Nat.le_refl _), Nat.sub_self, List.getElem?_cons_zero,
      List.getElem?_append_right (show pre.length ≤ pre.length + 1 by omega), Nat.add_sub_cancel_left,
      List.getElem?_cons_succ]
    rw [if_pos (by decide), if_pos (by decide), e2, this, e3, show pre.length + 1 + m = pre.length + (m + 1) by omega]

/-- Where the scan stops: past its last index where it comes to its end, else at the index whose byte, or whose second byte,
is not there. -/
theorem unescScan_index (k i : Nat) (f : List Byte) :
    ((unescScan k i f).2.2 = false → (unescScan k i f).2.1 = i + k) ∧
    ((unescScan k i f).2.2 = true → i ≤ (unescScan k i f).2.1 ∧ (unescScan k i f).2.1 < i + k ∧
      (unescScan k i f).1.length ≤ (unescScan k i f).2.1 + 1) := by
  induction k generalizing i f with
  | zero => simp [unescScan]
  | succ k ih =>
    have hrec : ∀ g, ((unescScan k (i + 1) g).2.2 = false → (unescScan k (i + 1) g).2.1 = i + (k + 1)) ∧
        ((unescScan k (i + 1) g).2.2 = true → i ≤ (unescScan k (i + 1) g).2.1 ∧
          (unescScan k (i + 1) g).2.1 < i + (k + 1) ∧
          (unescScan k (i + 1) g).1.length ≤ (unescScan k (i + 1) g).2.1 + 1) := fun g =>
      ⟨fun h => by have := (ih (i + 1) g).1 h; omega, fun h => by have := (ih (i + 1) g).2 h; omega⟩
    unfold unescScan
    split
    · next hn => simp only [List.getElem?_eq_none_iff] at hn; simp; omega
    · split
      · split
        · next hn => simp only [List.getElem?_eq_none_iff] at hn; simp; omega
        · split <;> exact hrec _
      · exact hrec _

/-- A scan that comes to its end has found the byte of its last index there. -/
theorem unescScan_reach (k i : Nat) (f : List Byte) (h : (unescScan (k + 1) i f).2.2 = false) :
    i + (k + 1) ≤ (unescScan (k + 1) i f).1.length := by
  induction k generalizing i f with
  | zero =>
    unfold unescScan at h ⊢
    split at h
    · cases h
    · next b hb =>
      have := (List.getElem?_eq_some_iff.mp hb).1
      split at h
      · next hbe =>
        rw [if_pos hbe]
        split at h
        · cases h
        · next c hc =>
          have hlt := (List.getElem?_eq_some_iff.mp hc).1
          split
          · simp only [unescScan, delete, List.length_eraseIdx, hlt, if_true]; omega
          · simp only [unescScan]; omega
      · next hbe => rw [if_neg hbe]; simp only [unescScan]; omega
  | succ k ih =>
    have hrec : ∀ g, (unescScan (k + 1) (i + 1) g).2.2 = false →
        i + (k + 1 + 1) ≤ (unescScan (k + 1) (i + 1) g).1.length := fun g hg => by have := ih (i + 1) g hg; omega
    rw [unescScan] at h ⊢
    split at h
    · cases h
    · next b hb =>
      split at h
      · next hbe =>
        split at h
        · cases h
        · next c hc =>
          rw [if_pos hbe]
          split at h
          · next hce => simp only [if_pos hce]; exact hrec _ h
          · next hce => simp only [if_neg hce]; exact hrec _ h
      · next hbe => rw [if_neg hbe]; exact hrec _ h

/-- A scan of one index more is the scan, and where it came to its end one index behind it. -/
theorem unescScan_last (k i : Nat) (f : List Byte) :
    unescScan (k + 1) i f = if (unescScan k i f).2.2 then unescScan k i f else unescScan 1 (i + k) (unescScan k i f).1 := by
  induction k generalizing i f with
  | zero => rfl
  | succ k ih =>
    have hrec : ∀ g, unescScan (k + 1) (i + 1) g = if (unescScan k (i + 1) g).2.2 then unescScan k (i + 1) g
        else unescScan 1 (i + (k + 1)) (unescScan k (i + 1) g).1 := fun g => by
      rw [ih (i + 1) g, show i + 1 + k = i + (k + 1) by omega]
    rw [unescScan.eq_2 i f (k + 1), unescScan.eq_2 i f k]
    split
    · rfl
    · split
      · split
        · rfl
        · split <;> exact hrec _
      · exact hrec _

/-- The scan looks at nothing before the index it starts from. -/
theorem unescScan_prefix (k j : Nat) (pre f : List Byte) :
    unescScan k (pre.length + j) (pre ++ f) =
      (pre ++ (unescScan k j f).1, pre.length + (unescScan k j f).2.1, (unescScan k j f).2.2) := by
  induction k generalizing j f with
  | zero => simp [unescScan]
  | succ k ih =>
    have h0 : (pre ++ f)[pre.length + j]? = f[j]? := by
      rw [List.getElem?_append_right (by omega), Nat.add_sub_cancel_left]
    have h1 : (pre ++ f)[pre.length + j + 1]? = f[j + 1]? := by
      rw [List.getElem?_append_right (by omega), show pre.length + j + 1 - pre.length = j + 1 by omega]
    have hd : delete (pre ++ f) (pre.length + j + 1) = pre ++ delete f (j + 1) := by
      rw [delete, List.eraseIdx_append_of_length_le (by omega), show pre.length + j + 1 - pre.length = j + 1 by omega]
      rfl
    have hrec : ∀ g, unescScan k (pre.length + j + 1) (pre ++ g) = _ := fun g => ih (j + 1) g
    rw [unescScan, unescScan, h0]
    split
    · rfl
    · next b hb =>
      split
      · rw [h1]
        split
        · rfl
        · next c hc =>
          split
          · rw [hd]; exact hrec _
          · exact hrec _
      · exact hrec _

/-- A scan goes over `m` indices that end in another byte than `0x07` and hold no pair as if it started behind them. -/
theorem unescScan_skip (m k i : Nat) (f : List Byte) (hl : i + m ≤ f.length)
    (he : 0 < m → f[i + m - 1]? ≠ some 7#8)
    (h : ∀ j, i ≤ j → j < i + m → ¬ (f[j]? = some 7#8 ∧ f[j + 1]? = some 7#8)) :
    unescScan (m + k) i f = unescScan k (i + m) f := by
  induction m generalizing i with
  | zero => simp
  | succ m ih =>
    have hrec : unescScan (m + k) (i + 1) f = unescScan k (i + (m + 1)) f := by
      rw [ih (i + 1) (by omega) (fun _ => by rw [show i + 1 + m - 1 = i + (m + 1) - 1 by omega]; exact he (by omega))
        (fun j h1 h2 => h j (by omega) (by omega)), Nat.add_right_comm]; rfl
    have hi : i < f.length := by omega
    rw [show m + 1 + k = (m + k) + 1 by omega, unescScan, List.getElem?_eq_getElem hi]
    have hb' : f[i]? = some f[i] := List.getElem?_eq_getElem hi
    split
    · next hc => cases hc
    · next b hb =>
      cases hb
      split
      · next hbe =>
        rw [hbe] at hb'
        split
        · next hn =>
          simp only [List.getElem?_eq_none_iff] at hn
          exact absurd hb' (by have := he (by omega); rwa [show i + (m + 1) - 1 = i by omega] at this)
        · next c hc =>
          rw [if_neg (fun hce => h i (by omega) (by omega) ⟨hb', by rw [hc, hce]; rfl⟩)]
          exact hrec
      · exact hrec

/-! ### VALIDATE -/

/-- The six comparisons of step 5 as two pieces of the kept part. -/
theorem markersMatch_iff (f : List Byte) (h : 10 ≤ f.length) : markersMatch f = true ↔ marked f := by
  have hd : f.drop (f.length - 2) = [f[f.length - 2]'(by omega), f[f.length - 1]'(by omega)] := by
    rw [List.drop_eq_getElem_cons (by omega), List.drop_eq_getElem_cons (by omega)]
    simp only [show f.length - 2 + 1 = f.length - 1 by omega, show f.length - 1 + 1 = f.length by omega, List.drop_length]
  have ht : f.take 4 = [f[0], f[1], f[2], f[3]] := by
    match f, h with
    | _ :: _ :: _ :: _ :: _, _ => simp
  simp only [markersMatch, marked, hd, ht]
  rw [List.getElem?_eq_getElem (show 0 < f.length by omega), List.getElem?_eq_getElem (show 1 < f.length by omega),
    List.getElem?_eq_getElem (show 2 < f.length by omega), List.getElem?_eq_getElem (show 3 < f.length by omega),
    List.getElem?_eq_getElem (show f.length - 2 < f.length by omega),
    List.getElem?_eq_getElem (show f.length - 1 < f.length by omega)]
  simp
  tauto

theorem lenRx_lt (raw : List Byte) : (lenRx raw).toNat < 256 := (lenRx raw).isLt

theorem keptPart_length (raw : List Byte) (h : 10 ≤ raw.length) :
    10 ≤ (keptPart raw).length ∧ (keptPart raw).length ≤ 265 := by
  have := lenRx_lt raw
  simp only [keptPart, FRAME_OVERHEAD_RX, List.length_take]; omega

theorem keptPart_eq_kept (raw : List Byte) : keptPart raw = kept raw := rfl

/-- What `VALIDATE` answers, case by case. -/
theorem validate_cases (raw : List Byte) :
    (raw.length ≤ 1 ∧ validate raw = .err .incomplete) ∨
    (raw = ackBytes ∧ validate raw = .ok ackBytes false) ∨
    (2 ≤ raw.length ∧ raw.length < 10 ∧ raw ≠ ackBytes ∧ validate raw = .err .tooShort) ∨
    (10 ≤ raw.length ∧ ¬ marked (kept raw) ∧ validate raw = .err .malformedFrame) ∨
    (10 ≤ raw.length ∧ marked (kept raw) ∧
      validate raw = .ok (unesc (kept raw) (lenRx raw)).1 (unesc (kept raw) (lenRx raw)).2.2) := by
  by_cases h1 : raw.length ≤ 1
  · exact .inl ⟨h1, by simp [validate, h1]⟩
  by_cases h2 : raw = ackBytes
  · exact .inr (.inl ⟨h2, by subst h2; rfl⟩)
  by_cases h3 : raw.length < 10
  · exact .inr (.inr (.inl ⟨by omega, h3, h2, by simp [validate, h1, h2, h3]⟩))
  have hm := markersMatch_iff (keptPart raw) (keptPart_length raw (by omega)).1
  by_cases h4 : markersMatch (keptPart raw) = true
  · exact .inr (.inr (.inr (.inr ⟨by omega, hm.mp h4, by simp [validate, h1, h2, h3, ← keptPart_eq_kept, h4]⟩)))
  · exact .inr (.inr (.inr (.inl ⟨by omega, fun h => h4 (hm.mpr h), by simp [validate, h1, h2, h3, h4]⟩)))

/-- An accepted frame is the acknowledgment of an acknowledgment, or has 9 to 265 bytes. -/
theorem validate_ok_length (raw f : List Byte) (oor : Bool) (h : validate raw = .ok f oor) :
    (raw = ackBytes ∧ f = ackBytes ∧ oor = false) ∨ (raw ≠ ackBytes ∧ 9 ≤ f.length ∧ f.length ≤ 265) := by
  rcases validate_cases raw with ⟨_, hv⟩ | ⟨hr, hv⟩ | ⟨_, _, _, hv⟩ | ⟨_, _, hv⟩ | ⟨h10, hm, hv⟩ <;> rw [hv] at h
  · cases h
  · cases h; exact .inl ⟨hr, rfl, rfl⟩
  · cases h
  · cases h
  · cases h
    refine .inr ⟨fun he => by subst he; simp at h10, ?_⟩
    have hk := keptPart_length raw h10
    rw [keptPart_eq_kept] at hk
    have hlast : (kept raw)[(kept raw).length - 1]? ≠ some 7#8 := by
      have := (markersMatch_iff _ hk.1).mpr hm
      simp only [markersMatch, Bool.and_eq_true, beq_iff_eq] at this
      rw [this.2]; decide
    have h1 := unescScan_lower ((lenRx raw).toNat - 1) 7 (kept raw) (by omega) hlast
    have h2 := unescScan_length ((lenRx raw).toNat - 1) 7 (kept raw)
    simp only [unesc, PAYLOAD_BASE_RX]
    omega

/-- The kinds `VALIDATE` can fail with. -/
theorem validate_err_kind (raw : List Byte) (k : Kind) (h : validate raw = .err k) :
    k = .incomplete ∨ k = .tooShort ∨ k = .malformedFrame := by
  rcases validate_cases raw with ⟨_, hv⟩ | ⟨_, hv⟩ | ⟨_, _, _, hv⟩ | ⟨_, _, hv⟩ | ⟨_, _, hv⟩ <;> rw [hv] at h <;>
    cases h <;> simp

/-- The outcome of a capture is a legal content of `OUT`. -/
theorem outLegal_classify (raw : List Byte) : outLegal (classify (validate raw)).out := by
  cases hv : validate raw with
  | err k =>
    rcases validate_err_kind raw k hv with rfl | rfl | rfl
    · exact ⟨rfl, rfl, .inl rfl⟩
    · exact ⟨rfl, rfl, .inr (.inl rfl)⟩
    · exact ⟨rfl, rfl, .inr (.inr (.inl rfl))⟩
  | ok f oor =>
    rw [classify]
    split
    · exact rfl
    · next hf =>
      rcases validate_ok_length raw f oor hv with ⟨_, h, _⟩ | ⟨_, h1, h2⟩
      · exact absurd h hf
      · exact ⟨h1, h2, rfl⟩

/-- A capture is classified as `Ack` exactly where it is the acknowledgment. -/
theorem classify_ack_iff (raw : List Byte) : (classify (validate raw)).out.cls = .ack ↔ raw = ackBytes := by
  cases hv : validate raw with
  | err k => exact ⟨fun h => (by cases h), fun h => (by rw [h] at hv; cases hv)⟩
  | ok f oor =>
    rw [classify]
    rcases validate_ok_length raw f oor hv with ⟨h1, h2, _⟩ | ⟨h1, h2, _⟩
    · rw [if_pos h2]; exact ⟨fun _ => h1, fun _ => rfl⟩
    · rw [if_neg (fun h => by rw [h] at h2; simp at h2)]
      exact ⟨fun h => (by cases h), fun h => absurd h h1⟩

/-- `RX.F` stays within its 265 bytes. -/
theorem rxValidate_length (raw : List Byte) (rx : Rx) (h : rx.f.length ≤ 265) : (rxValidate raw rx).f.length ≤ 265 := by
  unfold rxValidate
  split
  · exact h
  · next h10 =>
    have hk := keptPart_length raw (by omega)
    have hu := unescScan_length ((lenRx raw).toNat - 1) 7 (keptPart raw)
    simp only []
    split
    · simp only [unesc, PAYLOAD_BASE_RX]; omega
    · exact hk.2

theorem rxUnesc_length (f : List Byte) (n : Byte) (d : Nat) (rx : Rx) : (rxUnesc f n d rx).f.length ≤ 265 := by
  have hu := unescScan_length (n.toNat - 1) 7 f
  simp only [rxUnesc, unesc, PAYLOAD_BASE_RX, fitsRx, decide_eq_true_eq]
  split
  · omega
  · simp only [List.length_take]; omega

end Sys2Proof.Machine
end

