-- ==== Sys2Proof/Laws/Decode.lean ====
section
/-! SUPPORT. The pieces of a word, each with its two directions: what the encoder writes the decoder reads back, and what
the decoder reads is what the encoder writes. -/

namespace Sys2Proof

open Sys2Proof.Machine

/-! ### Lengths and sequences -/

theorem encodeLength_step (n : Nat) : encodeLength (n + 255) = 0xFF :: encodeLength n := by
  rw [encodeLength, encodeLength, Nat.add_div_right n (by omega), Nat.add_mod_right, List.replicate_succ, List.cons_append]

theorem encodeLength_small (n : Nat) (h : n < 255) : encodeLength n = [BitVec.ofNat 8 n] := by
  simp [encodeLength, Nat.div_eq_of_lt h, Nat.mod_eq_of_lt h]

theorem decodeLength_encodeLength (n : Nat) (rest : List Byte) :
    decodeLength (encodeLength n ++ rest) = some (n, rest) := by
  induction n using Nat.strongRecOn with
  | ind n ih =>
    by_cases h : n < 255
    · have hne : BitVec.ofNat 8 n ≠ 0xFF := fun he => by
        have := congrArg BitVec.toNat he
        simp at this
        omega
      rw [encodeLength_small n h, List.singleton_append, decodeLength, if_neg hne]
      simp
      omega
    · obtain ⟨m, rfl⟩ : ∃ m, n = m + 255 := ⟨n - 255, by omega⟩
      rw [encodeLength_step, List.cons_append, decodeLength, if_pos rfl, ih m (by omega)]

theorem decodeLength_eq_some (bytes : List Byte) (n : Nat) (rest : List Byte) (h : decodeLength bytes = some (n, rest)) :
    bytes = encodeLength n ++ rest := by
  induction bytes generalizing n with
  | nil => simp [decodeLength] at h
  | cons b t ih =>
    unfold decodeLength at h
    split at h
    · next hb =>
      split at h
      · next m r hr =>
        simp only [Option.some.injEq, Prod.mk.injEq] at h
        obtain ⟨rfl, rfl⟩ := h
        rw [hb, encodeLength_step, List.cons_append, ← ih m hr]
      · cases h
    · next hb =>
      simp only [Option.some.injEq, Prod.mk.injEq] at h
      obtain ⟨rfl, rfl⟩ := h
      have : b.toNat ≠ 255 := fun he => hb (BitVec.eq_of_toNat_eq he)
      have := b.isLt
      rw [encodeLength_small b.toNat (by omega)]
      simp

theorem decodeSequence_encodeSequence (bs : List Byte) : decodeSequence (encodeSequence bs) = .ok bs := by
  simp [decodeSequence, encodeSequence, decodeLength_encodeLength]

theorem decodeSequence_eq_ok (bytes bs : List Byte) (h : decodeSequence bytes = .ok bs) : bytes = encodeSequence bs := by
  unfold decodeSequence at h
  split at h
  · cases h
  · next n rest hr =>
    split at h
    · cases h
    · split at h
      · cases h
      · cases h
        rw [decodeLength_eq_some bytes n bs hr, encodeSequence, show n = bs.length by omega]

/-! ### The trailing bytes of a frame on the line -/

theorem splitLast3_append (p : List Byte) (a b c : Byte) : splitLast3 (p ++ [a, b, c]) = some (p, a, b, c) := by
  have : (p ++ [a, b, c]).length - 3 = p.length := by simp
  simp [splitLast3]

theorem splitLast3_eq_some (bytes p : List Byte) (a b c : Byte) (h : splitLast3 bytes = some (p, a, b, c)) :
    bytes = p ++ [a, b, c] := by
  unfold splitLast3 at h
  split at h
  · next x y z hd =>
    simp only [Option.some.injEq, Prod.mk.injEq] at h
    obtain ⟨rfl, rfl, rfl, rfl⟩ := h
    rw [← hd, List.take_append_drop]
  · cases h

theorem splitLast2_append (p : List Byte) (a b : Byte) : splitLast2 (p ++ [a, b]) = some (p, a, b) := by
  simp [splitLast2]

theorem splitLast2_eq_some (bytes p : List Byte) (a b : Byte) (h : splitLast2 bytes = some (p, a, b)) :
    bytes = p ++ [a, b] := by
  unfold splitLast2 at h
  split at h
  · next x y hd =>
    simp only [Option.some.injEq, Prod.mk.injEq] at h
    obtain ⟨rfl, rfl, rfl⟩ := h
    rw [← hd, List.take_append_drop]
  · cases h

/-! ### The word of a command -/

theorem commandWire_eq (id : Byte × Byte) (p : List Byte) (h : p.length ≤ 255) : commandWire id p =
    [START0, START1, id.1, id.2, lenByte p] ++ esc p ++ [csum (csumOperand id.1 id.2 p), END0, END1] :=
  (wireBytes_frameOf id.1 id.2 p h).2

theorem decodeCommandFrame_commandWire (id : Byte × Byte) (p : List Byte) (h : p.length ≤ 255) :
    decodeCommandFrame (commandWire id p) = some (id.1, id.2, p) := by
  rw [commandWire_eq id p h]
  simp [decodeCommandFrame, lenByte_toNat p h, takeEscaped_esc]

theorem decodeCommandFrame_eq_some (bytes p : List Byte) (c0 c1 : Byte)
    (h : decodeCommandFrame bytes = some (c0, c1, p)) : bytes = commandWire (c0, c1) p ∧ p.length ≤ 255 := by
  unfold decodeCommandFrame at h
  split at h
  · next b0 b1 x0 x1 len t =>
    split at h
    · next hs =>
      split at h
      · next q rest hq =>
        split at h
        · next hr =>
          simp only [Option.some.injEq, Prod.mk.injEq] at h
          obtain ⟨rfl, rfl, rfl⟩ := h
          obtain ⟨h1, h2⟩ := takeEscaped_eq_some _ _ _ _ hq
          have hlt := len.isLt
          have hlen : lenByte q = len := by rw [lenByte, h2]; simp
          refine ⟨?_, by omega⟩
          rw [commandWire_eq _ q (by omega), hs.1, hs.2, h1, hr, hlen]
          rfl
        · cases h
      · cases h
    · cases h
  · cases h

/-- Looking a query up by its command id finds it, where the ids differ. -/
theorem find_query (ids : Command → Byte × Byte) (hi : Function.Injective ids) (q : Query) :
    queries.find? (fun x => ids (.get x) = ids (.get q)) = some q := by
  have : ∀ x : Query, (ids (.get x) = ids (.get q)) ↔ x = q :=
    fun x => ⟨fun h => by simpa using hi h, fun h => by rw [h]⟩
  simp only [this]
  cases q <;> rfl

end Sys2Proof
end

