-- ==== Sys2Proof/Laws/PerInstr.lean ====
section
/-! SUPPORT. The leading bits of each instruction's word, as spec/opcode_table.json gives them, constructor by constructor. -/

namespace Sys2Proof.Laws.Opcode

open Sys2Proof Sys2Proof.Machine

/-- The word of a request has the select code `op` in bits 3:0 of its first byte (30_encoding.md R88). -/
def requestWord (op : Nat) (w : PortWord) : Prop := w.source = .request ∧ ∃ h t, w.bytes = h :: t ∧ h.toNat % 16 = op

/-- The word of a command enters at `source` and is a command frame with command id `id` (30_encoding.md R72, R86). -/
def commandWord (source : Source) (id : Byte × Byte) (w : PortWord) : Prop :=
  w.source = source ∧ w.bytes.take 4 = [0x07, 0xF0, id.1, id.2]

/-- Whatever the command ids, the word of the instruction begins as its row of the opcode table says. -/
def Statement (i : Instr) : Prop :=
  ∀ ids : Command → Byte × Byte,
    match i with
    | .csum _ => requestWord 1 (encodeWith ids i)
    | .build _ _ => requestWord 2 (encodeWith ids i)
    | .esc _ => requestWord 3 (encodeWith ids i)
    | .wire _ => requestWord 4 (encodeWith ids i)
    | .validate _ => requestWord 5 (encodeWith ids i)
    | .unesc _ _ => requestWord 6 (encodeWith ids i)
    | .exec _ _ => requestWord 7 (encodeWith ids i)
    | .acquire _ => requestWord 8 (encodeWith ids i)
    | .release _ => requestWord 9 (encodeWith ids i)
    | .cancel _ => requestWord 10 (encodeWith ids i)
    | .cw _ _ _ _ _ _ _ => (encodeWith ids i).source = .write ∧ (encodeWith ids i).bytes.take 2 = [0x07, 0xF0]
    | .ak => encodeWith ids i = ⟨.line, [0x07, 0xF3]⟩
    | .rf _ _ _ _ _ _ =>
      (encodeWith ids i).source = .line ∧ (encodeWith ids i).bytes.take 4 = [0x07, 0xF3, 0x07, 0xF0]
    | .setvent v _ => commandWord (.intent v) (ids .setVent) (encodeWith ids i)
    | .settemp v _ => commandWord (.intent v) (ids .setTemp) (encodeWith ids i)
    | .gettemp _ => commandWord .query (ids (.get .temp)) (encodeWith ids i)
    | .getvent _ => commandWord .query (ids (.get .vent)) (encodeWith ids i)
    | .getfan _ => commandWord .query (ids (.get .fan)) (encodeWith ids i)
    | .getfilt _ => commandWord .query (ids (.get .filt)) (encodeWith ids i)
    | .getvalve _ => commandWord .query (ids (.get .valve)) (encodeWith ids i)
    | .getbyp _ => commandWord .query (ids (.get .byp)) (encodeWith ids i)
    | .getpreh _ => commandWord .query (ids (.get .preh)) (encodeWith ids i)
    | .gethours _ => commandWord .query (ids (.get .hours)) (encodeWith ids i)
    | .getunit _ => commandWord .query (ids (.get .unit)) (encodeWith ids i)

theorem commandWire_take (id : Byte × Byte) (p : List Byte) : (commandWire id p).take 4 = [0x07, 0xF0, id.1, id.2] := rfl

theorem csum (bs : List Byte) : Statement (.csum bs) := fun _ => ⟨rfl, _, _, rfl, rfl⟩

theorem build (c p : List Byte) : Statement (.build c p) := fun _ => ⟨rfl, _, _, rfl, rfl⟩

theorem esc (p : List Byte) : Statement (.esc p) := fun _ => ⟨rfl, _, _, rfl, rfl⟩

theorem wire (f : List Byte) : Statement (.wire f) := fun _ => ⟨rfl, _, _, rfl, rfl⟩

theorem validate (raw : List Byte) : Statement (.validate raw) := fun _ => ⟨rfl, _, _, rfl, rfl⟩

theorem unesc (f : List Byte) (n : Byte) : Statement (.unesc f n) := fun _ => ⟨rfl, _, _, rfl, rfl⟩

theorem exec (r : Requester) (f : List Byte) : Statement (.exec r f) := fun _ => ⟨rfl, _, _, rfl, by cases r <;> rfl⟩

theorem acquire (r : Requester) : Statement (.acquire r) := fun _ => ⟨rfl, _, _, rfl, by cases r <;> rfl⟩

theorem release (r : Requester) : Statement (.release r) := fun _ => ⟨rfl, _, _, rfl, by cases r <;> rfl⟩

theorem cancel (r : Requester) : Statement (.cancel r) := fun _ => ⟨rfl, _, _, rfl, by cases r <;> rfl⟩

theorem cw (c0 c1 len : Byte) (wp : List Byte) (k e0 e1 : Byte) : Statement (.cw c0 c1 len wp k e0 e1) :=
  fun _ => ⟨rfl, rfl⟩

theorem ak : Statement .ak := fun _ => rfl

theorem rf (c0 c1 len : Byte) (body : List Byte) (e0 e1 : Byte) : Statement (.rf c0 c1 len body e0 e1) :=
  fun _ => ⟨rfl, rfl⟩

theorem setvent (v : Int) (p : List Byte) : Statement (.setvent v p) := fun _ => ⟨rfl, commandWire_take _ p⟩

theorem settemp (v : Int) (p : List Byte) : Statement (.settemp v p) := fun _ => ⟨rfl, commandWire_take _ p⟩

theorem gettemp (p : List Byte) : Statement (.gettemp p) := fun _ => ⟨rfl, commandWire_take _ p⟩

theorem getvent (p : List Byte) : Statement (.getvent p) := fun _ => ⟨rfl, commandWire_take _ p⟩

theorem getfan (p : List Byte) : Statement (.getfan p) := fun _ => ⟨rfl, commandWire_take _ p⟩

theorem getfilt (p : List Byte) : Statement (.getfilt p) := fun _ => ⟨rfl, commandWire_take _ p⟩

theorem getvalve (p : List Byte) : Statement (.getvalve p) := fun _ => ⟨rfl, commandWire_take _ p⟩

theorem getbyp (p : List Byte) : Statement (.getbyp p) := fun _ => ⟨rfl, commandWire_take _ p⟩

theorem getpreh (p : List Byte) : Statement (.getpreh p) := fun _ => ⟨rfl, commandWire_take _ p⟩

theorem gethours (p : List Byte) : Statement (.gethours p) := fun _ => ⟨rfl, commandWire_take _ p⟩

theorem getunit (p : List Byte) : Statement (.getunit p) := fun _ => ⟨rfl, commandWire_take _ p⟩

end Sys2Proof.Laws.Opcode
end

