-- ==== Sys2Proof/Laws/State.lean ====
section
/-! SUPPORT. One lemma per field per update of the state, and the small lemmas of the requesters' accessors. -/

namespace Sys2Proof.Machine

variable (s : State)

/-! ### answer -/

@[simp] theorem answer_cfg (r : Reply) : (answer r s).cfg = s.cfg := rfl
@[simp] theorem answer_cs (r : Reply) : (answer r s).cs = s.cs := rfl
@[simp] theorem answer_tx (r : Reply) : (answer r s).tx = s.tx := rfl
@[simp] theorem answer_fr (r : Reply) : (answer r s).fr = s.fr := rfl
@[simp] theorem answer_txw (r : Reply) : (answer r s).txw = s.txw := rfl
@[simp] theorem answer_raw (r : Reply) : (answer r s).raw = s.raw := rfl
@[simp] theorem answer_rx (r : Reply) : (answer r s).rx = s.rx := rfl
@[simp] theorem answer_txn (r : Reply) : (answer r s).txn = s.txn := rfl
@[simp] theorem answer_out (r : Reply) : (answer r s).out = s.out := rfl
@[simp] theorem answer_arb (r : Reply) : (answer r s).arb = s.arb := rfl
@[simp] theorem answer_ch (r : Reply) : (answer r s).ch = s.ch := rfl
@[simp] theorem answer_log (r : Reply) : (answer r s).log = s.log := rfl
@[simp] theorem answer_schedule (r : Reply) : (answer r s).schedule = s.schedule := rfl
@[simp] theorem answer_reply (r : Reply) : (answer r s).reply = r := rfl
@[simp] theorem answer_taskPoll (r : Reply) : (answer r s).taskPoll = s.taskPoll := rfl
@[simp] theorem answer_taskCmd (r : Reply) : (answer r s).taskCmd = s.taskCmd := rfl
@[simp] theorem answer_todo (r : Reply) : (answer r s).todo = s.todo := rfl
@[simp] theorem answer_reports (r : Reply) : (answer r s).reports = s.reports := rfl
@[simp] theorem answer_draws (r : Reply) : (answer r s).draws = s.draws := rfl

/-! ### logEvents -/

@[simp] theorem logEvents_cfg (ks : List Kind) : (logEvents ks s).cfg = s.cfg := rfl
@[simp] theorem logEvents_cs (ks : List Kind) : (logEvents ks s).cs = s.cs := rfl
@[simp] theorem logEvents_tx (ks : List Kind) : (logEvents ks s).tx = s.tx := rfl
@[simp] theorem logEvents_fr (ks : List Kind) : (logEvents ks s).fr = s.fr := rfl
@[simp] theorem logEvents_txw (ks : List Kind) : (logEvents ks s).txw = s.txw := rfl
@[simp] theorem logEvents_raw (ks : List Kind) : (logEvents ks s).raw = s.raw := rfl
@[simp] theorem logEvents_rx (ks : List Kind) : (logEvents ks s).rx = s.rx := rfl
@[simp] theorem logEvents_txn (ks : List Kind) : (logEvents ks s).txn = s.txn := rfl
@[simp] theorem logEvents_out (ks : List Kind) : (logEvents ks s).out = s.out := rfl
@[simp] theorem logEvents_arb (ks : List Kind) : (logEvents ks s).arb = s.arb := rfl
@[simp] theorem logEvents_ch (ks : List Kind) : (logEvents ks s).ch = s.ch := rfl
@[simp] theorem logEvents_log (ks : List Kind) : (logEvents ks s).log = s.log ++ ks := rfl
@[simp] theorem logEvents_schedule (ks : List Kind) : (logEvents ks s).schedule = s.schedule := rfl
@[simp] theorem logEvents_reply (ks : List Kind) : (logEvents ks s).reply = s.reply := rfl
@[simp] theorem logEvents_taskPoll (ks : List Kind) : (logEvents ks s).taskPoll = s.taskPoll := rfl
@[simp] theorem logEvents_taskCmd (ks : List Kind) : (logEvents ks s).taskCmd = s.taskCmd := rfl
@[simp] theorem logEvents_todo (ks : List Kind) : (logEvents ks s).todo = s.todo := rfl
@[simp] theorem logEvents_reports (ks : List Kind) : (logEvents ks s).reports = s.reports := rfl
@[simp] theorem logEvents_draws (ks : List Kind) : (logEvents ks s).draws = s.draws := rfl

/-! ### chWrite -/

@[simp] theorem chWrite_cfg (bs : List Byte) : (chWrite bs s).cfg = s.cfg := rfl
@[simp] theorem chWrite_cs (bs : List Byte) : (chWrite bs s).cs = s.cs := rfl
@[simp] theorem chWrite_tx (bs : List Byte) : (chWrite bs s).tx = s.tx := rfl
@[simp] theorem chWrite_fr (bs : List Byte) : (chWrite bs s).fr = s.fr := rfl
@[simp] theorem chWrite_txw (bs : List Byte) : (chWrite bs s).txw = s.txw := rfl
@[simp] theorem chWrite_raw (bs : List Byte) : (chWrite bs s).raw = s.raw := rfl
@[simp] theorem chWrite_rx (bs : List Byte) : (chWrite bs s).rx = s.rx := rfl
@[simp] theorem chWrite_txn (bs : List Byte) : (chWrite bs s).txn = s.txn := rfl
@[simp] theorem chWrite_out (bs : List Byte) : (chWrite bs s).out = s.out := rfl
@[simp] theorem chWrite_arb (bs : List Byte) : (chWrite bs s).arb = s.arb := rfl
@[simp] theorem chWrite_ch (bs : List Byte) : (chWrite bs s).ch = { s.ch with written := s.ch.written ++ bs } := rfl
@[simp] theorem chWrite_log (bs : List Byte) : (chWrite bs s).log = s.log := rfl
@[simp] theorem chWrite_schedule (bs : List Byte) : (chWrite bs s).schedule = s.schedule := rfl
@[simp] theorem chWrite_reply (bs : List Byte) : (chWrite bs s).reply = s.reply := rfl
@[simp] theorem chWrite_taskPoll (bs : List Byte) : (chWrite bs s).taskPoll = s.taskPoll := rfl
@[simp] theorem chWrite_taskCmd (bs : List Byte) : (chWrite bs s).taskCmd = s.taskCmd := rfl
@[simp] theorem chWrite_todo (bs : List Byte) : (chWrite bs s).todo = s.todo := rfl
@[simp] theorem chWrite_reports (bs : List Byte) : (chWrite bs s).reports = s.reports := rfl
@[simp] theorem chWrite_draws (bs : List Byte) : (chWrite bs s).draws = s.draws := rfl

/-! ### arrive -/

@[simp] theorem arrive_cfg (bs : List Byte) : (arrive bs s).cfg = s.cfg := rfl
@[simp] theorem arrive_cs (bs : List Byte) : (arrive bs s).cs = s.cs := rfl
@[simp] theorem arrive_tx (bs : List Byte) : (arrive bs s).tx = s.tx := rfl
@[simp] theorem arrive_fr (bs : List Byte) : (arrive bs s).fr = s.fr := rfl
@[simp] theorem arrive_txw (bs : List Byte) : (arrive bs s).txw = s.txw := rfl
@[simp] theorem arrive_raw (bs : List Byte) : (arrive bs s).raw = s.raw := rfl
@[simp] theorem arrive_rx (bs : List Byte) : (arrive bs s).rx = s.rx := rfl
@[simp] theorem arrive_txn (bs : List Byte) : (arrive bs s).txn = s.txn := rfl
@[simp] theorem arrive_out (bs : List Byte) : (arrive bs s).out = s.out := rfl
@[simp] theorem arrive_arb (bs : List Byte) : (arrive bs s).arb = s.arb := rfl
@[simp] theorem arrive_ch (bs : List Byte) : (arrive bs s).ch = { s.ch with arrived := s.ch.arrived ++ bs } := rfl
@[simp] theorem arrive_log (bs : List Byte) : (arrive bs s).log = s.log := rfl
@[simp] theorem arrive_schedule (bs : List Byte) : (arrive bs s).schedule = s.schedule := rfl
@[simp] theorem arrive_reply (bs : List Byte) : (arrive bs s).reply = s.reply := rfl
@[simp] theorem arrive_taskPoll (bs : List Byte) : (arrive bs s).taskPoll = s.taskPoll := rfl
@[simp] theorem arrive_taskCmd (bs : List Byte) : (arrive bs s).taskCmd = s.taskCmd := rfl
@[simp] theorem arrive_todo (bs : List Byte) : (arrive bs s).todo = s.todo := rfl
@[simp] theorem arrive_reports (bs : List Byte) : (arrive bs s).reports = s.reports := rfl
@[simp] theorem arrive_draws (bs : List Byte) : (arrive bs s).draws = s.draws := rfl

/-! ### deliver -/

@[simp] theorem deliver_cfg (r : Result) : (deliver r s).cfg = s.cfg := rfl
@[simp] theorem deliver_cs (r : Result) : (deliver r s).cs = s.cs := rfl
@[simp] theorem deliver_tx (r : Result) : (deliver r s).tx = s.tx := rfl
@[simp] theorem deliver_fr (r : Result) : (deliver r s).fr = s.fr := rfl
@[simp] theorem deliver_txw (r : Result) : (deliver r s).txw = s.txw := rfl
@[simp] theorem deliver_raw (r : Result) : (deliver r s).raw = [] := rfl
@[simp] theorem deliver_rx (r : Result) : (deliver r s).rx = s.rx := rfl
@[simp] theorem deliver_txn (r : Result) : (deliver r s).txn = { s.txn with phase := .idle, verdict := none } := rfl
@[simp] theorem deliver_out (r : Result) : (deliver r s).out = r.out := rfl
@[simp] theorem deliver_arb (r : Result) : (deliver r s).arb = s.arb := rfl
@[simp] theorem deliver_ch (r : Result) : (deliver r s).ch = s.ch := rfl
@[simp] theorem deliver_log (r : Result) : (deliver r s).log = s.log ++ r.events := rfl
@[simp] theorem deliver_schedule (r : Result) : (deliver r s).schedule = s.schedule := rfl
@[simp] theorem deliver_reply (r : Result) : (deliver r s).reply = s.reply := rfl
@[simp] theorem deliver_taskPoll (r : Result) : (deliver r s).taskPoll = s.taskPoll := rfl
@[simp] theorem deliver_taskCmd (r : Result) : (deliver r s).taskCmd = s.taskCmd := rfl
@[simp] theorem deliver_todo (r : Result) : (deliver r s).todo = s.todo := rfl
@[simp] theorem deliver_reports (r : Result) : (deliver r s).reports = s.reports := rfl
@[simp] theorem deliver_draws (r : Result) : (deliver r s).draws = s.draws := rfl

/-! ### build -/

@[simp] theorem build_cfg (c0 c1 : Byte) (p : List Byte) : (build c0 c1 p s).cfg = s.cfg := rfl
@[simp] theorem build_cs (c0 c1 : Byte) (p : List Byte) : (build c0 c1 p s).cs = csumRun (csumOperand c0 c1 p) := rfl
@[simp] theorem build_tx (c0 c1 : Byte) (p : List Byte) : (build c0 c1 p s).tx = ⟨c0, c1, lenByte p, p, csum (csumOperand c0 c1 p)⟩ := rfl
@[simp] theorem build_fr (c0 c1 : Byte) (p : List Byte) : (build c0 c1 p s).fr = ⟨true, frameOf c0 c1 p⟩ := rfl
@[simp] theorem build_txw (c0 c1 : Byte) (p : List Byte) : (build c0 c1 p s).txw = s.txw := rfl
@[simp] theorem build_raw (c0 c1 : Byte) (p : List Byte) : (build c0 c1 p s).raw = s.raw := rfl
@[simp] theorem build_rx (c0 c1 : Byte) (p : List Byte) : (build c0 c1 p s).rx = s.rx := rfl
@[simp] theorem build_txn (c0 c1 : Byte) (p : List Byte) : (build c0 c1 p s).txn = s.txn := rfl
@[simp] theorem build_out (c0 c1 : Byte) (p : List Byte) : (build c0 c1 p s).out = s.out := rfl
@[simp] theorem build_arb (c0 c1 : Byte) (p : List Byte) : (build c0 c1 p s).arb = s.arb := rfl
@[simp] theorem build_ch (c0 c1 : Byte) (p : List Byte) : (build c0 c1 p s).ch = s.ch := rfl
@[simp] theorem build_log (c0 c1 : Byte) (p : List Byte) : (build c0 c1 p s).log = s.log := rfl
@[simp] theorem build_schedule (c0 c1 : Byte) (p : List Byte) : (build c0 c1 p s).schedule = s.schedule := rfl
@[simp] theorem build_reply (c0 c1 : Byte) (p : List Byte) : (build c0 c1 p s).reply = s.reply := rfl
@[simp] theorem build_taskPoll (c0 c1 : Byte) (p : List Byte) : (build c0 c1 p s).taskPoll = s.taskPoll := rfl
@[simp] theorem build_taskCmd (c0 c1 : Byte) (p : List Byte) : (build c0 c1 p s).taskCmd = s.taskCmd := rfl
@[simp] theorem build_todo (c0 c1 : Byte) (p : List Byte) : (build c0 c1 p s).todo = s.todo := rfl
@[simp] theorem build_reports (c0 c1 : Byte) (p : List Byte) : (build c0 c1 p s).reports = s.reports := rfl
@[simp] theorem build_draws (c0 c1 : Byte) (p : List Byte) : (build c0 c1 p s).draws = s.draws := rfl

/-! ### setWaiting -/

@[simp] theorem setWaiting_cfg (r : Requester) (b : Bool) : (setWaiting r b s).cfg = s.cfg := rfl
@[simp] theorem setWaiting_cs (r : Requester) (b : Bool) : (setWaiting r b s).cs = s.cs := rfl
@[simp] theorem setWaiting_tx (r : Requester) (b : Bool) : (setWaiting r b s).tx = s.tx := rfl
@[simp] theorem setWaiting_fr (r : Requester) (b : Bool) : (setWaiting r b s).fr = s.fr := rfl
@[simp] theorem setWaiting_txw (r : Requester) (b : Bool) : (setWaiting r b s).txw = s.txw := rfl
@[simp] theorem setWaiting_raw (r : Requester) (b : Bool) : (setWaiting r b s).raw = s.raw := rfl
@[simp] theorem setWaiting_rx (r : Requester) (b : Bool) : (setWaiting r b s).rx = s.rx := rfl
@[simp] theorem setWaiting_txn (r : Requester) (b : Bool) : (setWaiting r b s).txn = s.txn := rfl
@[simp] theorem setWaiting_out (r : Requester) (b : Bool) : (setWaiting r b s).out = s.out := rfl
@[simp] theorem setWaiting_arb (r : Requester) (b : Bool) : (setWaiting r b s).arb = s.arb.setWaiting r b := rfl
@[simp] theorem setWaiting_ch (r : Requester) (b : Bool) : (setWaiting r b s).ch = s.ch := rfl
@[simp] theorem setWaiting_log (r : Requester) (b : Bool) : (setWaiting r b s).log = s.log := rfl
@[simp] theorem setWaiting_schedule (r : Requester) (b : Bool) : (setWaiting r b s).schedule = s.schedule := rfl
@[simp] theorem setWaiting_reply (r : Requester) (b : Bool) : (setWaiting r b s).reply = s.reply := rfl
@[simp] theorem setWaiting_taskPoll (r : Requester) (b : Bool) : (setWaiting r b s).taskPoll = s.taskPoll := rfl
@[simp] theorem setWaiting_taskCmd (r : Requester) (b : Bool) : (setWaiting r b s).taskCmd = s.taskCmd := rfl
@[simp] theorem setWaiting_todo (r : Requester) (b : Bool) : (setWaiting r b s).todo = s.todo := rfl
@[simp] theorem setWaiting_reports (r : Requester) (b : Bool) : (setWaiting r b s).reports = s.reports := rfl
@[simp] theorem setWaiting_draws (r : Requester) (b : Bool) : (setWaiting r b s).draws = s.draws := rfl

/-! ### release -/

@[simp] theorem release_cfg : (release s).cfg = s.cfg := rfl
@[simp] theorem release_cs : (release s).cs = s.cs := rfl
@[simp] theorem release_tx : (release s).tx = s.tx := rfl
@[simp] theorem release_fr : (release s).fr = s.fr := rfl
@[simp] theorem release_txw : (release s).txw = s.txw := rfl
@[simp] theorem release_raw : (release s).raw = s.raw := rfl
@[simp] theorem release_rx : (release s).rx = s.rx := rfl
@[simp] theorem release_txn : (release s).txn = s.txn := rfl
@[simp] theorem release_out : (release s).out = s.out := rfl
@[simp] theorem release_arb : (release s).arb = { s.arb with holder := none } := rfl
@[simp] theorem release_ch : (release s).ch = s.ch := rfl
@[simp] theorem release_log : (release s).log = s.log := rfl
@[simp] theorem release_schedule : (release s).schedule = s.schedule := rfl
@[simp] theorem release_reply : (release s).reply = s.reply := rfl
@[simp] theorem release_taskPoll : (release s).taskPoll = s.taskPoll := rfl
@[simp] theorem release_taskCmd : (release s).taskCmd = s.taskCmd := rfl
@[simp] theorem release_todo : (release s).todo = s.todo := rfl
@[simp] theorem release_reports : (release s).reports = s.reports := rfl
@[simp] theorem release_draws : (release s).draws = s.draws := rfl

/-! ### giveTo -/

@[simp] theorem giveTo_cfg (r : Requester) : (giveTo r s).cfg = s.cfg := rfl
@[simp] theorem giveTo_cs (r : Requester) : (giveTo r s).cs = s.cs := rfl
@[simp] theorem giveTo_tx (r : Requester) : (giveTo r s).tx = s.tx := rfl
@[simp] theorem giveTo_fr (r : Requester) : (giveTo r s).fr = s.fr := rfl
@[simp] theorem giveTo_txw (r : Requester) : (giveTo r s).txw = s.txw := rfl
@[simp] theorem giveTo_raw (r : Requester) : (giveTo r s).raw = s.raw := rfl
@[simp] theorem giveTo_rx (r : Requester) : (giveTo r s).rx = s.rx := rfl
@[simp] theorem giveTo_txn (r : Requester) : (giveTo r s).txn = s.txn := rfl
@[simp] theorem giveTo_out (r : Requester) : (giveTo r s).out = s.out := rfl
@[simp] theorem giveTo_arb (r : Requester) : (giveTo r s).arb = { s.arb.setWaiting r false with holder := some r } := rfl
@[simp] theorem giveTo_ch (r : Requester) : (giveTo r s).ch = s.ch := rfl
@[simp] theorem giveTo_log (r : Requester) : (giveTo r s).log = s.log := rfl
@[simp] theorem giveTo_schedule (r : Requester) : (giveTo r s).schedule = s.schedule := rfl
@[simp] theorem giveTo_reply (r : Requester) : (giveTo r s).reply = s.reply := rfl
@[simp] theorem giveTo_taskPoll (r : Requester) : (giveTo r s).taskPoll = s.taskPoll := rfl
@[simp] theorem giveTo_taskCmd (r : Requester) : (giveTo r s).taskCmd = s.taskCmd := rfl
@[simp] theorem giveTo_todo (r : Requester) : (giveTo r s).todo = s.todo := rfl
@[simp] theorem giveTo_reports (r : Requester) : (giveTo r s).reports = s.reports := rfl
@[simp] theorem giveTo_draws (r : Requester) : (giveTo r s).draws = s.draws := rfl

/-! ### beginTxn -/

@[simp] theorem beginTxn_cfg (r : Requester) (f : List Byte) : (beginTxn r f s).cfg = s.cfg := rfl
@[simp] theorem beginTxn_cs (r : Requester) (f : List Byte) : (beginTxn r f s).cs = s.cs := rfl
@[simp] theorem beginTxn_tx (r : Requester) (f : List Byte) : (beginTxn r f s).tx = s.tx := rfl
@[simp] theorem beginTxn_fr (r : Requester) (f : List Byte) : (beginTxn r f s).fr = s.fr := rfl
@[simp] theorem beginTxn_txw (r : Requester) (f : List Byte) : (beginTxn r f s).txw = s.txw := rfl
@[simp] theorem beginTxn_raw (r : Requester) (f : List Byte) : (beginTxn r f s).raw = s.raw := rfl
@[simp] theorem beginTxn_rx (r : Requester) (f : List Byte) : (beginTxn r f s).rx = s.rx := rfl
@[simp] theorem beginTxn_txn (r : Requester) (f : List Byte) : (beginTxn r f s).txn = ⟨.write, r, f, none⟩ := rfl
@[simp] theorem beginTxn_out (r : Requester) (f : List Byte) : (beginTxn r f s).out = s.out := rfl
@[simp] theorem beginTxn_arb (r : Requester) (f : List Byte) : (beginTxn r f s).arb = s.arb := rfl
@[simp] theorem beginTxn_ch (r : Requester) (f : List Byte) : (beginTxn r f s).ch = s.ch := rfl
@[simp] theorem beginTxn_log (r : Requester) (f : List Byte) : (beginTxn r f s).log = s.log := rfl
@[simp] theorem beginTxn_schedule (r : Requester) (f : List Byte) : (beginTxn r f s).schedule = s.schedule := rfl
@[simp] theorem beginTxn_reply (r : Requester) (f : List Byte) : (beginTxn r f s).reply = s.reply := rfl
@[simp] theorem beginTxn_taskPoll (r : Requester) (f : List Byte) : (beginTxn r f s).taskPoll = s.taskPoll := rfl
@[simp] theorem beginTxn_taskCmd (r : Requester) (f : List Byte) : (beginTxn r f s).taskCmd = s.taskCmd := rfl
@[simp] theorem beginTxn_todo (r : Requester) (f : List Byte) : (beginTxn r f s).todo = s.todo := rfl
@[simp] theorem beginTxn_reports (r : Requester) (f : List Byte) : (beginTxn r f s).reports = s.reports := rfl
@[simp] theorem beginTxn_draws (r : Requester) (f : List Byte) : (beginTxn r f s).draws = s.draws := rfl

/-! ### setPhase -/

@[simp] theorem setPhase_cfg (p : Phase) : (setPhase p s).cfg = s.cfg := rfl
@[simp] theorem setPhase_cs (p : Phase) : (setPhase p s).cs = s.cs := rfl
@[simp] theorem setPhase_tx (p : Phase) : (setPhase p s).tx = s.tx := rfl
@[simp] theorem setPhase_fr (p : Phase) : (setPhase p s).fr = s.fr := rfl
@[simp] theorem setPhase_txw (p : Phase) : (setPhase p s).txw = s.txw := rfl
@[simp] theorem setPhase_raw (p : Phase) : (setPhase p s).raw = s.raw := rfl
@[simp] theorem setPhase_rx (p : Phase) : (setPhase p s).rx = s.rx := rfl
@[simp] theorem setPhase_txn (p : Phase) : (setPhase p s).txn = { s.txn with phase := p } := rfl
@[simp] theorem setPhase_out (p : Phase) : (setPhase p s).out = s.out := rfl
@[simp] theorem setPhase_arb (p : Phase) : (setPhase p s).arb = s.arb := rfl
@[simp] theorem setPhase_ch (p : Phase) : (setPhase p s).ch = s.ch := rfl
@[simp] theorem setPhase_log (p : Phase) : (setPhase p s).log = s.log := rfl
@[simp] theorem setPhase_schedule (p : Phase) : (setPhase p s).schedule = s.schedule := rfl
@[simp] theorem setPhase_reply (p : Phase) : (setPhase p s).reply = s.reply := rfl
@[simp] theorem setPhase_taskPoll (p : Phase) : (setPhase p s).taskPoll = s.taskPoll := rfl
@[simp] theorem setPhase_taskCmd (p : Phase) : (setPhase p s).taskCmd = s.taskCmd := rfl
@[simp] theorem setPhase_todo (p : Phase) : (setPhase p s).todo = s.todo := rfl
@[simp] theorem setPhase_reports (p : Phase) : (setPhase p s).reports = s.reports := rfl
@[simp] theorem setPhase_draws (p : Phase) : (setPhase p s).draws = s.draws := rfl

/-! ### report -/

@[simp] theorem report_cfg (x : Report) : (report x s).cfg = s.cfg := rfl
@[simp] theorem report_cs (x : Report) : (report x s).cs = s.cs := rfl
@[simp] theorem report_tx (x : Report) : (report x s).tx = s.tx := rfl
@[simp] theorem report_fr (x : Report) : (report x s).fr = s.fr := rfl
@[simp] theorem report_txw (x : Report) : (report x s).txw = s.txw := rfl
@[simp] theorem report_raw (x : Report) : (report x s).raw = s.raw := rfl
@[simp] theorem report_rx (x : Report) : (report x s).rx = s.rx := rfl
@[simp] theorem report_txn (x : Report) : (report x s).txn = s.txn := rfl
@[simp] theorem report_out (x : Report) : (report x s).out = s.out := rfl
@[simp] theorem report_arb (x : Report) : (report x s).arb = s.arb := rfl
@[simp] theorem report_ch (x : Report) : (report x s).ch = s.ch := rfl
@[simp] theorem report_log (x : Report) : (report x s).log = s.log := rfl
@[simp] theorem report_schedule (x : Report) : (report x s).schedule = s.schedule := rfl
@[simp] theorem report_reply (x : Report) : (report x s).reply = s.reply := rfl
@[simp] theorem report_taskPoll (x : Report) : (report x s).taskPoll = s.taskPoll := rfl
@[simp] theorem report_taskCmd (x : Report) : (report x s).taskCmd = s.taskCmd := rfl
@[simp] theorem report_todo (x : Report) : (report x s).todo = s.todo := rfl
@[simp] theorem report_reports (x : Report) : (report x s).reports = s.reports ++ [x] := rfl
@[simp] theorem report_draws (x : Report) : (report x s).draws = s.draws := rfl

/-! ### setTask -/

@[simp] theorem setTask_cfg (r : Requester) (t : Option Task) : (s.setTask r t).cfg = s.cfg := by cases r <;> rfl
@[simp] theorem setTask_cs (r : Requester) (t : Option Task) : (s.setTask r t).cs = s.cs := by cases r <;> rfl
@[simp] theorem setTask_tx (r : Requester) (t : Option Task) : (s.setTask r t).tx = s.tx := by cases r <;> rfl
@[simp] theorem setTask_fr (r : Requester) (t : Option Task) : (s.setTask r t).fr = s.fr := by cases r <;> rfl
@[simp] theorem setTask_txw (r : Requester) (t : Option Task) : (s.setTask r t).txw = s.txw := by cases r <;> rfl
@[simp] theorem setTask_raw (r : Requester) (t : Option Task) : (s.setTask r t).raw = s.raw := by cases r <;> rfl
@[simp] theorem setTask_rx (r : Requester) (t : Option Task) : (s.setTask r t).rx = s.rx := by cases r <;> rfl
@[simp] theorem setTask_txn (r : Requester) (t : Option Task) : (s.setTask r t).txn = s.txn := by cases r <;> rfl
@[simp] theorem setTask_out (r : Requester) (t : Option Task) : (s.setTask r t).out = s.out := by cases r <;> rfl
@[simp] theorem setTask_arb (r : Requester) (t : Option Task) : (s.setTask r t).arb = s.arb := by cases r <;> rfl
@[simp] theorem setTask_ch (r : Requester) (t : Option Task) : (s.setTask r t).ch = s.ch := by cases r <;> rfl
@[simp] theorem setTask_log (r : Requester) (t : Option Task) : (s.setTask r t).log = s.log := by cases r <;> rfl
@[simp] theorem setTask_schedule (r : Requester) (t : Option Task) : (s.setTask r t).schedule = s.schedule := by cases r <;> rfl
@[simp] theorem setTask_reply (r : Requester) (t : Option Task) : (s.setTask r t).reply = s.reply := by cases r <;> rfl
@[simp] theorem setTask_todo (r : Requester) (t : Option Task) : (s.setTask r t).todo = s.todo := by cases r <;> rfl
@[simp] theorem setTask_reports (r : Requester) (t : Option Task) : (s.setTask r t).reports = s.reports := by cases r <;> rfl
@[simp] theorem setTask_draws (r : Requester) (t : Option Task) : (s.setTask r t).draws = s.draws := by cases r <;> rfl

@[simp] theorem setTask_same (r : Requester) (t : Option Task) : (s.setTask r t).task r = t := by cases r <;> rfl

@[simp] theorem setTask_other (r : Requester) (t : Option Task) :
    (s.setTask r t).task (otherRequester r) = s.task (otherRequester r) := by cases r <;> rfl

/-! ### abandonWait -/

@[simp] theorem abandonWait_cfg (r : Requester) : (abandonWait r s).cfg = s.cfg := by cases r <;> rfl
@[simp] theorem abandonWait_cs (r : Requester) : (abandonWait r s).cs = s.cs := by cases r <;> rfl
@[simp] theorem abandonWait_tx (r : Requester) : (abandonWait r s).tx = s.tx := by cases r <;> rfl
@[simp] theorem abandonWait_fr (r : Requester) : (abandonWait r s).fr = s.fr := by cases r <;> rfl
@[simp] theorem abandonWait_txw (r : Requester) : (abandonWait r s).txw = s.txw := by cases r <;> rfl
@[simp] theorem abandonWait_raw (r : Requester) : (abandonWait r s).raw = s.raw := by cases r <;> rfl
@[simp] theorem abandonWait_rx (r : Requester) : (abandonWait r s).rx = s.rx := by cases r <;> rfl
@[simp] theorem abandonWait_txn (r : Requester) : (abandonWait r s).txn = s.txn := by cases r <;> rfl
@[simp] theorem abandonWait_out (r : Requester) : (abandonWait r s).out = s.out := by cases r <;> rfl
@[simp] theorem abandonWait_arb (r : Requester) : (abandonWait r s).arb = s.arb.setWaiting r false := by cases r <;> rfl
@[simp] theorem abandonWait_ch (r : Requester) : (abandonWait r s).ch = s.ch := by cases r <;> rfl
@[simp] theorem abandonWait_log (r : Requester) : (abandonWait r s).log = s.log := by cases r <;> rfl
@[simp] theorem abandonWait_schedule (r : Requester) : (abandonWait r s).schedule = s.schedule := by cases r <;> rfl
@[simp] theorem abandonWait_reply (r : Requester) : (abandonWait r s).reply = s.reply := by cases r <;> rfl
@[simp] theorem abandonWait_todo (r : Requester) : (abandonWait r s).todo = s.todo := by cases r <;> rfl
@[simp] theorem abandonWait_reports (r : Requester) : (abandonWait r s).reports = s.reports := by cases r <;> rfl
@[simp] theorem abandonWait_draws (r : Requester) : (abandonWait r s).draws = s.draws := by cases r <;> rfl

@[simp] theorem abandonWait_task_same (r : Requester) : (abandonWait r s).task r = none := by cases r <;> rfl

@[simp] theorem abandonWait_task_other (r : Requester) :
    (abandonWait r s).task (otherRequester r) = s.task (otherRequester r) := by cases r <;> rfl

/-! ### finishTransaction and endHold -/

@[simp] theorem finishTransaction_cfg (r : Requester) (k : Task) : (finishTransaction r k s).cfg = s.cfg := by cases r <;> rfl
@[simp] theorem finishTransaction_cs (r : Requester) (k : Task) : (finishTransaction r k s).cs = s.cs := by cases r <;> rfl
@[simp] theorem finishTransaction_tx (r : Requester) (k : Task) : (finishTransaction r k s).tx = s.tx := by cases r <;> rfl
@[simp] theorem finishTransaction_fr (r : Requester) (k : Task) : (finishTransaction r k s).fr = s.fr := by cases r <;> rfl
@[simp] theorem finishTransaction_txw (r : Requester) (k : Task) : (finishTransaction r k s).txw = s.txw := by cases r <;> rfl
@[simp] theorem finishTransaction_raw (r : Requester) (k : Task) : (finishTransaction r k s).raw = s.raw := by cases r <;> rfl
@[simp] theorem finishTransaction_rx (r : Requester) (k : Task) : (finishTransaction r k s).rx = s.rx := by cases r <;> rfl
@[simp] theorem finishTransaction_txn (r : Requester) (k : Task) : (finishTransaction r k s).txn = s.txn := by cases r <;> rfl
@[simp] theorem finishTransaction_out (r : Requester) (k : Task) : (finishTransaction r k s).out = s.out := by cases r <;> rfl
@[simp] theorem finishTransaction_arb (r : Requester) (k : Task) : (finishTransaction r k s).arb = { s.arb with holder := none } := by cases r <;> rfl
@[simp] theorem finishTransaction_ch (r : Requester) (k : Task) : (finishTransaction r k s).ch = s.ch := by cases r <;> rfl
@[simp] theorem finishTransaction_log (r : Requester) (k : Task) : (finishTransaction r k s).log = s.log := by cases r <;> rfl
@[simp] theorem finishTransaction_schedule (r : Requester) (k : Task) : (finishTransaction r k s).schedule = s.schedule := by cases r <;> rfl
@[simp] theorem finishTransaction_reply (r : Requester) (k : Task) : (finishTransaction r k s).reply = s.reply := by cases r <;> rfl
@[simp] theorem finishTransaction_todo (r : Requester) (k : Task) : (finishTransaction r k s).todo = s.todo := by cases r <;> rfl
@[simp] theorem finishTransaction_draws (r : Requester) (k : Task) : (finishTransaction r k s).draws = s.draws := by cases r <;> rfl
@[simp] theorem finishTransaction_reports (r : Requester) (k : Task) :
    (finishTransaction r k s).reports = s.reports ++ [.done k.command s.out] := by cases r <;> rfl
@[simp] theorem finishTransaction_task_same (r : Requester) (k : Task) : (finishTransaction r k s).task r = none := by
  cases r <;> rfl
@[simp] theorem finishTransaction_task_other (r : Requester) (k : Task) :
    (finishTransaction r k s).task (otherRequester r) = s.task (otherRequester r) := by cases r <;> rfl

/-- The three ways a hold ends, by what its requester is carrying out. -/
theorem endHold_of_none {s : State} {r : Requester} (h : s.task r = none) : endHold r s = release s := by
  simp only [endHold, h]

theorem endHold_of_waiting {s : State} {r : Requester} {k : Task} (h : s.task r = some k) (hk : k.stage = .waiting) :
    endHold r s = release (s.setTask r none) := by simp only [endHold, h, hk]

theorem endHold_of_running {s : State} {r : Requester} {k : Task} (h : s.task r = some k) (hk : k.stage = .running) :
    endHold r s = finishTransaction r k s := by simp only [endHold, h, hk]

/-- Whatever the requester is carrying out, the end of its hold frees the permit and leaves it without a task; the reports
grow by one where an `EXEC` had begun, and nothing else changes. -/
theorem endHold_cases (r : Requester) : (endHold r s).task r = none ∧
    ∃ reports, endHold r s = { (release (s.setTask r none)) with reports := reports } := by
  cases h : s.task r with
  | none =>
    rw [endHold_of_none h]
    exact ⟨h, s.reports, by cases r <;> simp only [State.task] at h <;> simp [release, h]⟩
  | some k =>
    cases hk : k.stage with
    | waiting => rw [endHold_of_waiting h hk]; exact ⟨by cases r <;> rfl, s.reports, by cases r <;> rfl⟩
    | running => rw [endHold_of_running h hk]; exact ⟨by cases r <;> rfl, _, by cases r <;> rfl⟩

@[simp] theorem endHold_cfg (r : Requester) : (endHold r s).cfg = s.cfg := by
  obtain ⟨_, _, e⟩ := endHold_cases s r; rw [e]; cases r <;> rfl
@[simp] theorem endHold_cs (r : Requester) : (endHold r s).cs = s.cs := by
  obtain ⟨_, _, e⟩ := endHold_cases s r; rw [e]; cases r <;> rfl
@[simp] theorem endHold_tx (r : Requester) : (endHold r s).tx = s.tx := by
  obtain ⟨_, _, e⟩ := endHold_cases s r; rw [e]; cases r <;> rfl
@[simp] theorem endHold_fr (r : Requester) : (endHold r s).fr = s.fr := by
  obtain ⟨_, _, e⟩ := endHold_cases s r; rw [e]; cases r <;> rfl
@[simp] theorem endHold_txw (r : Requester) : (endHold r s).txw = s.txw := by
  obtain ⟨_, _, e⟩ := endHold_cases s r; rw [e]; cases r <;> rfl
@[simp] theorem endHold_raw (r : Requester) : (endHold r s).raw = s.raw := by
  obtain ⟨_, _, e⟩ := endHold_cases s r; rw [e]; cases r <;> rfl
@[simp] theorem endHold_rx (r : Requester) : (endHold r s).rx = s.rx := by
  obtain ⟨_, _, e⟩ := endHold_cases s r; rw [e]; cases r <;> rfl
@[simp] theorem endHold_txn (r : Requester) : (endHold r s).txn = s.txn := by
  obtain ⟨_, _, e⟩ := endHold_cases s r; rw [e]; cases r <;> rfl
@[simp] theorem endHold_out (r : Requester) : (endHold r s).out = s.out := by
  obtain ⟨_, _, e⟩ := endHold_cases s r; rw [e]; cases r <;> rfl
@[simp] theorem endHold_arb (r : Requester) : (endHold r s).arb = { s.arb with holder := none } := by
  obtain ⟨_, _, e⟩ := endHold_cases s r; rw [e]; cases r <;> rfl
@[simp] theorem endHold_ch (r : Requester) : (endHold r s).ch = s.ch := by
  obtain ⟨_, _, e⟩ := endHold_cases s r; rw [e]; cases r <;> rfl
@[simp] theorem endHold_log (r : Requester) : (endHold r s).log = s.log := by
  obtain ⟨_, _, e⟩ := endHold_cases s r; rw [e]; cases r <;> rfl
@[simp] theorem endHold_schedule (r : Requester) : (endHold r s).schedule = s.schedule := by
  obtain ⟨_, _, e⟩ := endHold_cases s r; rw [e]; cases r <;> rfl
@[simp] theorem endHold_reply (r : Requester) : (endHold r s).reply = s.reply := by
  obtain ⟨_, _, e⟩ := endHold_cases s r; rw [e]; cases r <;> rfl
@[simp] theorem endHold_todo (r : Requester) : (endHold r s).todo = s.todo := by
  obtain ⟨_, _, e⟩ := endHold_cases s r; rw [e]; cases r <;> rfl
@[simp] theorem endHold_draws (r : Requester) : (endHold r s).draws = s.draws := by
  obtain ⟨_, _, e⟩ := endHold_cases s r; rw [e]; cases r <;> rfl

@[simp] theorem endHold_task_same (r : Requester) : (endHold r s).task r = none := (endHold_cases s r).1

@[simp] theorem endHold_task_other (r : Requester) :
    (endHold r s).task (otherRequester r) = s.task (otherRequester r) := by
  obtain ⟨_, _, e⟩ := endHold_cases s r; rw [e]; cases r <;> rfl

/-! ### The tasks -/

/-- Where the two task fields are kept, so is the task of each requester. -/
theorem task_congr {s t : State} (h1 : t.taskPoll = s.taskPoll) (h2 : t.taskCmd = s.taskCmd) (q : Requester) :
    t.task q = s.task q := by cases q <;> assumption

/-! ### ARB.waiting -/

@[simp] theorem setWaiting_holder_arb (a : Arb) (r : Requester) (b : Bool) : (a.setWaiting r b).holder = a.holder := by
  cases r <;> rfl

@[simp] theorem setWaiting_same (a : Arb) (r : Requester) (b : Bool) : (a.setWaiting r b).waiting r = b := by
  cases r <;> rfl

@[simp] theorem setWaiting_other (a : Arb) (r : Requester) (b : Bool) :
    (a.setWaiting r b).waiting (otherRequester r) = a.waiting (otherRequester r) := by cases r <;> rfl

theorem waiting_setWaiting (a : Arb) (r q : Requester) (b : Bool) :
    (a.setWaiting r b).waiting q = if q = r then b else a.waiting q := by cases r <;> cases q <;> rfl

/-- Two requesters are the same or each the other. -/
theorem eq_or_eq_other (r q : Requester) : q = r ∨ q = otherRequester r := by cases r <;> cases q <;> simp [otherRequester]

theorem otherRequester_ne (r : Requester) : otherRequester r ≠ r := by cases r <;> simp [otherRequester]

theorem issuer_eq (c : Command) : issuer c = commandRequester c := by cases c <;> rfl

end Sys2Proof.Machine
end

