-- ==== Sys2Proof/Laws/Step.lean ====
section
/-! SUPPORT. What a step can do, said once: how the codec's registers can change, how the transaction, the permit, the
channel, the outcome and the log can, and how the tasks of the requesters can. -/

namespace Sys2Proof.Machine

/-- How one step other than a reset can change the configuration and the registers of the codec. -/
structure CodecMove (s t : State) : Prop where
  cfg : t.cfg = s.cfg
  built : (t.fr = s.fr ∧ t.tx = s.tx) ∨ ∃ c0 c1 p, p.length ≤ 255 ∧ t.fr = ⟨true, frameOf c0 c1 p⟩ ∧
    t.tx = ⟨c0, c1, lenByte p, p, csum (csumOperand c0 c1 p)⟩
  txw : t.txw = s.txw ∨ ∃ f, isFrame f = true ∧ t.txw = wireBytes f
  rx : t.rx = s.rx ∨ (∃ raw, t.rx = rxValidate raw s.rx) ∨ ∃ f n d, t.rx = rxUnesc f n d s.rx

/-- How one step other than a reset can change the permit. -/
inductive PermitMove (s t : State) : Prop
  | wait (r : Requester) (h : acquirable r s = true) (e : t.arb = s.arb.setWaiting r true)
  | unwait (r : Requester) (h : s.arb.waiting r = true) (e : t.arb = s.arb.setWaiting r false) (ht : t.task r = none)
  | grant (r : Requester) (h : s.arb.holder = none) (hw : s.arb.waiting r = true)
      (e : t.arb = { s.arb.setWaiting r false with holder := some r })
  | release (r : Requester) (h : releasable r s = true) (e : t.arb = { s.arb with holder := none })
      (ht : t.task r = none)

/-- How one step other than a reset can change the transaction, the permit, the channel, the outcome and the log. -/
inductive CoreMove (s t : State) : Prop
  /-- None of them but the log, which may grow by one event. -/
  | quiet (txn : t.txn = s.txn) (arb : t.arb = s.arb) (raw : t.raw = s.raw) (out : t.out = s.out)
      (written : t.ch.written = s.ch.written) (log : t.log = s.log ∨ ∃ k, t.log = s.log ++ [k])
  /-- The permit alone. -/
  | permit (m : PermitMove s t) (txn : t.txn = s.txn) (raw : t.raw = s.raw) (out : t.out = s.out)
      (written : t.ch.written = s.ch.written) (log : t.log = s.log)
  /-- An `EXEC` is accepted. -/
  | accept (r : Requester) (f : List Byte) (h : executable r f s = true) (txn : t.txn = ⟨.write, r, f, none⟩)
      (arb : t.arb = s.arb) (raw : t.raw = s.raw) (out : t.out = s.out) (written : t.ch.written = s.ch.written)
      (log : t.log = s.log)
  /-- Phase WRITE. -/
  | write (h : s.txn.phase = .write) (hf : isFrame s.txn.sent = true) (txn : t.txn = { s.txn with phase := .settle })
      (arb : t.arb = s.arb) (raw : t.raw = s.raw) (out : t.out = s.out)
      (written : t.ch.written = s.ch.written ++ wireBytes s.txn.sent) (log : t.log = s.log)
  /-- Phase SETTLE. -/
  | settle (h : s.txn.phase = .settle) (txn : t.txn = { s.txn with phase := .drain }) (arb : t.arb = s.arb)
      (raw : t.raw = s.raw) (out : t.out = s.out) (written : t.ch.written = s.ch.written) (log : t.log = s.log)
  /-- Phase DRAIN with a capture. -/
  | capture (w : List Byte) (h : s.txn.phase = .drain) (hw : nextWindow s = .captured w)
      (txn : t.txn = { s.txn with phase := .validate }) (arb : t.arb = s.arb)
      (raw : t.raw = s.ch.arrived ++ w) (out : t.out = s.out) (written : t.ch.written = s.ch.written) (log : t.log = s.log)
  /-- Phase VALIDATE. -/
  | validate (h : s.txn.phase = .validate)
      (txn : t.txn = { s.txn with phase := .classify, verdict := some (validate s.raw) }) (arb : t.arb = s.arb)
      (raw : t.raw = s.raw) (out : t.out = s.out) (written : t.ch.written = s.ch.written) (log : t.log = s.log)
  /-- Delivery, from phase DRAIN at the ceiling or from phase CLASSIFY. -/
  | deliver (r : Result)
      (h : (s.txn.phase = .drain ∧ nextWindow s = .ceilingHit) ∧ r = .failure .channelTimeout ∨
        s.txn.phase = .classify ∧ ∃ v, s.txn.verdict = some v ∧ r = classify v)
      (txn : t.txn = { s.txn with phase := .idle, verdict := none }) (arb : t.arb = s.arb) (raw : t.raw = [])
      (out : t.out = r.out) (written : t.ch.written = s.ch.written) (log : t.log = s.log ++ r.events)

/-- How one step other than a reset can change the task of requester `q`. -/
inductive TaskMove (s t : State) (q : Requester) : Prop
  | same (e : t.task q = s.task q)
  | ended (e : t.task q = none)
  | begun (k : Task) (e : t.task q = some k) (hk : k.stage = .waiting) (hf : isFrame k.frame = true)
      (hw : t.arb.waiting q = true)
  | running (k : Task) (h : s.task q = some k) (e : t.task q = some { k with stage := .running })
      (hh : t.arb.holder = some q)

/-- Everything a step other than a reset can do. -/
structure Move (s t : State) : Prop where
  codec : CodecMove s t
  core : CoreMove s t
  task : ∀ q, TaskMove s t q

/-! ### The shared operations -/

theorem codecMove_of_eq {s t : State} (h1 : t.cfg = s.cfg) (h2 : t.fr = s.fr) (h3 : t.tx = s.tx) (h4 : t.txw = s.txw)
    (h5 : t.rx = s.rx) : CodecMove s t := ⟨h1, .inl ⟨h2, h3⟩, .inl h4, .inl h5⟩

theorem taskMove_same {s t : State} (h1 : t.taskPoll = s.taskPoll) (h2 : t.taskCmd = s.taskCmd) (q : Requester) :
    TaskMove s t q := .same (task_congr h1 h2 q)

/-- A task that changes for one requester and not for the other. -/
theorem taskMove_of {s t : State} {r : Requester} (h : TaskMove s t r)
    (ho : t.task (otherRequester r) = s.task (otherRequester r)) (q : Requester) : TaskMove s t q := by
  rcases eq_or_eq_other r q with rfl | rfl
  · exact h
  · exact .same ho

/-- A state that differs from `s` in the codec's registers as a codec operation may, in the log by at most one event, and
otherwise not in the fields of a `Move`, is a move of `s`. -/
theorem move_quiet {s t : State} (c : CodecMove s t) (txn : t.txn = s.txn) (arb : t.arb = s.arb) (raw : t.raw = s.raw)
    (out : t.out = s.out) (written : t.ch.written = s.ch.written)
    (log : t.log = s.log ∨ ∃ k, t.log = s.log ++ [k]) (h1 : t.taskPoll = s.taskPoll := by rfl)
    (h2 : t.taskCmd = s.taskCmd := by rfl) : Move s t :=
  ⟨c, .quiet txn arb raw out written log, taskMove_same h1 h2⟩

theorem move_refl (s : State) : Move s s :=
  move_quiet (codecMove_of_eq rfl rfl rfl rfl rfl) rfl rfl rfl rfl rfl (.inl rfl)

theorem move_refuse (s : State) : Move s (refuse s) :=
  move_quiet (codecMove_of_eq rfl rfl rfl rfl rfl) rfl rfl rfl rfl rfl (.inl rfl)

theorem move_raise (k : Kind) (s : State) : Move s (raise k s) :=
  move_quiet (codecMove_of_eq rfl rfl rfl rfl rfl) rfl rfl rfl rfl rfl (.inr ⟨k, rfl⟩)

theorem move_rejectCommand (c : Command) (k : Kind) (s : State) : Move s (rejectCommand c k s) :=
  move_quiet (codecMove_of_eq rfl rfl rfl rfl rfl) rfl rfl rfl rfl rfl (.inr ⟨k, rfl⟩)

theorem move_arrive (bs : List Byte) (s : State) : Move s (arrive bs s) :=
  move_quiet (codecMove_of_eq rfl rfl rfl rfl rfl) rfl rfl rfl rfl rfl (.inl rfl)

theorem warnEvents_atMostOne (s : List Kind) (b : Bool) :
    s ++ warnEvents b = s ∨ ∃ k, s ++ warnEvents b = s ++ [k] := by cases b <;> simp [warnEvents]

theorem verdictEvents_atMostOne (s : List Kind) (v : Verdict) : s ++ v.events = s ∨ ∃ k, s ++ v.events = s ++ [k] := by
  cases v with
  | ok f oor => exact warnEvents_atMostOne s oor
  | err k => exact .inr ⟨k, rfl⟩

theorem resultEvents_atMostOne (s : List Kind) (r : Result) : s ++ r.events = s ∨ ∃ k, s ++ r.events = s ++ [k] := by
  cases r with
  | ack => exact .inl (by simp [Result.events])
  | data f w => exact warnEvents_atMostOne s w
  | failure k => exact .inr ⟨k, rfl⟩

theorem codecMove_build (c0 c1 : Byte) (p : List Byte) (s t : State) (hp : p.length ≤ 255)
    (h1 : t.cfg = s.cfg) (h2 : t.fr = ⟨true, frameOf c0 c1 p⟩) (h3 : t.tx = (build c0 c1 p s).tx) (h4 : t.txw = s.txw)
    (h5 : t.rx = s.rx) : CodecMove s t :=
  ⟨h1, .inr ⟨c0, c1, p, hp, h2, h3⟩, .inl h4, .inl h5⟩

theorem move_writePhase (s : State) (h : s.txn.phase = .write) (hf : isFrame s.txn.sent = true) :
    Move s (writePhase s) :=
  ⟨⟨rfl, .inl ⟨rfl, rfl⟩, .inr ⟨s.txn.sent, hf, rfl⟩, .inl rfl⟩, .write h hf rfl rfl rfl rfl rfl rfl, taskMove_same rfl rfl⟩

/-- A drain that captures: the bytes that waited, then those of the window. -/
theorem chDrain_captured {s : State} {w : List Byte} (h : nextWindow s = .captured w) :
    chDrain s = (.captured (s.ch.arrived ++ w), { s with
      ch := ⟨[], s.ch.windows.tail, s.ch.written⟩, draws := s.draws + if s.ch.windows = [] then 1 else 0 }) := by
  cases hw : s.ch.windows <;> simp [chDrain, h, hw]

/-- A drain that hits the ceiling: what waited is lost. -/
theorem chDrain_ceiling {s : State} (h : nextWindow s = .ceilingHit) :
    chDrain s = (.ceilingHit, { s with
      ch := ⟨[], s.ch.windows.tail, s.ch.written⟩, draws := s.draws + if s.ch.windows = [] then 1 else 0 }) := by
  cases hw : s.ch.windows <;> simp [chDrain, h, hw]

theorem drainPhase_captured {s : State} {w : List Byte} (h : nextWindow s = .captured w) :
    drainPhase s = setPhase .validate { s with
      raw := s.ch.arrived ++ w, ch := ⟨[], s.ch.windows.tail, s.ch.written⟩,
      draws := s.draws + if s.ch.windows = [] then 1 else 0 } := by
  simp only [drainPhase, chDrain_captured h]

theorem drainPhase_ceiling {s : State} (h : nextWindow s = .ceilingHit) :
    drainPhase s = deliver (.failure .channelTimeout) { s with
      ch := ⟨[], s.ch.windows.tail, s.ch.written⟩, draws := s.draws + if s.ch.windows = [] then 1 else 0 } := by
  simp only [drainPhase, chDrain_ceiling h]

theorem move_drainPhase (s : State) (h : s.txn.phase = .drain) : Move s (drainPhase s) := by
  cases hw : nextWindow s with
  | captured w =>
    rw [drainPhase_captured hw]
    exact ⟨codecMove_of_eq rfl rfl rfl rfl rfl, .capture w h hw rfl rfl rfl rfl rfl rfl, taskMove_same rfl rfl⟩
  | ceilingHit =>
    rw [drainPhase_ceiling hw]
    exact ⟨codecMove_of_eq rfl rfl rfl rfl rfl, .deliver _ (.inl ⟨⟨h, hw⟩, rfl⟩) rfl rfl rfl rfl rfl rfl, taskMove_same rfl rfl⟩

theorem move_sequencer (s t : State) (h : sequencer s = .next t) : Move s t := by
  unfold sequencer at h
  split at h
  · cases h; exact move_refl s
  · next hp =>
    split at h
    · next hf => cases h; exact move_writePhase s hp hf
    · cases h
  · next hp => cases h; exact ⟨codecMove_of_eq rfl rfl rfl rfl rfl, .settle hp rfl rfl rfl rfl rfl rfl, taskMove_same rfl rfl⟩
  · next hp => cases h; exact move_drainPhase s hp
  · next hp =>
    cases h
    exact ⟨⟨rfl, .inl ⟨rfl, rfl⟩, .inl rfl, .inr (.inl ⟨s.raw, rfl⟩)⟩, .validate hp rfl rfl rfl rfl rfl rfl,
      taskMove_same rfl rfl⟩
  · next hp =>
    split at h
    · next v hv =>
      cases h
      exact ⟨codecMove_of_eq rfl rfl rfl rfl rfl, .deliver _ (.inr ⟨hp, v, hv, rfl⟩) rfl rfl rfl rfl rfl rfl,
        taskMove_same rfl rfl⟩
    · cases h

theorem move_grant (s : State) : Move s (grant s) := by
  unfold grant
  split
  · next h =>
    simp only [grantable, Bool.and_eq_true, decide_eq_true_eq, Bool.or_eq_true] at h
    split
    · next h1 h2 =>
      refine ⟨codecMove_of_eq rfl rfl rfl rfl rfl,
        .permit (.grant (Config.arbPick s.draws) h.1 ?_ rfl) rfl rfl rfl rfl rfl, taskMove_same rfl rfl⟩
      cases Config.arbPick s.draws <;> assumption
    · next h1 h2 =>
      exact ⟨codecMove_of_eq rfl rfl rfl rfl rfl, .permit (.grant .poll h.1 h1 rfl) rfl rfl rfl rfl rfl,
        taskMove_same rfl rfl⟩
    · next h1 =>
      have h2 : s.arb.waitCmd = true := by simpa [h1] using h.2
      exact ⟨codecMove_of_eq rfl rfl rfl rfl rfl, .permit (.grant .cmd h.1 h2 rfl) rfl rfl rfl rfl rfl,
        taskMove_same rfl rfl⟩
  · exact move_refl s

theorem move_beginCommand (c : Command) (p : List Byte) (s : State) : Move s (beginCommand c p s) := by
  unfold beginCommand
  split
  · next hr =>
    split
    · exact move_rejectCommand c _ s
    · next hp =>
      simp only [atRest, Bool.and_eq_true] at hr
      refine ⟨codecMove_build (Config.cmdId c).1 (Config.cmdId c).2 p s _ (by simpa using hp) ?_ ?_ ?_ ?_ ?_,
        .permit (.wait (issuer c) hr.2 ?_) ?_ ?_ ?_ ?_ ?_, taskMove_of (r := issuer c) (.begun
          ⟨c, frameOf (Config.cmdId c).1 (Config.cmdId c).2 p, .waiting⟩ ?_ rfl (wireBytes_frameOf (Config.cmdId c).1 (Config.cmdId c).2 p
            (by simpa using hp)).1 ?_) ?_⟩
      case refine_12 => cases c <;> rfl
      case refine_14 => cases c <;> rfl
      all_goals simp [startTransaction]
  · exact move_refuse s

theorem move_setIntent (c : Command) (b : Bool) (p : List Byte) (s : State) : Move s (setIntent c b p s) := by
  unfold setIntent
  split
  · exact move_beginCommand c p s
  · exact move_rejectCommand c _ s

/-- The end of a hold, whatever the reply. -/
theorem move_endHold (r : Requester) (s : State) (x : Reply) (h : releasable r s = true) :
    Move s (answer x (endHold r s)) := by
  refine ⟨codecMove_of_eq ?_ ?_ ?_ ?_ ?_, .permit (.release r h ?_ (endHold_task_same s r)) ?_ ?_ ?_ ?_ ?_,
    taskMove_of (.ended (endHold_task_same s r)) (endHold_task_other s r)⟩ <;> simp

theorem move_abandonWait (r : Requester) (s : State) (x : Reply) (h : s.arb.waiting r = true) :
    Move s (answer x (abandonWait r s)) := by
  refine ⟨codecMove_of_eq ?_ ?_ ?_ ?_ ?_, .permit (.unwait r h ?_ (abandonWait_task_same s r)) ?_ ?_ ?_ ?_ ?_,
    taskMove_of (.ended (abandonWait_task_same s r)) (abandonWait_task_other s r)⟩ <;> simp

theorem move_taskStep (r : Requester) (k : Task) (s : State) (hk : s.task r = some k) : Move s (taskStep r k s) := by
  unfold taskStep
  split
  · split
    · next h =>
      have hh : s.arb.holder = some r := by
        simp only [executable, Bool.and_eq_true, decide_eq_true_eq] at h; exact h.1.1
      refine ⟨codecMove_of_eq ?_ ?_ ?_ ?_ ?_, .accept r k.frame h ?_ ?_ ?_ ?_ ?_ ?_,
        taskMove_of (.running k hk (setTask_same _ r _) ?_) (setTask_other _ r _)⟩ <;> simp [hh]
    · exact move_refl s
  · split
    · next h => exact move_endHold r s (endHold r s).reply h
    · exact move_refl s

/-- A move from a state that differs from `s` only in its queues is a move from `s`. -/
theorem Move.of_queues {s t : State} {q : List Turn} {d : List (Query × List Byte)}
    (h : Move { s with schedule := q, todo := d } t) : Move s t := by
  obtain ⟨⟨h1, h2, h3, h4⟩, hc, ht⟩ := h
  refine ⟨⟨h1, h2, h3, h4⟩, ?_, fun q => ?_⟩
  · cases hc with
    | quiet a b c d e f => exact .quiet a b c d e f
    | permit m a b c d e =>
      refine .permit ?_ a b c d e
      cases m with
      | wait r h e => exact .wait r h e
      | unwait r h e f => exact .unwait r h e f
      | grant r h hw e => exact .grant r h hw e
      | release r h e f => exact .release r h e f
    | accept r f h a b c d e g => exact .accept r f h a b c d e g
    | write h hf a b c d e g => exact .write h hf a b c d e g
    | settle h a b c d e g => exact .settle h a b c d e g
    | capture w h hw a b c d e f => exact .capture w h hw a b c d e f
    | validate h a b c d e g => exact .validate h a b c d e g
    | deliver r h a b c d e g => exact .deliver r h a b c d e g
  · cases ht q with
    | same e => exact .same e
    | ended e => exact .ended e
    | begun k e hk hf hw => exact .begun k e hk hf hw
    | running k h e hh => exact .running k h e hh

theorem move_requesterTurn (r : Requester) (s : State) : Move s (requesterTurn r s) := by
  unfold requesterTurn
  split
  · next hk => exact move_taskStep _ _ s hk
  · unfold nextQuery
    split
    · split
      · exact (move_beginCommand _ _ { s with schedule := s.schedule, todo := _ }).of_queues
      · exact move_refl s
    · exact move_refl s
  · exact move_refl s

/-! ### The instructions -/

theorem move_exec (i : Instr) (s t : State) (h : exec i s = .next t) : Move s t := by
  cases i with
  | csum bs => cases h; exact move_quiet (codecMove_of_eq rfl rfl rfl rfl rfl) rfl rfl rfl rfl rfl (.inl rfl)
  | build c p =>
    simp only [exec, execBuild] at h
    split at h
    · split at h
      · cases h; exact move_raise _ s
      · next hp =>
        cases h
        exact move_quiet (codecMove_build _ _ p s _ (by simpa using hp) rfl rfl rfl rfl rfl) rfl rfl rfl rfl rfl (.inl rfl)
    · cases h; exact move_refuse s
  | esc p => cases h; exact move_quiet (codecMove_of_eq rfl rfl rfl rfl rfl) rfl rfl rfl rfl rfl (.inl rfl)
  | wire f =>
    simp only [exec, execWire] at h
    split at h
    · next hf =>
      cases h
      exact move_quiet ⟨rfl, .inl ⟨rfl, rfl⟩, .inr ⟨f, hf, rfl⟩, .inl rfl⟩ rfl rfl rfl rfl rfl (.inl rfl)
    · cases h; exact move_refuse s
  | validate raw =>
    cases h
    exact move_quiet ⟨rfl, .inl ⟨rfl, rfl⟩, .inl rfl, .inr (.inl ⟨raw, rfl⟩)⟩ rfl rfl rfl rfl rfl
      (verdictEvents_atMostOne s.log _)
  | unesc f n =>
    cases h
    exact move_quiet ⟨rfl, .inl ⟨rfl, rfl⟩, .inl rfl, .inr (.inr ⟨f, n, s.draws, rfl⟩)⟩ rfl rfl rfl rfl rfl
      (warnEvents_atMostOne s.log _)
  | exec r f =>
    simp only [exec, execExec] at h
    split at h
    · next hx =>
      cases h; exact ⟨codecMove_of_eq rfl rfl rfl rfl rfl, .accept r f hx rfl rfl rfl rfl rfl rfl, taskMove_same rfl rfl⟩
    · cases h; exact move_refuse s
  | acquire r =>
    simp only [exec, execAcquire] at h
    split at h
    · next hx =>
      cases h
      exact ⟨codecMove_of_eq rfl rfl rfl rfl rfl, .permit (.wait r hx rfl) rfl rfl rfl rfl rfl, taskMove_same rfl rfl⟩
    · cases h; exact move_refuse s
  | release r =>
    simp only [exec, execRelease] at h
    split at h
    · next hx => cases h; exact move_endHold r s _ hx
    · cases h; exact move_refuse s
  | cancel r =>
    simp only [exec, execCancel] at h
    split at h
    · next hx => cases h; exact move_abandonWait r s _ hx
    · cases h; exact move_refuse s
  | cw c0 c1 len wp k e0 e1 =>
    simp only [exec, execCw] at h
    split at h
    · next hx => cases h; exact move_writePhase s hx.1 hx.2.1
    · cases h; exact move_refuse s
  | ak => cases h; exact move_arrive _ s
  | rf c0 c1 len body e0 e1 => cases h; exact move_arrive _ s
  | setvent v p => cases h; exact move_setIntent _ _ p s
  | settemp v p => cases h; exact move_setIntent _ _ p s
  | gettemp p => cases h; exact move_beginCommand _ p s
  | getvent p => cases h; exact move_beginCommand _ p s
  | getfan p => cases h; exact move_beginCommand _ p s
  | getfilt p => cases h; exact move_beginCommand _ p s
  | getvalve p => cases h; exact move_beginCommand _ p s
  | getbyp p => cases h; exact move_beginCommand _ p s
  | getpreh p => cases h; exact move_beginCommand _ p s
  | gethours p => cases h; exact move_beginCommand _ p s
  | getunit p => cases h; exact move_beginCommand _ p s

/-- Every instruction answers a next state, whatever its operands and the state. -/
theorem exec_next (i : Instr) (s : State) : ∃ t, exec i s = .next t := by
  cases i with
  | build c p => simp only [exec, execBuild]; split <;> [split; skip] <;> exact ⟨_, rfl⟩
  | wire f => simp only [exec, execWire]; split <;> exact ⟨_, rfl⟩
  | exec r f => simp only [exec, execExec]; split <;> exact ⟨_, rfl⟩
  | acquire r => simp only [exec, execAcquire]; split <;> exact ⟨_, rfl⟩
  | release r => simp only [exec, execRelease]; split <;> exact ⟨_, rfl⟩
  | cancel r => simp only [exec, execCancel]; split <;> exact ⟨_, rfl⟩
  | cw c0 c1 len wp k e0 e1 => simp only [exec, execCw]; split <;> exact ⟨_, rfl⟩
  | _ => exact ⟨_, rfl⟩

/-! ### A turn, a step -/

theorem move_runTurn (u : Turn) (s t : State) (hu : u ≠ .reset) (h : runTurn u s = .next t) : Move s t := by
  cases u with
  | word w =>
    simp only [runTurn] at h
    split at h
    · exact move_exec _ s t h
    · cases h
      unfold undecoded
      split
      · exact move_arrive _ s
      all_goals exact move_refuse s
  | grant => cases h; exact move_grant s
  | sequencer => exact move_sequencer s t h
  | requester r => cases h; exact move_requesterTurn r s
  | timer => cases h; exact move_quiet (codecMove_of_eq rfl rfl rfl rfl rfl) rfl rfl rfl rfl rfl (.inl rfl)
  | reset => exact absurd rfl hu

theorem defaultTurn_ne_reset (s : State) : defaultTurn s ≠ some .reset := by
  unfold defaultTurn
  repeat' split
  all_goals simp

/-- Everything a step can do: a reset event, or a move. -/
theorem step_cases (s t : State) (h : step s = .next t) :
    (∃ rest, s.schedule = .reset :: rest ∧ t = resetEvent { s with schedule := rest }) ∨ Move s t := by
  unfold step at h
  split at h
  · next u rest hs =>
    by_cases hu : u = .reset
    · subst hu; cases h; exact .inl ⟨rest, hs, rfl⟩
    · exact .inr (move_runTurn u { s with schedule := rest, todo := s.todo } t hu h).of_queues
  · split at h
    · next u hd => exact .inr (move_runTurn u s t (fun he => defaultTurn_ne_reset s (he ▸ hd)) h)
    · cases h; exact .inr (move_refl s)

/-- A step that is no reset event is a move. -/
theorem step_move (s t : State) (hr : s.schedule.head? ≠ some .reset) (h : step s = .next t) : Move s t := by
  rcases step_cases s t h with ⟨rest, hs, _⟩ | hm
  · simp [hs] at hr
  · exact hm

end Sys2Proof.Machine
end

