-- ==== Sys2Proof/Laws/Run.lean ====
section
/-! SUPPORT. Runs of the machine, step by step: what each scheduled turn does, and the shared operations in the cases a
transaction goes through. -/

namespace Sys2Proof.Machine

/-! ### Runs -/

theorem run_zero (s : State) : Host.Core.run Sys2Proof.core 0 s = .next s := rfl

/-- A run of any machine whose first step answers `t` goes on from `t`. -/
theorem coreRun_succ (M : Host.Core) (k : Nat) (s t : M.State) (h : M.step s = .next t) : M.run (k + 1) s = M.run k t := by
  simp only [Host.Core.run, h]

/-- A run whose first step answers `t` goes on from `t`. -/
theorem run_succ (k : Nat) (s t : State) (h : step s = .next t) :
    Host.Core.run Sys2Proof.core (k + 1) s = Host.Core.run Sys2Proof.core k t := coreRun_succ Sys2Proof.core k s t h

/-! ### Scheduled turns -/

variable {s : State} {rest : List Turn}

theorem step_grant (h : s.schedule = .grant :: rest) : step s = .next (grant { s with schedule := rest }) := by
  simp only [step, h, runTurn]

theorem step_sequencer (h : s.schedule = .sequencer :: rest) : step s = sequencer { s with schedule := rest } := by
  simp only [step, h, runTurn]

theorem step_requester {r : Requester} (h : s.schedule = .requester r :: rest) :
    step s = .next (requesterTurn r { s with schedule := rest }) := by
  simp only [step, h, runTurn]

/-! ### The shared operations where they go ahead -/

theorem grant_of_alone (r : Requester) (hh : s.arb.holder = none) (hr : s.arb.waiting r = true)
    (ho : s.arb.waiting (otherRequester r) = false) : grant s = giveTo r s := by
  cases r
  · have h1 : s.arb.waitPoll = true := hr
    have h2 : s.arb.waitCmd = false := ho
    simp [grant, grantable, hh, h1, h2]
  · have h1 : s.arb.waitCmd = true := hr
    have h2 : s.arb.waitPoll = false := ho
    simp [grant, grantable, hh, h1, h2]

theorem requesterTurn_of_task {r : Requester} {k : Task} (h : s.task r = some k) : requesterTurn r s = taskStep r k s := by
  simp only [requesterTurn, h]

theorem taskStep_of_executable {r : Requester} {k : Task} (hk : k.stage = .waiting) (h : executable r k.frame s = true) :
    taskStep r k s = (beginTxn r k.frame s).setTask r (some { k with stage := .running }) := by
  simp only [taskStep, hk, h, if_true]

theorem taskStep_of_releasable {r : Requester} {k : Task} (hk : k.stage = .running) (h : releasable r s = true) :
    taskStep r k s = endHold r s := by
  simp only [taskStep, hk, h, if_true]

/-- A requester that waits for its grant, or for the end of its transaction, does nothing in its turn. -/
theorem taskStep_of_suspended {r : Requester} {k : Task} (hw : k.stage = .waiting → executable r k.frame s = false)
    (hr : k.stage = .running → releasable r s = false) : taskStep r k s = s := by
  unfold taskStep
  split
  · next hk => rw [if_neg (by simp [hw hk])]
  · next hk => rw [if_neg (by simp [hr hk])]

theorem sequencer_write (hp : s.txn.phase = .write) (hf : isFrame s.txn.sent = true) : sequencer s = .next (writePhase s) := by
  simp only [sequencer, hp, hf, if_true]

theorem sequencer_settle (hp : s.txn.phase = .settle) : sequencer s = .next (setPhase .drain s) := by
  simp only [sequencer, hp]

theorem sequencer_drain (hp : s.txn.phase = .drain) : sequencer s = .next (drainPhase s) := by
  simp only [sequencer, hp]

theorem sequencer_captured {w : List Byte} (hp : s.txn.phase = .drain) (h : nextWindow s = .captured w) :
    sequencer s = .next (setPhase .validate { s with
      raw := s.ch.arrived ++ w, ch := ⟨[], s.ch.windows.tail, s.ch.written⟩,
      draws := s.draws + if s.ch.windows = [] then 1 else 0 }) := by
  rw [sequencer_drain hp, drainPhase_captured h]

theorem sequencer_ceiling (hp : s.txn.phase = .drain) (h : nextWindow s = .ceilingHit) :
    sequencer s = .next (deliver (.failure .channelTimeout) { s with
      ch := ⟨[], s.ch.windows.tail, s.ch.written⟩, draws := s.draws + if s.ch.windows = [] then 1 else 0 }) := by
  rw [sequencer_drain hp, drainPhase_ceiling h]

theorem sequencer_validate (hp : s.txn.phase = .validate) : sequencer s = .next (validatePhase s) := by
  simp only [sequencer, hp]

theorem sequencer_classify {v : Verdict} (hp : s.txn.phase = .classify) (hv : s.txn.verdict = some v) :
    sequencer s = .next (deliver (classify v) s) := by
  simp only [sequencer, hp, hv]

/-! ### Requests that go ahead -/

theorem exec_cancel_of_waiting {r : Requester} (h : s.arb.waiting r = true) :
    exec (.cancel r) s = .next (answer .done (abandonWait r s)) := by simp only [exec, execCancel, h, if_true]

theorem exec_release_of_releasable {r : Requester} (h : releasable r s = true) :
    exec (.release r) s = .next (answer .done (endHold r s)) := by simp only [exec, execRelease, h, if_true]

theorem exec_exec_of_executable {r : Requester} {f : List Byte} (h : executable r f s = true) :
    exec (.exec r f) s = .next (answer .accepted (beginTxn r f s)) := by simp only [exec, execExec, h, if_true]

/-- A command frame that is the wire form of the frame in flight in phase WRITE is that phase's write. -/
theorem exec_cw_of_write {c0 c1 len k e0 e1 : Byte} {wp : List Byte} (hp : s.txn.phase = .write)
    (hf : isFrame s.txn.sent = true) (hw : wireBytes s.txn.sent = [START0, START1, c0, c1, len] ++ wp ++ [k, e0, e1]) :
    exec (.cw c0 c1 len wp k e0 e1) s = .next (writePhase s) := if_pos ⟨hp, hf, hw⟩

/-! ### The beginning of a command -/

/-- A command whose value is in range is what its requester begins. -/
theorem exec_commandInstr (c : Command) (value : Int) (p : List Byte) (s : State) (h : commandInRange c value) :
    exec (commandInstr c value p) s = .next (beginCommand c p s) := by
  cases c with
  | setVent =>
    have : ventInRange value = true := by simpa [ventInRange, commandInRange] using h
    simp only [commandInstr, exec, execSetvent, setIntent, this, if_true]
  | setTemp =>
    have : tempInRange value = true := by simpa [tempInRange, commandInRange] using h
    simp only [commandInstr, exec, execSettemp, setIntent, this, if_true]
  | get q => cases q <;> rfl

theorem atRest_iff (r : Requester) (s : State) : atRest r s = true ↔ idleRequester r s := by
  simp only [atRest, acquirable, idleRequester, Bool.and_eq_true, Option.isNone_iff_eq_none, decide_eq_true_eq,
    Bool.not_eq_true']

theorem beginCommand_of_atRest (c : Command) (p : List Byte) (s : State) (h : atRest (issuer c) s = true)
    (hp : p.length ≤ 255) : beginCommand c p s = startTransaction c p s := by
  rw [beginCommand, if_pos h, if_neg (by simpa using hp)]

/-- What a command that begins its transaction leaves behind, for the turns that follow. -/
theorem startTransaction_spec (c : Command) (p : List Byte) (s : State) :
    (startTransaction c p s).txn = s.txn ∧ (startTransaction c p s).ch = s.ch ∧
    (startTransaction c p s).arb = s.arb.setWaiting (issuer c) true ∧
    (startTransaction c p s).task (issuer c) =
      some ⟨c, frameOf (Config.cmdId c).1 (Config.cmdId c).2 p, .waiting⟩ ∧
    (startTransaction c p s).log = s.log ∧ (startTransaction c p s).reports = s.reports := by
  refine ⟨?_, ?_, ?_, ?_, ?_, ?_⟩
  · simp [startTransaction]
  · simp [startTransaction]
  · simp [startTransaction]
  · cases c <;> rfl
  · simp [startTransaction]
  · simp [startTransaction]

end Sys2Proof.Machine
end

