-- ==== Sys2Proof/Tests/Slice0.lean ====
section
/-! SUPPORT. Tests: the smoke of WellFormed, words written out from the spec's encodings, the vectors of 95_test_vectors.md
on single steps, and a witness for every statement that has hypotheses. -/

namespace Sys2Proof.Tests

open Sys2Proof Sys2Proof.Machine

/-! ## Helpers -/

/-- A bench: the machine after reset with a small configuration written out. -/
def bench : State := { State.reset with cfg := ⟨2, 1, 5, 1⟩ }

/-- The bench with the permit held by `CMD`. -/
def held : State := { bench with arb := ⟨some .cmd, false, false⟩ }

/-- The frame B11 of 95_test_vectors.md. -/
def b11 : List Byte := [0x07, 0xF0, 0x10, 0x32, 0x01, 0x02, 0xF2, 0x07, 0x0F]

/-- The logical frame B3 of 95_test_vectors.md, and its wire bytes. -/
def b3 : List Byte := [0x07, 0xF0, 0xAA, 0xBB, 0x01, 0x07, 0x1A, 0x07, 0x0F]
def b3wire : List Byte := [0x07, 0xF0, 0xAA, 0xBB, 0x01, 0x07, 0x07, 0x1A, 0x07, 0x0F]

/-- The capture V8 of 95_test_vectors.md. -/
def v8 : List Byte := [0x07, 0xF3, 0x07, 0xF0, 0x00, 0x0F, 0x00, 0x86, 0x07, 0x0F]

/-- A transaction of `CMD` in flight, in phase WRITE, begun by its task; `FR` still holds the frame it was built as. -/
def inFlight : State := { held with
  tx := ⟨0xAA, 0xBB, 0x01, [0x07], 0x1A⟩, fr := ⟨true, b3⟩, txn := ⟨.write, .cmd, b3, none⟩,
  taskCmd := some ⟨.setVent, b3, .running⟩ }

/-- `CMD` waits with a command behind `POLL`, which holds the permit. -/
def queued : State := { bench with
  arb := ⟨some .poll, false, true⟩, taskCmd := some ⟨.setVent, b3, .waiting⟩ }

/-- A state whose next read window gives `d`, behind the bytes `bs` that wait. -/
def withWindow (s : State) (bs : List Byte) (d : Drain) : State := { s with ch := ⟨bs, [d], []⟩ }

/-- The next state of an outcome. -/
def nextOf : Host.Outcome State Fault Refusal → Option State
  | .next s => some s
  | .fault _ => none
  | .refused _ => none

/-- The command ids of 93_implementation_defined.md item G2, which are an example here and no part of the model. -/
def ids : Command → Byte × Byte
  | .setVent => (0x00, 0x99)
  | .setTemp => (0x00, 0xD3)
  | .get .temp => (0x00, 0xD1)
  | .get .vent => (0x00, 0xCD)
  | .get .fan => (0x00, 0x0B)
  | .get .filt => (0x00, 0xD9)
  | .get .valve => (0x00, 0x0D)
  | .get .byp => (0x00, 0xDF)
  | .get .preh => (0x00, 0xE1)
  | .get .hours => (0x00, 0xDD)
  | .get .unit => (0x00, 0xD5)

/-- A payload of `n` bytes `0x07`. -/
def long (n : Nat) : List Byte := List.replicate n 0x07

theorem long_length (n : Nat) : (long n).length = n := List.length_replicate

/-! ## WellFormed refuses -/

theorem test_wf_build_command : wellFormed (.build [0xAA] []) = false := by decide
theorem test_wf_wire_short : wellFormed (.wire [0x07, 0xF0, 0xAA, 0xBB, 0x00, 0x12, 0x07]) = false := by decide
theorem test_wf_wire_length : wellFormed (.wire [0x07, 0xF0, 0x10, 0x32, 0x05, 0x02, 0xF2, 0x07, 0x0F]) = false := by
  decide
theorem test_wf_exec : wellFormed (.exec .poll []) = false := by decide
theorem test_wf_cw_payload : wellFormed (.cw 0xAA 0xBB 0x01 [0x07] 0x1A 0x07 0x0F) = false := by decide
theorem test_wf_cw_checksum : wellFormed (.cw 0xAA 0xBB 0x01 [0x07, 0x07] 0x1B 0x07 0x0F) = false := by decide
theorem test_wf_cw_end : wellFormed (.cw 0xAA 0xBB 0x01 [0x07, 0x07] 0x1A 0x07 0x0E) = false := by decide
theorem test_wf_rf_body_empty : wellFormed (.rf 0 0x0F 0 [] 0x07 0x0F) = false := by decide
theorem test_wf_rf_body_long : wellFormed (.rf 0 0x0F 0 [0x01, 0x86] 0x07 0x0F) = false := by decide
theorem test_wf_rf_end : wellFormed (.rf 0 0x0F 0 [0x86] 0x07 0x0E) = false := by decide
theorem test_wf_command_payload : wellFormed (.gettemp (long 256)) = false := by
  simp only [wellFormed, payloadFits, long_length]; decide

/-! ## Words written out from the encodings (30_encoding.md R72 to R74, R86, R88, R89; Log 2, 3) decode -/

theorem test_decode_csum : decode ⟨.request, [0x01, 0x02, 0x53, 0x07]⟩ = .ok (.csum [0x53, 0x07]) := by rfl
theorem test_decode_build : decode ⟨.request, [0x02, 0xAA, 0xBB, 0x01, 0x07]⟩ = .ok (.build [0xAA, 0xBB] [0x07]) := by rfl
theorem test_decode_esc : decode ⟨.request, [0x03, 0x00]⟩ = .ok (.esc []) := by rfl
theorem test_decode_wire : decode ⟨.request, [0x04, 0x01, 0x07]⟩ = .ok (.wire [0x07]) := by rfl
theorem test_decode_validate : decode ⟨.request, [0x05, 0x02, 0x07, 0xF3]⟩ = .ok (.validate [0x07, 0xF3]) := by rfl
theorem test_decode_unesc : decode ⟨.request, [0x06, 0x05, 0x02, 0x11, 0x22]⟩ = .ok (.unesc [0x11, 0x22] 0x05) := by rfl
theorem test_decode_exec : decode ⟨.request, [0x17, 0x02, 0x07, 0xF0]⟩ = .ok (.exec .cmd [0x07, 0xF0]) := by rfl
theorem test_decode_acquire : decode ⟨.request, [0x18]⟩ = .ok (.acquire .cmd) := by rfl
theorem test_decode_release : decode ⟨.request, [0x09]⟩ = .ok (.release .poll) := by rfl
theorem test_decode_cancel : decode ⟨.request, [0x1A]⟩ = .ok (.cancel .cmd) := by rfl
theorem test_decode_cw :
    decode ⟨.write, b3wire⟩ = .ok (.cw 0xAA 0xBB 0x01 [0x07, 0x07] 0x1A 0x07 0x0F) := by rfl
theorem test_decode_ak : decode ⟨.line, [0x07, 0xF3]⟩ = .ok .ak := by rfl
theorem test_decode_rf : decode ⟨.line, v8⟩ = .ok (.rf 0x00 0x0F 0x00 [0x86] 0x07 0x0F) := by rfl

/-- 93_implementation_defined.md item G4. -/
theorem test_decode_setvent : decodeWith ids ⟨.intent 2, [0x07, 0xF0, 0x00, 0x99, 0x01, 0x02, 0x49, 0x07, 0x0F]⟩ =
    .ok (.setvent 2 [0x02]) := by rfl
theorem test_decode_settemp : decodeWith ids ⟨.intent 20, [0x07, 0xF0, 0x00, 0xD3, 0x01, 0x50, 0xD1, 0x07, 0x0F]⟩ =
    .ok (.settemp 20 [0x50]) := by rfl
theorem test_decode_gettemp :
    decodeWith ids ⟨.query, [0x07, 0xF0, 0x00, 0xD1, 0x00, 0x7E, 0x07, 0x0F]⟩ = .ok (.gettemp []) := by rfl
theorem test_decode_getvent :
    decodeWith ids ⟨.query, [0x07, 0xF0, 0x00, 0xCD, 0x00, 0x7A, 0x07, 0x0F]⟩ = .ok (.getvent []) := by rfl
theorem test_decode_getfan :
    decodeWith ids ⟨.query, [0x07, 0xF0, 0x00, 0x0B, 0x00, 0xB8, 0x07, 0x0F]⟩ = .ok (.getfan []) := by rfl
/-- The checksum `86` of `00 d9 00` is vector K2. -/
theorem test_decode_getfilt :
    decodeWith ids ⟨.query, [0x07, 0xF0, 0x00, 0xD9, 0x00, 0x86, 0x07, 0x0F]⟩ = .ok (.getfilt []) := by rfl
theorem test_decode_getvalve :
    decodeWith ids ⟨.query, [0x07, 0xF0, 0x00, 0x0D, 0x00, 0xBA, 0x07, 0x0F]⟩ = .ok (.getvalve []) := by rfl
theorem test_decode_getbyp :
    decodeWith ids ⟨.query, [0x07, 0xF0, 0x00, 0xDF, 0x00, 0x8C, 0x07, 0x0F]⟩ = .ok (.getbyp []) := by rfl
theorem test_decode_getpreh :
    decodeWith ids ⟨.query, [0x07, 0xF0, 0x00, 0xE1, 0x00, 0x8E, 0x07, 0x0F]⟩ = .ok (.getpreh []) := by rfl
theorem test_decode_gethours :
    decodeWith ids ⟨.query, [0x07, 0xF0, 0x00, 0xDD, 0x00, 0x8A, 0x07, 0x0F]⟩ = .ok (.gethours []) := by rfl
theorem test_decode_getunit :
    decodeWith ids ⟨.query, [0x07, 0xF0, 0x00, 0xD5, 0x00, 0x82, 0x07, 0x0F]⟩ = .ok (.getunit []) := by rfl

/-! Words that are refused by name. -/

theorem test_decode_reserved_zero : decode ⟨.request, [0x00]⟩ = .error (.reservedSelect 0) := by rfl
theorem test_decode_reserved_high : decode ⟨.request, [0x0B]⟩ = .error (.reservedSelect 11) := by rfl
theorem test_decode_requester_bits : decode ⟨.request, [0x28]⟩ = .error .reservedBits := by rfl
theorem test_decode_truncated : decode ⟨.request, [0x01, 0x02, 0x53]⟩ = .error .truncated := by rfl
theorem test_decode_no_kind : decode ⟨.line, [0x07, 0xF3, 0x00]⟩ = .error .noFrameKind := by rfl
/-- Bytes of the device without the acknowledgment prefix are no frame of it (30_encoding.md R82). -/
theorem test_decode_device_cw : decode ⟨.line, b3wire⟩ = .error .noFrameKind := by rfl
theorem test_decode_unknown_command :
    decodeWith ids ⟨.query, [0x07, 0xF0, 0xAA, 0xBB, 0x00, 0x12, 0x07, 0x0F]⟩ = .error .unknownCommand := by rfl
/-- A length byte of 255 goes on (Log 3). -/
theorem test_decode_length : decodeLength [0xFF, 0x01, 0x33] = some (256, [0x33]) := by decide

/-! The words of spec/opcode_table.json, and a step that runs one. -/

theorem test_table_csum : decodeTableWord 8 0x1 = some (.csum []) := by rfl
theorem test_table_build : decodeTableWord 8 0x2 = some (.build [0, 0] []) := by rfl
theorem test_table_unesc : decodeTableWord 8 0x6 = some (.unesc [] 0) := by rfl
theorem test_table_exec : decodeTableWord 8 0x7 = some (.exec .poll []) := by rfl
theorem test_table_cancel : decodeTableWord 8 0xA = some (.cancel .poll) := by rfl
theorem test_table_cw : decodeTableWord 16 0x07F0 = some (.cw 0 0 0 [] 0 0 0) := by rfl
theorem test_table_ak : decodeTableWord 16 0x07F3 = some .ak := by rfl
theorem test_table_rf : decodeTableWord 32 0x07F307F0 = some (.rf 0 0 0 [0] 0 0) := by rfl

theorem test_fetch_csum : (nextOf (step (State.reset.withFetchWord 8 0x1))).map (·.reply) = some (.byte 0xAD) := by decide
theorem test_fetch_ak : (nextOf (step (State.reset.withFetchWord 16 0x07F3))).map (·.ch.arrived) = some [0x07, 0xF3] := by
  decide

/-! ## Single steps -/

/-- K10. -/
theorem test_csum_repeats : (nextOf (exec (.csum [0x01, 0x02, 0x07, 0x07, 0x07, 0x07, 0x07, 0x07, 0x07, 0x07]) bench)).map
    (fun s => (s.reply, s.cs)) = some (.byte 0xB7, ⟨0xB7, true⟩) := by decide
/-- K12. -/
theorem test_csum_wraps : replyOf (exec (.csum [0x53]) bench) = some (.byte 0x00) := by decide
/-- B7. -/
theorem test_build_command_07 : (nextOf (exec (.build [0x07, 0x07] [0x07]) bench)).map (·.fr) =
    some ⟨true, [0x07, 0xF0, 0x07, 0x07, 0x01, 0x07, 0xB5, 0x07, 0x0F]⟩ := by decide
/-- B16. -/
theorem test_build_too_large : (nextOf (exec (.build [0x01, 0x02] (long 256)) bench)).map
    (fun s => (s.reply, s.fr, s.log)) = some (.error .payloadTooLarge, ⟨false, []⟩, [.payloadTooLarge]) := by
  simp only [exec, execBuild, long_length]; rfl
/-- E6. -/
theorem test_esc : replyOf (exec (.esc [0x07, 0x00, 0x07]) bench) =
    some (.bytes [0x07, 0x07, 0x00, 0x07, 0x07]) := by decide
/-- B12: a checksum byte `07` is not doubled. -/
theorem test_wire_checksum_07 :
    (nextOf (exec (.wire [0x07, 0xF0, 0x00, 0x00, 0x01, 0x59, 0x07, 0x07, 0x0F]) bench)).map (·.txw) =
      some [0x07, 0xF0, 0x00, 0x00, 0x01, 0x59, 0x07, 0x07, 0x0F] := by decide
/-- P6, operation 5. -/
theorem test_wire_refused : replyOf (exec (.wire [0x07, 0xF0, 0x10, 0x32, 0x05, 0x02, 0xF2, 0x07, 0x0F]) bench) =
    some .refused := by decide
/-- V19. -/
theorem test_validate_v19 : replyOf (exec (.validate [0x07, 0xF3, 0x07, 0xF0, 0x00, 0xD2, 0x06, 0x07, 0x07, 0x07, 0x07,
    0x01, 0x02, 0x07, 0x07, 0x0F]) bench) = some (.checked
      [0x07, 0xF3, 0x07, 0xF0, 0x00, 0xD2, 0x06, 0x07, 0x07, 0x01, 0x02, 0x07, 0x0F] false) := by decide
/-- V17: one event for the warning. -/
theorem test_validate_v17 : (nextOf (exec (.validate [0x07, 0xF3, 0x07, 0xF0, 0x00, 0xD2, 0x04, 0x07, 0x07, 0x0F])
    bench)).map (fun s => (s.reply, s.log, s.rx.oor)) = some (.checked
      [0x07, 0xF3, 0x07, 0xF0, 0x00, 0xD2, 0x04, 0x07, 0x0F] true, [.indexOutOfRange], true) := by decide
/-- Q4. -/
theorem test_unesc_q4 :
    replyOf (exec (.unesc [0x07, 0xF3, 0x07, 0xF0, 0x00, 0xD2, 0x03, 0x07, 0x07, 0x07, 0x07, 0x0F] 3) bench) =
      some (.checked [0x07, 0xF3, 0x07, 0xF0, 0x00, 0xD2, 0x03, 0x07, 0x07, 0x0F] false) := by decide
/-- Q5. -/
theorem test_unesc_q5 : replyOf (exec (.unesc [0x00, 0x00, 0x00, 0x00, 0x00, 0x00, 0x00, 0x07] 5) bench) =
    some (.checked [0x00, 0x00, 0x00, 0x00, 0x00, 0x00, 0x00, 0x07] true) := by decide
/-- X9 as accepted: the transaction stands before its write. -/
theorem test_exec_accepted : (nextOf (exec (.exec .cmd b3) held)).map (·.txn) = some ⟨.write, .cmd, b3, none⟩ := by decide
/-- X8. -/
theorem test_exec_refused : (nextOf (exec (.exec .poll b11) held)).map (fun s => (s.reply, s.txn.phase)) =
    some (.refused, .idle) := by decide
/-- A1. -/
theorem test_acquire : (nextOf (exec (.acquire .cmd) bench)).map (·.arb) = some ⟨none, false, true⟩ := by decide
/-- A5. -/
theorem test_acquire_refused : (nextOf (exec (.acquire .cmd) held)).map (fun s => (s.reply, s.arb)) =
    some (.refused, ⟨some .cmd, false, false⟩) := by decide
/-- A7, by a requester whose transaction has been delivered: its command ends with a report of `OUT` (Log 35). -/
theorem test_release : (nextOf (exec (.release .cmd) { inFlight with
    arb := ⟨some .cmd, true, false⟩, txn := ⟨.idle, .cmd, b3, none⟩, out := Result.ack.out })).map
      (fun s => (s.arb, s.taskCmd, s.reports)) =
    some (⟨none, true, false⟩, none, [.done .setVent ⟨.ack, [0x07, 0xF3], none, false⟩]) := by decide
/-- A9. -/
theorem test_release_in_flight : (nextOf (exec (.release .cmd) inFlight)).map (fun s => (s.reply, s.arb.holder)) =
    some (.refused, some .cmd) := by decide
/-- A10, with a command behind the wait: the body is not run (44_arbiter.md R190). -/
theorem test_cancel : (nextOf (exec (.cancel .cmd) queued)).map (fun s => (s.arb, s.taskCmd, s.reports)) =
    some (⟨some .poll, false, false⟩, none, []) := by decide
/-- A11. -/
theorem test_cancel_refused : replyOf (exec (.cancel .cmd) { bench with arb := ⟨some .poll, false, false⟩ }) =
    some .refused := by decide
/-- X9, the write: the channel receives the escaped bytes. -/
theorem test_cw_written : (nextOf (exec (.cw 0xAA 0xBB 0x01 [0x07, 0x07] 0x1A 0x07 0x0F) inFlight)).map
    (fun s => (s.ch.written, s.txn.phase)) = some (b3wire, .settle) := by decide
/-- 70_reset_and_hazards.md R247: nothing reaches the channel outside a transaction. -/
theorem test_cw_refused : (nextOf (exec (.cw 0xAA 0xBB 0x01 [0x07, 0x07] 0x1A 0x07 0x0F) bench)).map
    (fun s => (s.reply, s.ch.written)) = some (.refused, []) := by decide
/-- The tail of a late response that begins `07 f0` waits in `CH` (60_exceptions.md R217, 70_reset_and_hazards.md R256). -/
theorem test_device_tail_arrives : (nextOf (step { inFlight with schedule := [.word ⟨.line, b3wire⟩] })).map
    (fun s => (s.ch.arrived, s.txn.phase)) = some (b3wire, .write) := by decide
theorem test_ak_arrives : (nextOf (exec .ak bench)).map (·.ch.arrived) = some [0x07, 0xF3] := by decide
theorem test_rf_arrives : (nextOf (exec (.rf 0x00 0x0F 0x00 [0x86] 0x07 0x0F) bench)).map (·.ch.arrived) = some v8 := by
  decide
/-- X3. -/
theorem test_ceiling : (nextOf (step { inFlight with
    txn := ⟨.drain, .cmd, b3, none⟩, ch := ⟨[0x07], [.ceilingHit], []⟩, schedule := [.sequencer] })).map
      (fun s => (s.out, s.log, s.txn.phase, s.arb.holder)) =
    some (⟨.failure, [], some .channelTimeout, false⟩, [.channelTimeout], .idle, some .cmd) := by decide
/-- X7: best effort is `Data` with the warning, and one event with code 4. -/
theorem test_classify_warning : (nextOf (step { inFlight with
    txn := ⟨.classify, .cmd, b3, some (.ok v8 true)⟩, schedule := [.sequencer] })).map (fun s => (s.out, s.log)) =
    some (⟨.data, v8, none, true⟩, [.indexOutOfRange]) := by decide
/-- A2. -/
theorem test_grant : (nextOf (step { bench with arb := ⟨none, false, true⟩, schedule := [.grant] })).map (·.arb) =
    some ⟨some .cmd, false, false⟩ := by decide
/-- 44_arbiter.md R198, P6 operation 6. -/
theorem test_setvent_rejected : (nextOf (exec (.setvent (Config.ventLevelMin - 1) []) bench)).map
    (fun s => (s.reply, s.log)) = some (.error .outOfRange, [.outOfRange]) := by
  have : ventInRange (Config.ventLevelMin - 1) = false := by simp [ventInRange]
  simp only [exec, execSetvent, setIntent, this]; rfl
theorem test_settemp_rejected : (nextOf (exec (.settemp (Config.comfortTempMax + 1) []) bench)).map (·.arb.waitCmd) =
    some false := by
  have : tempInRange (Config.comfortTempMax + 1) = false := by simp [tempInRange]
  simp only [exec, execSettemp, setIntent, this]; rfl
/-- P2, operations 1 and 2, for each query: `POLL` waits, and remembers which query it carries out. -/
theorem test_queries_wait : (nextOf (exec (.gettemp []) bench)).map (fun s => (s.arb.waitPoll, s.taskPoll.map (·.command)))
    = some (true, some (.get .temp)) := by decide
theorem test_getvent : (nextOf (exec (.getvent []) bench)).map (·.taskPoll.map (·.command)) = some (some (.get .vent)) := by
  decide
theorem test_getfan : (nextOf (exec (.getfan []) bench)).map (·.taskPoll.map (·.command)) = some (some (.get .fan)) := by
  decide
theorem test_getfilt : (nextOf (exec (.getfilt []) bench)).map (·.taskPoll.map (·.command)) = some (some (.get .filt)) := by
  decide
theorem test_getvalve : (nextOf (exec (.getvalve []) bench)).map (·.taskPoll.map (·.command)) = some (some (.get .valve))
    := by decide
theorem test_getbyp : (nextOf (exec (.getbyp []) bench)).map (·.taskPoll.map (·.command)) = some (some (.get .byp)) := by
  decide
theorem test_getpreh : (nextOf (exec (.getpreh []) bench)).map (·.taskPoll.map (·.command)) = some (some (.get .preh)) := by
  decide
theorem test_gethours : (nextOf (exec (.gethours []) bench)).map (·.taskPoll.map (·.command)) = some (some (.get .hours))
    := by decide
theorem test_getunit : (nextOf (exec (.getunit []) bench)).map (·.taskPoll.map (·.command)) = some (some (.get .unit)) := by
  decide

/-! ## Witnesses: for every statement with hypotheses, states and operands that meet them, clause by clause -/

/-- The invariant holds in a state with a transaction in flight. -/
theorem inv_inFlight : Inv inFlight where
  permit := fun _ => rfl
  waiting := fun r => by cases r <;> decide
  sent := fun _ => by decide
  verdict := rfl
  raw := .inl rfl
  fr := fun _ => ⟨by decide, rfl, by decide⟩
  txw := .inl rfl
  rx := by decide
  out := rfl
  task := fun r k h => by
    cases r
    · cases h
    · obtain rfl := Option.some.inj h
      exact ⟨by decide, fun h => absurd h (by decide), fun _ => rfl⟩
  timeout := by decide

/-- The transaction in flight in phase `p` with the capture `raw` and the verdict `v`, and a sequencer's turn to come. -/
def later (p : Phase) (raw : List Byte) (v : Option Verdict) : State := { inFlight with
  txn := ⟨p, .cmd, b3, v⟩, raw := raw, schedule := [.sequencer] }

theorem inv_later (p : Phase) (raw : List Byte) (v : Option Verdict) (hp : p = .validate ∨ p = .classify)
    (hv : v = if p = .classify then some (validate raw) else none) : Inv (later p raw v) where
  permit := fun _ => rfl
  waiting := inv_inFlight.waiting
  sent := fun _ => inv_inFlight.sent (by decide)
  verdict := hv
  raw := .inr hp
  fr := inv_inFlight.fr
  txw := inv_inFlight.txw
  rx := inv_inFlight.rx
  out := inv_inFlight.out
  task := inv_inFlight.task
  timeout := inv_inFlight.timeout

/-- The command ids of item G2 differ. -/
theorem ids_injective : Function.Injective ids := by
  intro a b h
  cases a <;> cases b <;> first
    | rfl
    | (rename_i q; cases q <;> cases h)
    | (rename_i q r; cases q <;> cases r <;> first | rfl | cases h)
    | cases h

/-- Command ids that give set-ventilation-level the pair of B11. -/
theorem witness_SpecWordsDecode : ∃ ids : Command → Byte × Byte, ids .setVent = (0x10, 0x32) := ⟨fun _ => (0x10, 0x32), rfl⟩
theorem witness_StepRunsDecodedWord_runs : ({ bench with schedule := [.word ⟨.line, [0x07, 0xF3]⟩] } : State).schedule =
    .word ⟨.line, [0x07, 0xF3]⟩ :: [] ∧ decode ⟨.line, [0x07, 0xF3]⟩ = .ok .ak := ⟨rfl, rfl⟩
theorem witness_StepRunsDecodedWord_refused : decode ⟨.request, []⟩ = .error .empty ∧ Source.request ≠ .line :=
  ⟨rfl, by decide⟩
theorem witness_StepRunsDecodedWord_noise : decode ⟨.line, [0x55]⟩ = .error .noFrameKind := rfl

theorem witness_DecodeEncodeRoundTrip : Function.Injective ids ∧ wellFormed (.setvent 2 (long 255)) = true ∧
    wellFormed (.cw 0xAA 0xBB 0x01 [0x07, 0x07] 0x1A 0x07 0x0F) = true ∧ wellFormed (.rf 0 0 255 [0] 0x07 0x0F) = true :=
  ⟨ids_injective, by simp only [wellFormed, payloadFits, long_length]; decide, by decide, by decide⟩
theorem witness_EncodeDecodeRoundTrip : decodeWith ids ⟨.request, [0x17, 0x02, 0x07, 0xF0]⟩ = .ok (.exec .cmd [0x07, 0xF0]) :=
  rfl
theorem witness_ReservedSelectRefused : (0x00 : Byte).toNat % 16 = 0 ∧ 0xB ≤ (0x0B : Byte).toNat % 16 ∧
    0xB ≤ (0xFF : Byte).toNat % 16 := by decide

theorem witness_ChecksumIgnoresRepeatsAndWraps : (0x07 : Byte) ∈ ([] : List Byte) ++ [0x07] ∧
    replyOf (exec (.esc [0x07]) bench) = some (.bytes [0x07, 0x07]) ∧ (0x07 : Byte) ∉ ([0xFF, 0x01] : List Byte) ∧
    (([0xFF, 0x01] : List Byte).map BitVec.toNat).sum % 256 = (([] : List Byte).map BitVec.toNat).sum % 256 := by decide
theorem witness_BuildFrameLayout : ([] : List Byte).length ≤ 255 ∧ (long 255).length ≤ 255 := by
  rw [long_length]; decide
theorem witness_BuildPayloadLimit :
    (long 255).length = 255 ∧ 256 ≤ (long 256).length := by rw [long_length, long_length]; decide
theorem witness_OperandsOutsideTheirTypeRefused : ([] : List Byte).length ≠ 2 ∧ ([1, 2, 3] : List Byte).length ≠ 2 ∧
    ([0, 0, 0, 0, 0, 0, 0] : List Byte).length < 8 ∧
    ([0, 0, 0, 0, 1, 0, 0, 0] : List Byte).length ≠ 8 + (([0, 0, 0, 0, 1, 0, 0, 0] : List Byte).getD 4 0).toNat := by decide
theorem witness_WireResult_shortest : ([0x07, 0xF0, 0xAA, 0xBB, 0x00] : List Byte).length = 5 ∧
    ([0x07, 0xF0, 0xAA, 0xBB, 0x00] : List Byte)[4]? = some (BitVec.ofNat 8 ([] : List Byte).length) ∧
    ([0x12, 0x07, 0x0F] : List Byte).length = 3 := by decide
theorem witness_WireResult_longest : (long 255).length ≤ 255 ∧
    ([0x07, 0xF0, 0x01, 0x02, 0xFF] : List Byte)[4]? = some (BitVec.ofNat 8 (long 255).length) := by
  rw [long_length]; decide

theorem witness_ValidateShortCaptures : ([0x07] : List Byte).length ≤ 1 ∧ 2 ≤ ([0x07, 0xF0] : List Byte).length ∧
    ([0x07, 0xF0] : List Byte) ≠ [0x07, 0xF3] ∧ (List.replicate 9 (0 : Byte)).length ≤ 9 ∧
    List.replicate 9 (0 : Byte) ≠ [0x07, 0xF3] := by decide
/-- V12. -/
theorem witness_ValidateMalformed :
    10 ≤ ([0x07, 0xF3, 0x07, 0xF0, 0x00, 0x0F, 0x00, 0x86, 0x07, 0x0E] : List Byte).length ∧
    ¬ marked (kept [0x07, 0xF3, 0x07, 0xF0, 0x00, 0x0F, 0x00, 0x86, 0x07, 0x0E]) := by unfold marked; decide
theorem witness_ValidateAccepts : 10 ≤ v8.length ∧ marked (kept v8) := by unfold marked; decide
theorem witness_ValidateErrorKinds : replyOf (exec (.validate []) bench) = some (.error .incomplete) ∧
    replyOf (exec (.validate [0x07, 0xF0]) bench) = some (.error .tooShort) ∧
    replyOf (exec (.validate (List.replicate 10 0)) bench) = some (.error .malformedFrame) := by decide
theorem witness_ValidateTrailingBytes : 10 ≤ v8.length ∧ v8.length = (v8.getD 6 0).toNat + 10 ∧ ([0x00] : List Byte) ≠ [] := by
  decide
theorem witness_CaptureBufferMayDropExcess : 265 ≤ 265 := by decide
/-- V25, and a full-length part with three pairs. -/
theorem witness_UnescResult : (1 : Byte).toNat ≤ 1 ∧
    ([0x07, 0xF3, 0x07, 0xF0, 0x00, 0xD2, 0x0A, 0x07, 0x07, 0x07, 0x07, 0x07, 0x07, 0x07, 0x07, 0x07, 0x07, 0xAA, 0x07, 0x0F]
      : List Byte).length = (10 : Byte).toNat + 10 ∧
    replyOf (exec (.unesc [0x07, 0xF3, 0x07, 0xF0, 0x00, 0xD2, 0x0A, 0x07, 0x07, 0x07, 0x07, 0x07, 0x07, 0x07, 0x07, 0x07,
      0x07, 0xAA, 0x07, 0x0F] 10) bench) = some (.checked [0x07, 0xF3, 0x07, 0xF0, 0x00, 0xD2, 0x0A, 0x07, 0x07, 0x07, 0x07,
      0x07, 0xAA, 0x07, 0x0F] true) ∧
    replyOf (exec (.unesc [0x07, 0xF3, 0x07, 0xF0, 0x00, 0xD2, 0x06, 0x07, 0x07, 0x07, 0x07, 0x07, 0x07, 0xAA, 0x07, 0x0F] 6)
      bench) = some (.checked [0x07, 0xF3, 0x07, 0xF0, 0x00, 0xD2, 0x06, 0x07, 0x07, 0x07, 0xAA, 0x07, 0x0F] false) := by
  decide
/-- Q5: a short part. Then, with `N + 6` bytes left and a `07` last, the pair that is not there and the pair that was. -/
theorem witness_UnescResult_short : 2 ≤ (5 : Byte).toNat ∧
    replyOf (exec (.unesc [0, 0, 0, 0, 0, 0, 0, 7] 5) bench) = some (.checked [0, 0, 0, 0, 0, 0, 0, 7] true) ∧
    ([0, 0, 0, 0, 0, 0, 0, 7] : List Byte).length ≤ (5 : Byte).toNat + 5 ∧
    ([0, 0, 0, 0, 0, 0, 0, 7] : List Byte).length = (2 : Byte).toNat + 6 ∧
    ([0, 0, 0, 0, 0, 0, 0, 7] : List Byte)[(2 : Byte).toNat + 5]? = some 0x07 ∧
    ([0, 0, 0, 0, 0, 0, 0, 1] : List Byte)[(2 : Byte).toNat + 5]? ≠ some 0x07 ∧
    replyOf (exec (.unesc [0, 0, 0, 0, 0, 0, 0, 7] 2) bench) = some (.checked [0, 0, 0, 0, 0, 0, 0, 7] true) ∧
    replyOf (exec (.unesc [0, 0, 0, 0, 0, 0, 0, 7, 7] 2) bench) = some (.checked [0, 0, 0, 0, 0, 0, 0, 7] false) := by decide
theorem witness_UnescResult_sizes : (long 265).length ≤ 265 ∧ 265 < (long 266).length :=
  ⟨(long_length 265).le, by rw [long_length]; decide⟩
/-- The second bytes of the pairs that are none are looked at too; and a frame that ends with the scanned range. -/
theorem witness_UnescWithoutPairs : (∀ i, 7 ≤ i → i ≤ 5 + (2 : Byte).toNat →
      ¬ (([0, 0, 0, 0, 0, 0, 0, 7, 1] : List Byte)[i]? = some 0x07 ∧ ([0, 0, 0, 0, 0, 0, 0, 7, 1] : List Byte)[i + 1]? = some 0x07)) ∧
    (2 : Byte).toNat + 7 ≤ ([0, 0, 0, 0, 0, 0, 0, 7, 1] : List Byte).length ∧
    (∀ i, 7 ≤ i → i ≤ 5 + (2 : Byte).toNat →
      ¬ (([0, 0, 0, 0, 0, 0, 0, 7] : List Byte)[i]? = some 0x07 ∧ ([0, 0, 0, 0, 0, 0, 0, 7] : List Byte)[i + 1]? = some 0x07)) ∧
    ([0, 0, 0, 0, 0, 0, 0, 7] : List Byte).length = 6 + (2 : Byte).toNat ∧
    ([0, 0, 0, 0, 0, 0, 0, 7] : List Byte)[5 + (2 : Byte).toNat]? = some 0x07 ∧
    ([0, 0, 0, 0, 0, 0, 0] : List Byte).length ≤ 5 + (2 : Byte).toNat ∧
    6 + (2 : Byte).toNat ≤ (List.replicate 8 (0 : Byte)).length ∧
    (∀ i, 7 ≤ i → i ≤ 5 + (2 : Byte).toNat → (List.replicate 8 (0 : Byte))[i]? ≠ some 0x07) := by
  refine ⟨?_, by decide, ?_, by decide, by decide, by decide, by decide, ?_⟩ <;>
    (intro i h1 h2; obtain rfl : i = 7 := (by simp at h2; omega)
     decide)
theorem witness_UnescHalvesRuns : (List.replicate 7 (0 : Byte)).length = 7 ∧ (0x01 : Byte) ≠ 0x07 ∧
    (255 : Byte).toNat = 254 + 1 ∧ (255 : Byte).toNat = 253 + 2 ∧ (1 : Byte).toNat = 0 + 1 ∧ (2 : Byte).toNat = 0 + 2 := by decide
/-- The third clause, with the part of V19 behind an `01`: two pairs, and behind them the pair of the old checksum and `END0`. -/
theorem witness_UnescHalvesRuns_later : (List.replicate 7 0 ++ [0x01] : List Byte).length = 7 + 1 ∧
    (List.replicate 7 (0 : Byte)).length = 7 ∧ (List.replicate 7 0 ++ [0x01] : List Byte).getLast? ≠ some 0x07 ∧
    (∀ i, 7 ≤ i → ¬ ((List.replicate 7 0 ++ [0x01] : List Byte)[i]? = some 0x07 ∧
      (List.replicate 7 0 ++ [0x01] : List Byte)[i + 1]? = some 0x07)) ∧
    1 ≤ (4 : Byte).toNat ∧ (7 : Byte).toNat = 1 + 2 + (4 : Byte).toNat ∧
    replyOf (exec (.unesc (List.replicate 7 0 ++ [0x01, 0x02, 0x07, 0x07, 0x0F]) 4) bench) =
      some (.checked (List.replicate 7 0 ++ [0x01, 0x02, 0x07, 0x0F]) false) := by
  refine ⟨by decide, by decide, by decide, fun i h => ?_, by decide, by decide, by decide⟩
  intro ⟨h1, _⟩
  have hi : i < 8 := by simpa using (List.getElem?_eq_some_iff.mp h1).1
  obtain rfl : i = 7 := by omega
  revert h1; decide
/-- The same at its least: no byte before the run, no run, an empty scan. -/
theorem witness_UnescHalvesRuns_least : (List.replicate 7 (0 : Byte)).length = 7 + 0 ∧ (1 : Byte).toNat = 0 + 0 + (1 : Byte).toNat ∧
    (∀ i, 7 ≤ i → ¬ ((List.replicate 7 (0 : Byte))[i]? = some 0x07 ∧ (List.replicate 7 (0 : Byte))[i + 1]? = some 0x07)) ∧
    replyOf (exec (.unesc (List.replicate 7 0 ++ []) 1) bench) = some (.checked (List.replicate 7 0 ++ []) false) := by
  refine ⟨by decide, by decide, fun i h => ?_, by decide⟩
  rw [List.getElem?_eq_none (by simpa using h)]
  exact fun ⟨h1, _⟩ => nomatch h1
/-- B3, whose payload holds one reserved byte, and V27, whose payload holds none. -/
theorem witness_RoundTripIffNoReservedByte : ([0x07] : List Byte).length ≤ 255 ∧
    replyOf (exec (.build [0xAA, 0xBB] [0x07]) bench) = some (.frame b3) ∧
    replyOf (exec (.wire b3) bench) = some (.bytes b3wire) := by decide
theorem witness_SingleReservedByteRejected : ([0x07] : List Byte).count 0x07 = 1 ∧
    replyOf (exec (.build [0xAA, 0xBB] [0x07]) bench) = some (.frame b3) ∧
    replyOf (exec (.wire b3) bench) = some (.bytes b3wire) := by decide

theorem witness_PayloadOfReturnedFrame : ([0x07] : List Byte).length ≤ 255 ∧
    replyOf (exec (.build [0xAA, 0xBB] [0x07]) bench) = some (.frame b3) ∧ ([] : List Byte).length < 10 ∧
    (v8 ++ [0x00]).length ≠ ((v8 ++ [0x00]).getD 6 0).toNat + 10 := by decide

/-- With the captures X1, X7 and X5 for the three outcomes, by a named window. -/
theorem witness_ExecDeliversOutcome : (withWindow held [0x07] (.captured [0xF3])).arb.holder = some .cmd ∧
    (withWindow held [0x07] (.captured [0xF3])).txn.phase = .idle ∧ isFrame b3 = true ∧
    nextWindow (withWindow held [0x07] (.captured [0xF3])) = .captured [0xF3] ∧
    (withWindow held [0x07] (.captured [0xF3])).ch.arrived ++ [0xF3] = [0x07, 0xF3] ∧
    replyOf (exec (.validate ([] ++ [0x07, 0xF3, 0x00])) (withWindow held [] (.captured [0x07, 0xF3, 0x00]))) =
      some (.error .tooShort) ∧
    [] ++ v8 ≠ [0x07, 0xF3] ∧ replyOf (exec (.validate ([] ++ v8)) (withWindow held [] (.captured v8))) =
      some (.checked v8 false) := by decide
/-- In phase VALIDATE, in phase CLASSIFY, and a step that keeps the phase: a request in between (A12). -/
theorem witness_ExecDeliversOutcome_interleaved : Inv (later .validate v8 none) ∧
    (later .validate v8 none).schedule = .sequencer :: [] ∧ Inv (later .classify v8 (some (validate v8))) ∧
    (later .classify v8 (some (validate v8))).schedule = .sequencer :: [] ∧
    ∃ t, step { later .validate v8 none with schedule := [.word ⟨.request, [0x08]⟩] } = .next t ∧ t.txn.phase = .validate ∧
      t.arb.waitPoll = true :=
  ⟨inv_later _ _ _ (.inl rfl) rfl, rfl, inv_later _ _ _ (.inr rfl) rfl, rfl, _, rfl, rfl, rfl⟩
/-- By a free draw the window is a capture or the ceiling: the hypotheses of `ExecDeliversOutcome` or those of
`CeilingFailsTransaction` are met, whatever the draw. -/
theorem witness_ExecDeliversOutcome_free : held.arb.holder = some .cmd ∧ held.txn.phase = .idle ∧ isFrame b3 = true ∧
    held.ch.windows = [] ∧ ((∃ raw, nextWindow held = .captured raw) ∨ nextWindow held = .ceilingHit) := by
  refine ⟨rfl, rfl, by decide, rfl, ?_⟩
  cases h : nextWindow held with
  | captured raw => exact .inl ⟨raw, rfl⟩
  | ceilingHit => exact .inr rfl
theorem witness_CeilingFailsTransaction : (withWindow held [0x07] .ceilingHit).arb.holder = some .cmd ∧
    (withWindow held [0x07] .ceilingHit).txn.phase = .idle ∧ isFrame b11 = true ∧
    nextWindow (withWindow held [0x07] .ceilingHit) = .ceilingHit := by decide
theorem witness_ExecRefusedWithoutPermit : held.arb.holder ≠ some .poll ∧ inFlight.txn.phase ≠ .idle := by decide
theorem witness_PhasesFollowTheOrder :
    ({ inFlight with schedule := [.sequencer] } : State).schedule.head? ≠ some .reset ∧
    ∃ t, step { inFlight with schedule := [.sequencer] } = .next t ∧ t.txn.phase = .settle := ⟨by decide, _, rfl, rfl⟩
/-- The short cut at the ceiling. -/
theorem witness_PhasesFollowTheOrder_ceiling :
    ∃ t, step (withWindow { inFlight with txn := ⟨.drain, .cmd, b3, none⟩, schedule := [.sequencer] } [] .ceilingHit) = .next t ∧
      t.txn.phase = .idle := ⟨_, rfl, rfl⟩
theorem witness_InFlightTransactionKept : Inv inFlight ∧ inFlight.txn.phase ≠ .idle ∧
    inFlight.schedule.head? ≠ some .reset ∧ ∃ t, step inFlight = .next t := ⟨inv_inFlight, by decide, by decide, _, rfl⟩
theorem witness_OwnerCannotAbandon : Inv inFlight ∧ inFlight.txn.phase ≠ .idle := ⟨inv_inFlight, by decide⟩
theorem witness_ChannelSeesWholeFrames : ∃ t, step inFlight = .next t ∧ t.ch.written = b3wire := ⟨_, rfl, rfl⟩

theorem witness_AcquireEffect : bench.arb.holder ≠ some .poll ∧ bench.arb.waiting .poll = false ∧
    held.arb.holder = some .cmd ∧ ({ bench with arb := ⟨none, true, false⟩ } : State).arb.waiting .poll = true := by decide
/-- A2, A3 and A4. -/
theorem witness_GrantPicksOneThatWaits :
    ({ bench with arb := ⟨none, false, true⟩, schedule := [.grant] } : State).schedule = .grant :: [] ∧
    (∃ q, (⟨none, false, true⟩ : Arb).waiting q = true) ∧ (∃ q, (⟨none, true, true⟩ : Arb).waiting q = true) ∧
    (⟨some .poll, false, true⟩ : Arb).holder ≠ none ∧ (∀ q, (⟨none, false, false⟩ : Arb).waiting q = false) :=
  ⟨rfl, ⟨.cmd, rfl⟩, ⟨.poll, rfl⟩, by decide, fun q => by cases q <;> rfl⟩
theorem witness_ReleaseEffect : held.arb.holder = some .cmd ∧ held.txn.phase = .idle ∧ held.arb.holder ≠ some .poll ∧
    inFlight.txn.phase ≠ .idle := by decide
theorem witness_CancelEffect : (⟨some .poll, false, true⟩ : Arb).waiting .cmd = true ∧
    (⟨some .poll, false, true⟩ : Arb).waiting .poll = false := by decide
theorem witness_HolderChangesByGrantOrRelease :
    ∃ t, step { bench with arb := ⟨none, false, true⟩, schedule := [.grant] } = .next t ∧ t.arb.holder = some .cmd :=
  ⟨_, rfl, rfl⟩
/-- For the first clause; then for each way the second is reached, the reset state among them. -/
theorem witness_CommandFrameWritten : inFlight.txn.phase = .write ∧ isFrame inFlight.txn.sent = true ∧
    wireBytes inFlight.txn.sent = [0x07, 0xF0, 0xAA, 0xBB, 0x01] ++ [0x07, 0x07] ++ [0x1A, 0x07, 0x0F] ∧
    wireBytes inFlight.txn.sent ≠ [0x07, 0xF0, 0xAA, 0xBB, 0x01] ++ [0x07] ++ [0x1A, 0x07, 0x0F] ∧
    State.reset.txn.phase ≠ .write ∧ isFrame State.reset.txn.sent = false := by decide
theorem witness_WaitingBytesComeFirst : ∃ s : State, s.schedule = .sequencer :: [] ∧ s.txn.phase = .drain ∧
    s.ch.windows = .captured [0xF3] :: [] ∧ nextWindow s = .captured [0xF3] ∧ s.ch.arrived = [0x07] :=
  ⟨withWindow { inFlight with txn := ⟨.drain, .cmd, b3, none⟩, schedule := [.sequencer] } [0x07] (.captured [0xF3]),
    rfl, rfl, rfl, rfl, rfl⟩
theorem witness_WaitingBytesComeFirst_free : inFlight.ch.windows = [] := rfl

theorem witness_OutOfRangeIntentRejected : ¬ commandInRange .setVent (Config.ventLevelMin - 1) ∧
    ¬ commandInRange .setVent (Config.ventLevelMax + 1) ∧ ¬ commandInRange .setTemp (Config.comfortTempMin - 1) ∧
    ¬ commandInRange .setTemp (Config.comfortTempMax + 1) := by simp [commandInRange]
theorem witness_CommandBeginsTransaction : commandInRange .setVent Config.ventLevelMin ∧
    commandInRange .setVent Config.ventLevelMax ∧ commandInRange .setTemp Config.comfortTempMin ∧
    commandInRange .setTemp Config.comfortTempMax ∧ commandInRange (.get .unit) 0 ∧
    (long 255).length ≤ 255 ∧ idleRequester .cmd bench ∧ idleRequester .poll bench ∧
    replyOf (exec (.build [(Config.cmdId .setVent).1, (Config.cmdId .setVent).2] [0x02]) bench) =
      some (.frame (frameOf (Config.cmdId .setVent).1 (Config.cmdId .setVent).2 [0x02])) := by
  refine ⟨?_, ?_, ?_, ?_, trivial, (long_length 255).le, ⟨rfl, by decide, rfl⟩, ⟨rfl, by decide, rfl⟩, rfl⟩ <;>
    simp [commandInRange, Config.ventLevelMax, Config.comfortTempMax]
theorem witness_CommandThatCannotBegin : 256 ≤ (long 256).length ∧ idleRequester .poll bench ∧
    ¬ idleRequester .cmd held ∧ ¬ idleRequester .cmd { bench with arb := ⟨none, false, true⟩ } :=
  ⟨(long_length 256).ge, ⟨rfl, by decide, rfl⟩, fun h => h.2.1 rfl, fun h => by cases h.2.2⟩
theorem witness_CommandTransactionRuns : ∃ s : State, commandInRange .setVent Config.ventLevelMin ∧
    ([0x02] : List Byte).length ≤ 255 ∧ idleRequester .cmd s ∧ s.arb.holder = none ∧ s.txn.phase = .idle ∧
    s.arb.waiting (otherRequester .cmd) = false ∧ nextWindow s = .captured [0x07, 0xF3] :=
  ⟨withWindow bench [] (.captured [0x07, 0xF3]), by simp [commandInRange, Config.ventLevelMax], by decide,
    ⟨rfl, by decide, rfl⟩, rfl, rfl, rfl, rfl⟩
theorem witness_PermitReleasedAfterTimeout : ∃ s : State, commandInRange (.get .fan) 0 ∧
    ([] : List Byte).length ≤ 255 ∧ idleRequester .poll s ∧ s.arb.holder = none ∧ s.txn.phase = .idle ∧
    s.arb.waiting (otherRequester .poll) = false ∧ nextWindow s = .ceilingHit :=
  ⟨withWindow bench [] .ceilingHit, trivial, by decide, ⟨rfl, by decide, rfl⟩, rfl, rfl, rfl, rfl⟩
theorem witness_PollCycleOneQueryAtATime :
    ({ bench with todo := [(.temp, [])], schedule := [.requester .poll] } : State).todo = (.temp, []) :: [] ∧
    idleRequester .poll bench ∧ ({ bench with taskPoll := some ⟨.get .temp, b3, .waiting⟩ } : State).task .poll ≠ none ∧
    (∃ t, step { bench with taskPoll := some ⟨.get .temp, b3, .waiting⟩, schedule := [.requester .poll] } = .next t) ∧
    ({ bench with schedule := [.timer] } : State).schedule = .timer :: [] :=
  ⟨rfl, ⟨rfl, by decide, rfl⟩, by decide, ⟨_, rfl⟩, rfl⟩

theorem witness_PureOperationsShareNothing : (∃ t, exec (.csum []) bench = .next t) ∧ (∃ t, exec (.esc []) bench = .next t) ∧
    (∃ t, exec (.build [1, 2] []) bench = .next t) ∧ (∃ t, exec (.wire b3) bench = .next t) ∧
    (∃ t, exec (.validate []) bench = .next t) ∧ (∃ t, exec (.unesc [] 0) bench = .next t) :=
  ⟨⟨_, rfl⟩, ⟨_, rfl⟩, ⟨_, rfl⟩, ⟨_, rfl⟩, ⟨_, rfl⟩, ⟨_, rfl⟩⟩
theorem witness_AtMostOneEventPerStep : bench.schedule.head? ≠ some .reset ∧ ∃ t, step bench = .next t :=
  ⟨by decide, _, rfl⟩
theorem witness_ConfigurationNeverWritten : ∃ t, step { bench with schedule := [.reset] } = .next t ∧ t.cfg = bench.cfg :=
  ⟨_, rfl, rfl⟩
theorem witness_FailureCodes : Inv inFlight ∧ ∃ t, step inFlight = .next t := ⟨inv_inFlight, _, rfl⟩
theorem witness_ResetEventValues : ({ inFlight with schedule := [.reset] } : State).schedule = .reset :: [] := rfl
theorem witness_InvariantKeptByEveryStep : Inv inFlight ∧ ∃ t, step inFlight = .next t := ⟨inv_inFlight, _, rfl⟩
theorem witness_MachineNeverStops : Inv inFlight := inv_inFlight

theorem witness_ExecAccepted : held.arb.holder = some .cmd ∧ held.txn.phase = .idle ∧ isFrame b3 = true := by decide
theorem witness_EachCommandCompletes : (long 255).length ≤ 255 ∧ idleRequester .cmd bench ∧ idleRequester .poll bench ∧
    Config.ventLevelMin ≤ Config.ventLevelMax ∧ Config.comfortTempMin ≤ Config.comfortTempMax := by
  refine ⟨(long_length 255).le, ⟨rfl, by decide, rfl⟩, ⟨rfl, by decide, rfl⟩, ?_, ?_⟩ <;>
    simp [Config.ventLevelMax, Config.comfortTempMax]
/-- A requester behind another's hold, one with the permit before its `EXEC`, and one after delivery. -/
theorem witness_RequesterTurnFollowsWithx : queued.task .cmd = some ⟨.setVent, b3, .waiting⟩ ∧ isFrame b3 = true ∧
    queued.arb.holder ≠ some .cmd ∧ inFlight.task .cmd = some ⟨.setVent, b3, .running⟩ ∧ inFlight.txn.phase ≠ .idle ∧
    ({ queued with arb := ⟨some .cmd, false, false⟩, schedule := [.requester .cmd] } : State).arb.holder = some .cmd ∧
    queued.txn.phase = .idle ∧ inFlight.arb.holder = some .cmd ∧
    ({ inFlight with txn := ⟨.idle, .cmd, b3, none⟩ } : State).txn.phase = .idle := by decide
theorem witness_RequestsThatEndACommand : queued.arb.waiting .cmd = true ∧ queued.task .cmd ≠ none ∧
    held.arb.holder = some .cmd ∧ held.txn.phase = .idle ∧ held.task .cmd = none ∧
    ({ queued with arb := ⟨some .cmd, false, false⟩ } : State).task .cmd = some ⟨.setVent, b3, .waiting⟩ ∧
    ({ inFlight with txn := ⟨.idle, .cmd, b3, none⟩ } : State).task .cmd = some ⟨.setVent, b3, .running⟩ := by decide
theorem witness_OutcomeClassCodes : Inv inFlight ∧ ∃ t, step inFlight = .next t := ⟨inv_inFlight, _, rfl⟩

end Sys2Proof.Tests
end

section
/-! PROOF. The layout of a built frame (20_memory.md R59) and the registers `BUILD` leaves (40_tx_framer.md R102). -/

namespace Sys2Proof.Machine

/-- The register-by-register run of `CSUM` meets the closed form of 41_checksum.md R121. -/
theorem csum_eq_checksumOf (bs : List Byte) : csum bs = checksumOf bs := by
  simp only [csum, csumRun, csStart, foldl_csStep_sum, and_true]
  rw [checksumOf, Nat.add_assoc, BitVec.ofNat_add 173]
  rfl

/-! ### The fields of a logical frame (20_memory.md R59) -/

theorem frameOf_getElem?_header (c0 c1 : Byte) (p : List Byte) :
    (frameOf c0 c1 p)[0]? = some START0 ∧ (frameOf c0 c1 p)[1]? = some START1 ∧ (frameOf c0 c1 p)[2]? = some c0 ∧
      (frameOf c0 c1 p)[3]? = some c1 ∧ (frameOf c0 c1 p)[4]? = some (lenByte p) :=
  ⟨rfl, rfl, rfl, rfl, rfl⟩

theorem frameOf_getElem?_payload (c0 c1 : Byte) (p : List Byte) {i : Nat} (h : i < p.length) :
    (frameOf c0 c1 p)[5 + i]? = p[i]? := by
  rw [frameOf, List.append_assoc, List.getElem?_append_right (by simp), List.getElem?_append_left (by simpa)]
  simp

/-- The bytes behind the payload, by their distance `j` from its end. -/
theorem frameOf_getElem?_trailer (c0 c1 : Byte) (p : List Byte) (j : Nat) :
    (frameOf c0 c1 p)[j + 5 + p.length]? = [csum (csumOperand c0 c1 p), END0, END1][j]? := by
  rw [frameOf, List.getElem?_append_right (by simp; omega)]
  congr 1
  simp
  omega

/-! ### `BUILD` -/

/-- A payload that fits the length byte is accepted in every state. -/
theorem exec_build_of_length_le (c0 c1 : Byte) {p : List Byte} (h : p.length ≤ 255) (s : State) :
    exec (.build [c0, c1] p) s = .next (answer (.frame (frameOf c0 c1 p)) (build c0 c1 p s)) :=
  if_neg (Nat.not_lt.mpr h)

/-- Settles O8: `BUILD` leaves `frameOf` in `FR`, whose header, payload and trailer stand at the indices of R59. -/
theorem buildFrameLayout : Obligations.BuildFrameLayout := by
  intro c0 c1 p s h
  have hk : csum (csumOperand c0 c1 p) = checksumOf (c0 :: c1 :: BitVec.ofNat 8 p.length :: p) := csum_eq_checksumOf _
  have trailer := frameOf_getElem?_trailer c0 c1 p
  rw [hk] at trailer
  obtain ⟨start0, start1, cmd0, cmd1, len⟩ := frameOf_getElem?_header c0 c1 p
  refine ⟨_, frameOf c0 c1 p, exec_build_of_length_le c0 c1 h s, rfl, rfl, frameOf_length c0 c1 p,
    start0, start1, cmd0, cmd1, len, fun i hi => frameOf_getElem?_payload c0 c1 p hi,
    trailer 0, trailer 1, trailer 2, ?tx, hk, rfl⟩
  case tx => rw [← hk]; rfl

end Sys2Proof.Machine
end

section
/-! PROOF. The payload limit of `BUILD` (40_tx_framer.md R101). -/

namespace Sys2Proof.Machine

/-- A payload that does not fit the length byte is refused in every state: one event, and only the reply besides. -/
theorem exec_build_of_length_gt (c0 c1 : Byte) {p : List Byte} (h : 255 < p.length) (s : State) :
    exec (.build [c0, c1] p) s =
      .next { s with log := s.log ++ [.payloadTooLarge], reply := .error .payloadTooLarge } :=
  if_pos h

/-- Settles O9: `frameOf` adds eight bytes to the 255 of the longest accepted payload and its length byte is their number;
from 256 on `BUILD` takes its refusing branch. -/
theorem buildPayloadLimit : Obligations.BuildPayloadLimit := by
  intro c0 c1 p s
  refine ⟨fun h => ?accepted, fun h => ?refused⟩
  case accepted =>
    have len : lenByte p = 0xFF := by rw [lenByte, h]; rfl
    obtain ⟨-, -, -, -, len_at⟩ := frameOf_getElem?_header c0 c1 p
    exact ⟨_, frameOf c0 c1 p, exec_build_of_length_le c0 c1 h.le s, rfl, len ▸ len_at, by rw [frameOf_length, h]⟩
  case refused => exact exec_build_of_length_gt c0 c1 h s

end Sys2Proof.Machine
end

section
/-! PROOF. The checksum generator on its own: the result of `CSUM` (41_checksum.md R121, R122) and what it does not depend
on (R125). -/

namespace Sys2Proof.Machine

/-! ### What `CSUM` and `ESC` reply -/

@[simp] theorem replyOf_exec_csum (bs : List Byte) (s : State) :
    replyOf (exec (.csum bs) s) = some (.byte (checksumOf bs)) :=
  congrArg (some ∘ Reply.byte) (csum_eq_checksumOf bs)

@[simp] theorem replyOf_exec_esc (p : List Byte) (s : State) : replyOf (exec (.esc p) s) = some (.bytes (esc p)) := rfl

/-- `CS.seen07` after a `CSUM`, which starts with the flag clear. -/
theorem csumRun_seen07 (bs : List Byte) : (csumRun bs).seen07 = true ↔ 0x07 ∈ bs := by
  simp [csumRun, csStart, foldl_csStep_seen07]

/-- Settles O6: the run over the operand ends in the closed form, and `CSUM` writes it to `CS` and the reply. -/
theorem csumResult : Obligations.CsumResult := by
  intro bs s
  have sum : (csumRun bs).sum = checksumOf bs := csum_eq_checksumOf bs
  exact ⟨answer (.byte (csum bs)) { s with cs := csumRun bs }, rfl, congrArg Reply.byte sum, sum, csumRun_seen07 bs, rfl⟩

/-! ### What the checksum depends on (41_checksum.md R125) -/

/-- The checksum reads its operand only through the bytes other than `0x07` and whether there is a `0x07`. -/
theorem checksumOf_congr {x y : List Byte} (others : x.filter (· ≠ 0x07) = y.filter (· ≠ 0x07))
    (reserved : 0x07 ∈ x ↔ 0x07 ∈ y) : checksumOf x = checksumOf y := by
  simp only [checksumOf, others, reserved]

theorem checksumOf_insert_reserved {a b : List Byte} (h : 0x07 ∈ a ++ b) :
    checksumOf (a ++ 0x07 :: b) = checksumOf (a ++ b) := by
  apply checksumOf_congr
  case others => simp
  case reserved => exact iff_of_true (List.mem_append_right a List.mem_cons_self) h

theorem checksumOf_esc (p : List Byte) : checksumOf (esc p) = checksumOf p :=
  checksumOf_congr (esc_filter p) (mem_esc p)

/-- Without `0x07` the checksum is the seed and the plain sum of the bytes. -/
theorem checksumOf_of_not_mem {x : List Byte} (h : 0x07 ∉ x) :
    checksumOf x = BitVec.ofNat 8 (173 + (x.map BitVec.toNat).sum) := by
  have others : x.filter (· ≠ 0x07) = x :=
    List.filter_eq_self.mpr fun b hb => decide_eq_true fun (e : b = 0x07) => h (e ▸ hb)
  rw [checksumOf, others, if_neg h, Nat.add_zero]

theorem checksumOf_eq_of_sum_mod_eq {x y : List Byte} (hx : 0x07 ∉ x) (hy : 0x07 ∉ y)
    (h : (x.map BitVec.toNat).sum % 256 = (y.map BitVec.toNat).sum % 256) : checksumOf x = checksumOf y := by
  rw [checksumOf_of_not_mem hx, checksumOf_of_not_mem hy, ← BitVec.toNat_inj, BitVec.toNat_ofNat, BitVec.toNat_ofNat]
  exact Nat.ModEq.add_left 173 h

/-- Settles O7: each change of the operand keeps what the closed form reads of it. -/
theorem checksumIgnoresRepeatsAndWraps : Obligations.ChecksumIgnoresRepeatsAndWraps := by
  refine ⟨fun a b s h => ?inserted, fun p e s h => ?escaped, fun x y s hx hy h => ?wrapped⟩
  case inserted => simp only [replyOf_exec_csum, checksumOf_insert_reserved h]
  case escaped =>
    have he : esc p = e := by simpa using h
    simp only [replyOf_exec_csum, ← he, checksumOf_esc]
  case wrapped => simp only [replyOf_exec_csum, checksumOf_eq_of_sum_mod_eq hx hy h]

end Sys2Proof.Machine
end

section
/-! PROOF. `VALIDATE` and the bytes behind a response (42_rx_deframer.md R149). -/

namespace Sys2Proof.Machine

/-! ### What `VALIDATE` replies -/

@[simp] theorem replyOf_exec_validate (raw : List Byte) (s : State) :
    replyOf (exec (.validate raw) s) = some (verdictReply (validate raw)) := rfl

@[simp] theorem verdictReply_eq_checked_iff {v : Verdict} {f : List Byte} {oor : Bool} :
    verdictReply v = .checked f oor ↔ v = .ok f oor := by
  cases v <;> simp [verdictReply]

/-! ### What `VALIDATE` reads of a capture of ten bytes or more -/

/-- The length byte stands in the kept part, whatever it declares. -/
theorem lenRx_keptPart (raw : List Byte) : lenRx (keptPart raw) = lenRx raw := by
  have inside : LEN_INDEX_RX < (lenRx raw).toNat + FRAME_OVERHEAD_RX := Nat.lt_add_left _ (by decide)
  rw [keptPart, lenRx, List.getD_eq_getElem?_getD, List.getElem?_take_of_lt inside, ← List.getD_eq_getElem?_getD, ← lenRx]

/-- Steps 4 to 7, the ones a capture of ten bytes or more comes to. -/
theorem validate_of_ten_le {raw : List Byte} (h : 10 ≤ raw.length) :
    validate raw = if markersMatch (keptPart raw) then
        .ok (unesc (keptPart raw) (lenRx raw)).1 (unesc (keptPart raw) (lenRx raw)).2.2
      else .err .malformedFrame := by
  rw [validate, if_neg (by omega), if_neg (fun ⟨h2, _⟩ => by omega), if_neg (by omega)]

/-- From ten bytes on, `VALIDATE` reads a capture through its kept part alone. -/
theorem validate_eq_of_keptPart_eq {x y : List Byte} (hx : 10 ≤ x.length) (hy : 10 ≤ y.length)
    (h : keptPart x = keptPart y) : validate x = validate y := by
  have len : lenRx x = lenRx y := by rw [← lenRx_keptPart x, h, lenRx_keptPart]
  rw [validate_of_ten_le hx, validate_of_ten_le hy, h, len]

/-! ### Bytes behind a response -/

theorem lenRx_append {r : List Byte} (h : LEN_INDEX_RX < r.length) (t : List Byte) : lenRx (r ++ t) = lenRx r :=
  List.getD_append _ _ _ _ h

theorem keptPart_append {r : List Byte} (h : (lenRx r).toNat + FRAME_OVERHEAD_RX ≤ r.length) (t : List Byte) :
    keptPart (r ++ t) = keptPart r := by
  have header : LEN_INDEX_RX < r.length := (Nat.lt_add_left _ (by decide)).trans_le h
  rw [keptPart, keptPart, lenRx_append header, List.take_append_of_le_length h]

/-- Bytes appended to a capture that reaches its declared length are dropped. -/
theorem validate_append {r : List Byte} (h : (lenRx r).toNat + FRAME_OVERHEAD_RX ≤ r.length) (t : List Byte) :
    validate (r ++ t) = validate r := by
  have ten : 10 ≤ r.length := (Nat.le_add_left _ _).trans h
  have ten' : 10 ≤ (r ++ t).length := by rw [List.length_append]; omega
  exact validate_eq_of_keptPart_eq ten' ten (keptPart_append h t)

/-- Only the acknowledgment is accepted as the acknowledgment. -/
theorem eq_ackBytes_of_validate_eq_ok {raw : List Byte} {oor : Bool} (h : validate raw = .ok ackBytes oor) :
    raw = ackBytes := by
  rcases validate_ok_length raw ackBytes oor h with ⟨isAck, -, -⟩ | ⟨-, nine, -⟩
  · exact isAck
  · exact absurd nine (by decide)

/-- Settles O18: what is appended to a full response does not reach the kept part, and what is accepted as `07 f3` is
`07 f3`. -/
theorem validateTrailingBytes : Obligations.ValidateTrailingBytes := by
  refine ⟨fun r t s _ declared => ?response, fun t s oor nonempty hr => ?acknowledgment⟩
  case response =>
    rw [replyOf_exec_validate, replyOf_exec_validate, validate_append declared.ge]
  case acknowledgment =>
    rw [replyOf_exec_validate, Option.some_inj, verdictReply_eq_checked_iff] at hr
    exact nonempty (List.append_right_eq_self.mp (eq_ackBytes_of_validate_eq_ok hr))

end Sys2Proof.Machine
end

section
/-! PROOF. The transaction sequencer: the refusals of `EXEC` (43_transaction.md R168) and the order of the phases (R161). -/

namespace Sys2Proof.Machine

/-! ### `EXEC` -/

@[simp] theorem executable_iff {r : Requester} {f : List Byte} {s : State} :
    executable r f s = true ↔ s.arb.holder = some r ∧ s.txn.phase = .idle ∧ isFrame f = true := by
  simp [executable, and_assoc]

/-- What is not executable is refused, whichever of the three conditions it misses. -/
theorem exec_exec_of_not_executable {r : Requester} {f : List Byte} {s : State} (h : ¬ executable r f s = true) :
    exec (.exec r f) s = .next (refuse s) :=
  if_neg h

/-- Settles O28: an executable `EXEC` has both the permit and the idle phase, so without one of them it is refused. -/
theorem execRefusedWithoutPermit : Obligations.ExecRefusedWithoutPermit := by
  intro s r f missing
  refine exec_exec_of_not_executable fun accepted => ?_
  obtain ⟨holds, idle, -⟩ := executable_iff.mp accepted
  exact missing.elim (· holds) (· idle)

/-! ### The order of the phases -/

/-- Settles O29: a step that is no reset is a `Move`, and each way the transaction can move takes the phase one place on in
the order of R161; only the drain looks at the window to choose between two places. -/
theorem phasesFollowTheOrder : Obligations.PhasesFollowTheOrder := by
  intro s t noReset stepped
  cases (step_move s t noReset stepped).core with
  | quiet txn => exact .inl (congrArg Txn.phase txn)
  | permit _ txn => exact .inl (congrArg Txn.phase txn)
  | accept r f accepted txn =>
    obtain ⟨-, idle, -⟩ := executable_iff.mp accepted
    simp [idle, txn]
  | write phase _ txn => simp [phase, txn]
  | settle phase txn => simp [phase, txn]
  | capture raw phase window txn => simp [phase, window, txn]
  | validate phase txn => simp [phase, txn]
  | deliver _ source txn =>
    obtain ⟨⟨phase, window⟩, -⟩ | ⟨phase, -⟩ := source
    · simp [phase, window, txn]
    · simp [phase, txn]

end Sys2Proof.Machine
end

section
/-! PROOF. The requests to the arbiter: `ACQUIRE` (44_arbiter.md R181, R188), `RELEASE` (R184) and `CANCEL` (R186). -/

namespace Sys2Proof.Machine

/-! ### When a request for the permit is accepted -/

@[simp] theorem acquirable_iff {r : Requester} {s : State} :
    acquirable r s = true ↔ s.arb.holder ≠ some r ∧ s.arb.waiting r = false := by
  simp [acquirable]

@[simp] theorem releasable_iff {r : Requester} {s : State} :
    releasable r s = true ↔ s.arb.holder = some r ∧ s.txn.phase = .idle := by
  simp [releasable]

/-! ### `ACQUIRE` -/

theorem exec_acquire_of_acquirable {r : Requester} {s : State} (h : acquirable r s = true) :
    exec (.acquire r) s = .next (answer .accepted (setWaiting r true s)) :=
  if_pos h

theorem exec_acquire_of_not_acquirable {r : Requester} {s : State} (h : ¬ acquirable r s = true) :
    exec (.acquire r) s = .next (refuse s) :=
  if_neg h

/-- Settles O33: an accepted `ACQUIRE` sets the waiting bit of its requester alone; a requester that holds the permit or
waits for it misses one of the two conditions of acceptance. -/
theorem acquireEffect : Obligations.AcquireEffect := by
  intro r s
  refine ⟨fun notHolding notWaiting => ?accepted, fun engaged => ?refused⟩
  case accepted =>
    exact ⟨_, exec_acquire_of_acquirable (acquirable_iff.mpr ⟨notHolding, notWaiting⟩),
      setWaiting_holder_arb s.arb r true, setWaiting_same s.arb r true, setWaiting_other s.arb r true, rfl⟩
  case refused =>
    refine exec_acquire_of_not_acquirable fun accepted => ?_
    obtain ⟨notHolding, notWaiting⟩ := acquirable_iff.mp accepted
    exact engaged.elim notHolding (Bool.eq_false_iff.mp notWaiting)

/-! ### `RELEASE` -/

theorem exec_release_of_not_releasable {r : Requester} {s : State} (h : ¬ releasable r s = true) :
    exec (.release r) s = .next (refuse s) :=
  if_neg h

/-- The end of a hold changes the permit, the tasks and the reports, and nothing else. -/
theorem endHold_frame (r : Requester) (s : State) :
    { endHold r s with arb := s.arb, taskPoll := s.taskPoll, taskCmd := s.taskCmd, reports := s.reports } = s := by
  obtain ⟨-, reports, ended⟩ := endHold_cases s r
  rw [ended]
  cases r <;> rfl

/-- Settles O35: an accepted `RELEASE` is the end of the hold, which frees the permit whatever its requester was carrying
out; without the permit or with a transaction in flight it is not releasable. -/
theorem releaseEffect : Obligations.ReleaseEffect := by
  intro r s
  refine ⟨fun holds idle => ?accepted, fun missing => ?refused⟩
  case accepted =>
    have freed : (answer .done (endHold r s)).arb = { s.arb with holder := none } := endHold_arb s r
    refine ⟨_, exec_release_of_releasable (releasable_iff.mpr ⟨holds, idle⟩), congrArg Arb.holder freed,
      fun q => ?waiting, endHold_task_other s r, congrArg (fun t => { t with reply := s.reply }) (endHold_frame r s)⟩
    case waiting => rw [freed]
  case refused =>
    refine exec_release_of_not_releasable fun accepted => ?_
    obtain ⟨holds, idle⟩ := releasable_iff.mp accepted
    exact missing.elim (· holds) (· idle)

/-! ### `CANCEL` -/

theorem exec_cancel_of_not_waiting {r : Requester} {s : State} (h : s.arb.waiting r = false) :
    exec (.cancel r) s = .next (refuse s) :=
  if_neg (Bool.eq_false_iff.mp h)

/-- An abandoned wait changes the arbiter's waiting bits and the tasks, and nothing else. -/
theorem abandonWait_frame (r : Requester) (s : State) :
    { abandonWait r s with arb := s.arb, taskPoll := s.taskPoll, taskCmd := s.taskCmd } = s := by
  cases r <;> rfl

/-- Settles O36: an accepted `CANCEL` is the abandoned wait, which clears the waiting bit of its requester alone. -/
theorem cancelEffect : Obligations.CancelEffect := by
  intro r s
  refine ⟨fun waits => ?accepted, exec_cancel_of_not_waiting⟩
  case accepted =>
    have cleared : (answer .done (abandonWait r s)).arb = s.arb.setWaiting r false := abandonWait_arb s r
    refine ⟨_, exec_cancel_of_waiting waits, ?holder, ?same, ?other, abandonWait_task_other s r,
      congrArg (fun t => { t with reports := s.reports, reply := s.reply }) (abandonWait_frame r s)⟩
    case holder => rw [cleared, setWaiting_holder_arb]
    case same => rw [cleared, setWaiting_same]
    case other => rw [cleared, setWaiting_other]

end Sys2Proof.Machine
end

section
/-! PROOF. The range check of a set intent (44_arbiter.md R198). -/

namespace Sys2Proof.Machine

/-! ### The two ranges -/

@[simp] theorem ventInRange_iff {level : Int} : ventInRange level = true ↔ commandInRange .setVent level := by
  simp [ventInRange, commandInRange]

@[simp] theorem tempInRange_iff {temperature : Int} :
    tempInRange temperature = true ↔ commandInRange .setTemp temperature := by
  simp [tempInRange, commandInRange]

/-! ### A value outside its range -/

theorem setIntent_of_not_inRange (c : Command) {inRange : Bool} (h : ¬ inRange = true) (p : List Byte) (s : State) :
    setIntent c inRange p s = rejectCommand c .outOfRange s :=
  if_neg h

/-- A command whose value is out of range is rejected before its requester or its payload is looked at. -/
theorem exec_commandInstr_of_not_inRange (c : Command) (value : Int) (p : List Byte) (s : State)
    (h : ¬ commandInRange c value) : exec (commandInstr c value p) s = .next (rejectCommand c .outOfRange s) := by
  cases c with
  | setVent => exact congrArg _ (setIntent_of_not_inRange .setVent (mt ventInRange_iff.mp h) p s)
  | setTemp => exact congrArg _ (setIntent_of_not_inRange .setTemp (mt tempInRange_iff.mp h) p s)
  | get q => exact absurd trivial h

/-- Settles O41: the rejection is one event, the error reply and one report. -/
theorem outOfRangeIntentRejected : Obligations.OutOfRangeIntentRejected :=
  exec_commandInstr_of_not_inRange

end Sys2Proof.Machine
end

section
/-! PROOF. The failure codes (60_exceptions.md R211) and the legal contents of `OUT` (10_state.md R39). -/

namespace Sys2Proof.Machine

/-! ### `OUT` stays legal -/

/-- What a move can do to `OUT`: keep it, or deliver the ceiling's failure or the class of the verdict. -/
theorem CoreMove.out_cases {s t : State} (m : CoreMove s t) :
    t.out = s.out ∨ t.out = (Result.failure .channelTimeout).out ∨
      s.txn.phase = .classify ∧ ∃ v, s.txn.verdict = some v ∧ t.out = (classify v).out := by
  cases m with
  | quiet _ _ _ out | permit _ _ _ out | accept _ _ _ _ _ _ out | write _ _ _ _ _ out | settle _ _ _ _ out
  | capture _ _ _ _ _ _ out | validate _ _ _ _ out => exact .inl out
  | deliver r source _ _ _ out =>
    obtain ⟨-, rfl⟩ | ⟨phase, v, verdict, rfl⟩ := source
    · exact .inr (.inl out)
    · exact .inr (.inr ⟨phase, v, verdict, out⟩)

/-- In phase CLASSIFY the only verdict the invariant admits is that of the capture. -/
theorem Inv.verdict_eq_validate {s : State} (inv : Inv s) {v : Verdict} (phase : s.txn.phase = .classify)
    (verdict : s.txn.verdict = some v) : v = validate s.raw :=
  Option.some.inj (verdict.symm.trans (inv.verdict.trans (if_pos phase)))

theorem outLegal_reset : outLegal State.reset.out := rfl

theorem outLegal_channelTimeout : outLegal (Result.failure .channelTimeout).out :=
  ⟨rfl, rfl, .inr (.inr (.inr rfl))⟩

/-- Every step from a state that meets the invariant, a reset included, leaves a legal combination in `OUT`. -/
theorem outLegal_of_step {s t : State} (inv : Inv s) (stepped : step s = .next t) : outLegal t.out := by
  obtain ⟨_, -, rfl⟩ | moved := step_cases s t stepped
  case inl => exact outLegal_reset
  case inr =>
    obtain kept | ceiling | ⟨phase, v, verdict, delivered⟩ := moved.core.out_cases
    · exact kept ▸ inv.out
    · exact ceiling ▸ outLegal_channelTimeout
    · rw [delivered, inv.verdict_eq_validate phase verdict]
      exact outLegal_classify s.raw

/-! ### The codes of a legal `OUT` -/

/-- A legal `OUT` holds no failure kind, or one of the four that `EXEC` can deliver. -/
theorem err_cases_of_outLegal {o : Out} (legal : outLegal o) :
    o.err = none ∨ o.err = some .incomplete ∨ o.err = some .tooShort ∨ o.err = some .malformedFrame ∨
      o.err = some .channelTimeout := by
  obtain ⟨cls, frame, err, warn⟩ := o
  cases cls with
  | none | ack => exact .inl (congrArg Out.err legal)
  | data =>
    obtain ⟨-, -, noError⟩ := legal
    exact .inl noError
  | failure =>
    obtain ⟨-, -, kind⟩ := legal
    exact .inr kind

/-- Settles O50: the codes are the table of R211, and the kinds with the codes 4, 5 and 7 are none of those a legal `OUT`
can hold. -/
theorem failureCodes : Obligations.FailureCodes := by
  refine ⟨rfl, rfl, rfl, rfl, rfl, rfl, rfl, rfl, fun s t inv stepped => ?_⟩
  obtain err | err | err | err | err := err_cases_of_outLegal (outLegal_of_step inv stepped) <;>
    simp [err, errCode, Kind.code]

end Sys2Proof.Machine
end

section
/-! PROOF. Words and instructions (30_encoding.md sections 1, 5, 6): the decoder and the encoder undo each other, and a step
runs the word at the head of its schedule. -/

namespace Sys2Proof

open Sys2Proof.Machine

/-! ### The word of an instruction decodes to it -/

theorem decodeWrite_append (c0 c1 len : Byte) (wp : List Byte) (k e0 e1 : Byte) :
    decodeWrite ([START0, START1, c0, c1, len] ++ wp ++ [k, e0, e1]) = .ok (.cw c0 c1 len wp k e0 e1) := by
  simp [decodeWrite, splitLast3_append]

theorem decodeLine_append (c0 c1 len : Byte) (body : List Byte) (e0 e1 : Byte) :
    decodeLine ([ACK0, ACK1, START0, START1, c0, c1, len] ++ body ++ [e0, e1]) = .ok (.rf c0 c1 len body e0 e1) := by
  simp [decodeLine, splitLast2_append]

section
variable {ids : Command → Byte × Byte} {p : List Byte}

theorem decodeIntent_setVent (value : Int) (fits : p.length ≤ 255) :
    decodeIntent ids value (commandWire (ids .setVent) p) = .ok (.setvent value p) := by
  simp [decodeIntent, decodeCommandFrame_commandWire _ p fits]

theorem decodeIntent_setTemp (differ : Function.Injective ids) (value : Int) (fits : p.length ≤ 255) :
    decodeIntent ids value (commandWire (ids .setTemp) p) = .ok (.settemp value p) := by
  have other : ids .setVent ≠ ids .setTemp := differ.ne (by decide)
  simp [decodeIntent, decodeCommandFrame_commandWire _ p fits, other]

theorem decodeQuery_get (differ : Function.Injective ids) (q : Query) (fits : p.length ≤ 255) :
    decodeQuery ids (commandWire (ids (.get q)) p) = .ok (q.instr p) := by
  simp only [decodeQuery, decodeCommandFrame_commandWire _ p fits, Prod.mk.eta, find_query ids differ q]

end

/-- Settles O3: each operand is read back from the form the encoder gave it, and a command is found by its id because no
other command has it. -/
theorem decodeEncodeRoundTrip : Obligations.DecodeEncodeRoundTrip := by
  intro ids differ i wf
  have fits {p : List Byte} (h : payloadFits p = true) : p.length ≤ 255 := of_decide_eq_true h
  cases i with
  | csum bs | esc bs | wire bs | validate bs => exact congrArg (Except.map _) (decodeSequence_encodeSequence bs)
  | build command p =>
    obtain ⟨c0, c1, rfl⟩ := List.length_eq_two.mp (of_decide_eq_true wf)
    exact congrArg (Except.map _) (decodeSequence_encodeSequence p)
  | unesc f n => exact congrArg (Except.map (Instr.unesc · n)) (decodeSequence_encodeSequence f)
  | exec r f => cases r <;> exact congrArg (Except.map _) (decodeSequence_encodeSequence f)
  | acquire r | release r | cancel r => cases r <;> rfl
  | cw c0 c1 len wp k e0 e1 => exact decodeWrite_append c0 c1 len wp k e0 e1
  | ak => rfl
  | rf c0 c1 len body e0 e1 => exact decodeLine_append c0 c1 len body e0 e1
  | setvent value p => exact decodeIntent_setVent value (fits wf)
  | settemp value p => exact decodeIntent_setTemp differ value (fits wf)
  | gettemp p => exact decodeQuery_get differ .temp (fits wf)
  | getvent p => exact decodeQuery_get differ .vent (fits wf)
  | getfan p => exact decodeQuery_get differ .fan (fits wf)
  | getfilt p => exact decodeQuery_get differ .filt (fits wf)
  | getvalve p => exact decodeQuery_get differ .valve (fits wf)
  | getbyp p => exact decodeQuery_get differ .byp (fits wf)
  | getpreh p => exact decodeQuery_get differ .preh (fits wf)
  | gethours p => exact decodeQuery_get differ .hours (fits wf)
  | getunit p => exact decodeQuery_get differ .unit (fits wf)

/-! ### A word that decodes is the word of its instruction -/

/-- The two fields of a request byte (Log 2) make it up. -/
theorem requestByte_eq {h : Byte} {op : Nat} {r : Requester} (select : h.toNat % 16 = op)
    (requester : h.toNat / 16 = requesterBit r) : requestByte op r = h := by
  rw [requestByte, ← select, ← requester, Nat.mod_add_div, BitVec.ofNat_toNat, BitVec.setWidth_eq]

theorem map_decodeSequence_eq_ok {bytes : List Byte} {f : List Byte → Instr} {i : Instr}
    (h : (decodeSequence bytes).map f = .ok i) : ∃ bs, bytes = encodeSequence bs ∧ i = f bs := by
  cases decoded : decodeSequence bytes with
  | error e => rw [decoded] at h; cases h
  | ok bs =>
    rw [decoded] at h
    cases h
    exact ⟨bs, decodeSequence_eq_ok bytes bs decoded, rfl⟩

theorem withoutRequester_eq_ok {high : Nat} {x : Except DecodeError Instr} {i : Instr}
    (h : withoutRequester high x = .ok i) : high = requesterBit .poll ∧ x = .ok i := by
  unfold withoutRequester at h
  split at h
  · next clear => exact ⟨clear, h⟩
  · cases h

theorem decodeRequester_eq_ok {high : Nat} {r : Requester} (h : decodeRequester high = .ok r) :
    high = requesterBit r := by
  unfold decodeRequester at h
  split at h <;> cases h <;> rfl

theorem requesterOnly_eq_ok {high : Nat} {rest : List Byte} {op : Requester → Instr} {i : Instr}
    (h : requesterOnly high rest op = .ok i) : ∃ r, high = requesterBit r ∧ rest = [] ∧ i = op r := by
  unfold requesterOnly at h
  split at h
  · cases h
  · next r requester =>
    split at h
    · next empty => cases h; exact ⟨r, decodeRequester_eq_ok requester, empty, rfl⟩
    · cases h

section
variable (ids : Command → Byte × Byte)

/-- The cases of `decodeRequest` bear the number of their select code. -/
theorem encodeWith_of_decodeRequest {bytes : List Byte} {i : Instr} (h : decodeRequest bytes = .ok i) :
    encodeWith ids i = ⟨.request, bytes⟩ := by
  unfold decodeRequest at h
  split at h
  · cases h
  next b rest =>
  dsimp only at h
  split at h
  case h_2 select | h_6 select =>
    obtain ⟨high, h⟩ := withoutRequester_eq_ok h
    split at h
    · obtain ⟨bs, rfl, rfl⟩ := map_decodeSequence_eq_ok h
      rw [← requestByte_eq select high]; rfl
    · cases h
  case h_7 select =>
    split at h
    · cases h
    · next r requester =>
      obtain ⟨bs, rfl, rfl⟩ := map_decodeSequence_eq_ok h
      rw [← requestByte_eq select (decodeRequester_eq_ok requester)]; rfl
  case h_8 select | h_9 select | h_10 select =>
    obtain ⟨r, high, rfl, rfl⟩ := requesterOnly_eq_ok h
    rw [← requestByte_eq select high]; rfl
  case h_11 => cases h
  all_goals
    next select =>
    obtain ⟨high, h⟩ := withoutRequester_eq_ok h
    obtain ⟨bs, rfl, rfl⟩ := map_decodeSequence_eq_ok h
    rw [← requestByte_eq select high]; rfl

theorem encodeWith_of_decodeWrite {bytes : List Byte} {i : Instr} (h : decodeWrite bytes = .ok i) :
    encodeWith ids i = ⟨.write, bytes⟩ := by
  unfold decodeWrite at h
  split at h
  · cases h
  · next c0 c1 len t =>
    split at h
    · next start =>
      split at h
      · next wp k e0 e1 last =>
        cases h
        obtain ⟨rfl, rfl⟩ := start
        rw [splitLast3_eq_some _ _ _ _ _ last]; rfl
      · cases h
    · cases h
  · cases h

theorem encodeWith_of_decodeLine {bytes : List Byte} {i : Instr} (h : decodeLine bytes = .ok i) :
    encodeWith ids i = ⟨.line, bytes⟩ := by
  unfold decodeLine at h
  split at h
  · cases h
  · cases h
  next rest =>
  split at h
  case isFalse => cases h
  next ack =>
  obtain ⟨rfl, rfl⟩ := ack
  split at h
  · cases h; rfl
  · next c0 c1 len t =>
    split at h
    case isFalse => cases h
    next start =>
    obtain ⟨rfl, rfl⟩ := start
    split at h
    · next body e0 e1 last =>
      cases h
      rw [splitLast2_eq_some _ _ _ _ last]; rfl
    · cases h
  · cases h

theorem encodeWith_of_decodeIntent {value : Int} {bytes : List Byte} {i : Instr}
    (h : decodeIntent ids value bytes = .ok i) : encodeWith ids i = ⟨.intent value, bytes⟩ := by
  unfold decodeIntent at h
  split at h
  · cases h
  next c0 c1 p frame =>
  obtain ⟨rfl, -⟩ := decodeCommandFrame_eq_some _ _ _ _ frame
  split at h
  · next id => cases h; rw [← id]; rfl
  split at h
  · next id => cases h; rw [← id]; rfl
  · cases h

theorem encodeWith_instr (q : Query) (p : List Byte) :
    encodeWith ids (q.instr p) = ⟨.query, commandWire (ids (.get q)) p⟩ := by
  cases q <;> rfl

theorem encodeWith_of_decodeQuery {bytes : List Byte} {i : Instr} (h : decodeQuery ids bytes = .ok i) :
    encodeWith ids i = ⟨.query, bytes⟩ := by
  unfold decodeQuery at h
  split at h
  · cases h
  next c0 c1 p frame =>
  obtain ⟨rfl, -⟩ := decodeCommandFrame_eq_some _ _ _ _ frame
  split at h
  · next q found =>
    cases h
    have id : ids (.get q) = (c0, c1) := by simpa using List.find?_some found
    rw [encodeWith_instr, id]
  · cases h

end

/-- Settles O4: source by source, what the decoder accepts is what the encoder writes. -/
theorem encodeDecodeRoundTrip : Obligations.EncodeDecodeRoundTrip := by
  intro ids ⟨source, bytes⟩ i decoded
  cases source with
  | request => exact encodeWith_of_decodeRequest ids decoded
  | write => exact encodeWith_of_decodeWrite ids decoded
  | line => exact encodeWith_of_decodeLine ids decoded
  | intent value => exact encodeWith_of_decodeIntent ids decoded
  | query => exact encodeWith_of_decodeQuery ids decoded

/-- Settles O1: the decoder evaluates on each word; the command id of the last one is the one the premise names. -/
theorem specWordsDecode : Obligations.SpecWordsDecode := by
  refine ⟨rfl, rfl, rfl, rfl, rfl, rfl, rfl, fun ids id => ?_⟩
  have word : decodeCommandFrame [0x07, 0xF0, 0x10, 0x32, 0x01, 0x02, 0xF2, 0x07, 0x0F] = some (0x10, 0x32, [0x02]) := rfl
  simp only [decodeWith, decodeIntent, word, id, if_true]

/-! ### The word at the head of the schedule -/

theorem step_word {s : State} {w : PortWord} {rest : List Turn} (h : s.schedule = .word w :: rest) :
    step s = runTurn (.word w) { s with schedule := rest } := by
  simp only [step, h]

theorem runTurn_word_of_ok {w : PortWord} {i : Instr} (h : decode w = .ok i) (s : State) :
    runTurn (.word w) s = exec i s := by
  simp only [runTurn, h]

theorem runTurn_word_of_error {w : PortWord} {e : DecodeError} (h : decode w = .error e) (s : State) :
    runTurn (.word w) s = .next (undecoded w s) := by
  simp only [runTurn, h]

theorem undecoded_of_line {w : PortWord} (h : w.source = .line) (s : State) : undecoded w s = arrive w.bytes s := by
  simp only [undecoded, h]

theorem undecoded_of_ne_line {w : PortWord} (h : w.source ≠ .line) (s : State) : undecoded w s = refuse s := by
  unfold undecoded
  split
  · next line => exact absurd line h
  all_goals rfl

/-- Settles O2: the turn of a word is the meaning of what it decodes to, and an undecodable word is noise from the device
and a refusal from anywhere else. -/
theorem stepRunsDecodedWord : Obligations.StepRunsDecodedWord := by
  intro s w rest scheduled
  rw [step_word scheduled]
  refine ⟨fun i decoded => runTurn_word_of_ok decoded _, fun e failed elsewhere => ?refused, fun e failed line => ?noise⟩
  case refused => rw [runTurn_word_of_error failed, undecoded_of_ne_line elsewhere]; rfl
  case noise => rw [runTurn_word_of_error failed, undecoded_of_line line]; rfl

theorem decodeRequest_of_reserved {b : Byte} (reserved : b.toNat % 16 = 0 ∨ 0xB ≤ b.toNat % 16) (tail : List Byte) :
    decodeRequest (b :: tail) = .error (.reservedSelect (b.toNat % 16)) := by
  unfold decodeRequest
  dsimp only
  split
  case h_11 => rfl
  all_goals omega

/-- Settles O5: no arm of the decoder takes a reserved select code, and an undecodable request is refused. -/
theorem reservedSelectRefused : Obligations.ReservedSelectRefused := by
  intro s b tail rest scheduled reserved
  obtain ⟨-, refused, -⟩ := stepRunsDecodedWord s _ rest scheduled
  exact refused _ (decodeRequest_of_reserved reserved tail) nofun

end Sys2Proof
end

section
/-! PROOF. What every step keeps: the invariant of the machine and its consequences (10_state.md sections 1, 4, 6;
43_transaction.md R161 to R169; 44_arbiter.md R183; 60_exceptions.md R213, R222). -/

namespace Sys2Proof.Machine

/-! ### What a move does to the permit and to the transaction -/

section
variable {s t : State}

/-- The arbiter's registers change by a permit move alone, and the transaction stays where they do. -/
theorem CoreMove.arb_cases (m : CoreMove s t) : t.arb = s.arb ∨ PermitMove s t ∧ t.txn = s.txn := by
  cases m with
  | permit m txn => exact .inr ⟨m, txn⟩
  | quiet _ arb | accept _ _ _ _ arb | write _ _ _ arb | settle _ _ arb | capture _ _ _ _ arb | validate _ _ arb
  | deliver _ _ _ arb => exact .inl arb

/-- The transaction keeps its owner and its frame, or an `EXEC` is accepted. -/
theorem CoreMove.txn_cases (m : CoreMove s t) :
    (t.txn.owner = s.txn.owner ∧ t.txn.sent = s.txn.sent ∧ (t.txn.phase ≠ .idle → s.txn.phase ≠ .idle)) ∨
      ∃ r f, executable r f s = true ∧ t.txn = ⟨.write, r, f, none⟩ ∧ t.arb = s.arb := by
  cases m with
  | accept r f accepted txn arb => exact .inr ⟨r, f, accepted, txn, arb⟩
  | quiet txn | permit _ txn => simp [txn]
  | write phase _ txn | settle phase txn | capture _ phase _ txn | validate phase txn => simp [txn, phase]
  | deliver _ _ txn => simp [txn]

/-- The holder changes in two ways only (10_state.md R40). -/
theorem PermitMove.holder_cases (m : PermitMove s t) : t.arb.holder = s.arb.holder ∨
    (s.arb.holder = none ∧ ∃ r, s.arb.waiting r = true ∧ t.arb.holder = some r) ∨
    (s.txn.phase = .idle ∧ s.arb.holder ≠ none ∧ t.arb.holder = none) := by
  cases m with
  | wait r _ arb => exact .inl (by rw [arb, setWaiting_holder_arb])
  | unwait r _ arb => exact .inl (by rw [arb, setWaiting_holder_arb])
  | grant r free waits arb => exact .inr (.inl ⟨free, r, waits, by rw [arb]⟩)
  | release r accepted arb =>
    obtain ⟨holds, idle⟩ := releasable_iff.mp accepted
    exact .inr (.inr ⟨idle, by simp [holds], by rw [arb]⟩)

theorem CoreMove.holder_cases (m : CoreMove s t) : t.arb.holder = s.arb.holder ∨
    (s.arb.holder = none ∧ ∃ r, s.arb.waiting r = true ∧ t.arb.holder = some r) ∨
    (s.txn.phase = .idle ∧ s.arb.holder ≠ none ∧ t.arb.holder = none) := by
  obtain same | ⟨permit, -⟩ := m.arb_cases
  · exact .inl (by rw [same])
  · exact permit.holder_cases

/-- A requester that is left with a task and waited for the permit or held it still does. -/
theorem PermitMove.engaged (m : PermitMove s t) {q : Requester} (busy : t.task q ≠ none)
    (engaged : s.arb.waiting q = true ∨ s.arb.holder = some q) :
    t.arb.waiting q = true ∨ t.arb.holder = some q := by
  cases m with
  | wait r _ arb => simpa only [arb, setWaiting_holder_arb, waiting_setWaiting] using
      engaged.imp_left fun waits => by simp [waits]
  | unwait r _ arb ended =>
    have other : q ≠ r := fun same => busy (same ▸ ended)
    simpa only [arb, setWaiting_holder_arb, waiting_setWaiting, if_neg other] using engaged
  | grant r free _ arb =>
    have waits : s.arb.waiting q = true := engaged.resolve_right (by simp [free])
    by_cases same : q = r
    · exact .inr (by rw [arb, same])
    · exact .inl (by rw [arb]; exact (waiting_setWaiting s.arb r q false).trans ((if_neg same).trans waits))
  | release r accepted arb ended =>
    obtain ⟨holds, -⟩ := releasable_iff.mp accepted
    have other : q ≠ r := fun same => busy (same ▸ ended)
    have waits : s.arb.waiting q = true :=
      engaged.resolve_right fun holds' => other (Option.some.inj (holds'.symm.trans holds))
    exact .inl (by rw [arb]; exact waits)

/-- A requester that is left with a task keeps the permit it held. -/
theorem PermitMove.holds (m : PermitMove s t) {q : Requester} (busy : t.task q ≠ none)
    (holds : s.arb.holder = some q) : t.arb.holder = some q := by
  cases m with
  | wait r _ arb | unwait r _ arb => rw [arb, setWaiting_holder_arb, holds]
  | grant r free => rw [free] at holds; cases holds
  | release r accepted _ ended =>
    obtain ⟨holds', -⟩ := releasable_iff.mp accepted
    obtain rfl : q = r := Option.some.inj (holds.symm.trans holds')
    exact absurd ended busy

/-! ### Each clause of the invariant under a move -/

section
variable (inv : Inv s)
include inv

theorem Inv.holder_of_coreMove (m : CoreMove s t) (inFlight : s.txn.phase ≠ .idle) : t.arb.holder = s.arb.holder := by
  obtain same | ⟨free, -⟩ | ⟨idle, -⟩ := m.holder_cases
  · exact same
  · rw [inv.permit inFlight] at free; cases free
  · exact absurd idle inFlight

theorem Inv.permit_of_coreMove (m : CoreMove s t) (inFlight : t.txn.phase ≠ .idle) :
    t.arb.holder = some t.txn.owner := by
  obtain ⟨owner, -, phase⟩ | ⟨r, f, accepted, txn, arb⟩ := m.txn_cases
  · rw [owner, inv.holder_of_coreMove m (phase inFlight), inv.permit (phase inFlight)]
  · obtain ⟨holds, -⟩ := executable_iff.mp accepted
    rw [arb, txn, holds]

theorem Inv.sent_of_coreMove (m : CoreMove s t) (inFlight : t.txn.phase ≠ .idle) : isFrame t.txn.sent = true := by
  obtain ⟨-, sent, phase⟩ | ⟨r, f, accepted, txn, -⟩ := m.txn_cases
  · rw [sent, inv.sent (phase inFlight)]
  · obtain ⟨-, -, frame⟩ := executable_iff.mp accepted
    rw [txn, frame]

theorem Inv.waiting_of_permitMove (m : PermitMove s t) (q : Requester) (waits : t.arb.waiting q = true) :
    t.arb.holder ≠ some q := by
  cases m with
  | wait r accepted arb =>
    rw [arb, setWaiting_holder_arb]
    rw [arb, waiting_setWaiting] at waits
    split at waits
    · next same => exact same ▸ (acquirable_iff.mp accepted).1
    · exact inv.waiting q waits
  | unwait r _ arb =>
    rw [arb, setWaiting_holder_arb]
    rw [arb, waiting_setWaiting] at waits
    split at waits
    · cases waits
    · exact inv.waiting q waits
  | grant r _ _ arb =>
    rw [arb] at waits ⊢
    have waits' : (s.arb.setWaiting r false).waiting q = true := waits
    rw [waiting_setWaiting] at waits'
    split at waits'
    · cases waits'
    · next other => exact fun same => other (Option.some.inj same).symm
  | release r _ arb => simp [arb]

theorem Inv.waiting_of_coreMove (m : CoreMove s t) (q : Requester) (waits : t.arb.waiting q = true) :
    t.arb.holder ≠ some q := by
  obtain same | ⟨permit, -⟩ := m.arb_cases
  · rw [same] at waits ⊢; exact inv.waiting q waits
  · exact inv.waiting_of_permitMove permit q waits

/-- Outside phase CLASSIFY no verdict stands. -/
theorem Inv.verdict_eq_none (phase : s.txn.phase ≠ .classify) : s.txn.verdict = none :=
  inv.verdict.trans (if_neg phase)

/-- Outside the phases that use it there is no capture. -/
theorem Inv.raw_eq_nil (h1 : s.txn.phase ≠ .validate) (h2 : s.txn.phase ≠ .classify) : s.raw = [] :=
  inv.raw.resolve_right (not_or.mpr ⟨h1, h2⟩)

theorem Inv.verdict_of_coreMove (m : CoreMove s t) :
    t.txn.verdict = if t.txn.phase = .classify then some (Machine.validate t.raw) else none := by
  cases m with
  | quiet txn _ raw | permit _ txn raw => rw [txn, raw, inv.verdict]
  | accept _ _ _ txn => simp [txn]
  | write phase _ txn | settle phase txn | capture _ phase _ txn =>
    simp [txn, inv.verdict_eq_none (show s.txn.phase ≠ .classify by simp [phase])]
  | validate _ txn _ raw => simp [txn, raw]
  | deliver _ _ txn => simp [txn]

theorem Inv.raw_of_coreMove (m : CoreMove s t) :
    t.raw = [] ∨ t.txn.phase = .validate ∨ t.txn.phase = .classify := by
  cases m with
  | quiet txn _ raw | permit _ txn raw => rw [txn, raw]; exact inv.raw
  | accept r f accepted _ _ raw =>
    obtain ⟨-, idle, -⟩ := executable_iff.mp accepted
    exact .inl (by rw [raw, inv.raw_eq_nil (by simp [idle]) (by simp [idle])])
  | write phase _ _ _ raw | settle phase _ _ raw =>
    exact .inl (by rw [raw, inv.raw_eq_nil (by simp [phase]) (by simp [phase])])
  | capture _ _ _ txn => exact .inr (.inl (by rw [txn]))
  | validate _ txn => exact .inr (.inr (by rw [txn]))
  | deliver _ _ _ _ raw => exact .inl raw

theorem Inv.fr_of_codecMove (m : CodecMove s t) (valid : t.fr.valid = true) : t.tx.payload.length ≤ 255 ∧
    t.tx.len.toNat = t.tx.payload.length ∧ t.fr.bytes = frameOf t.tx.cmd0 t.tx.cmd1 t.tx.payload := by
  obtain ⟨fr, tx⟩ | ⟨c0, c1, p, fits, fr, tx⟩ := m.built
  · rw [tx, fr]
    exact inv.fr (fr ▸ valid)
  · rw [tx, fr]
    exact ⟨fits, lenByte_toNat p fits, rfl⟩

theorem Inv.txw_of_codecMove (m : CodecMove s t) : t.txw = [] ∨ 8 ≤ t.txw.length ∧ t.txw.length ≤ 518 := by
  obtain same | ⟨f, frame, txw⟩ := m.txw
  · exact same ▸ inv.txw
  · exact .inr (txw ▸ wireBytes_length f frame)

theorem Inv.rx_of_codecMove (m : CodecMove s t) : t.rx.f.length ≤ 265 := by
  obtain same | ⟨raw, rx⟩ | ⟨f, n, d, rx⟩ := m.rx
  · exact same ▸ inv.rx
  · exact rx ▸ rxValidate_length raw s.rx inv.rx
  · exact rx ▸ rxUnesc_length f n d s.rx

theorem Inv.task_of_move (m : Move s t) (q : Requester) (k : Task) (task : t.task q = some k) :
    isFrame k.frame = true ∧ (k.stage = .waiting → t.arb.waiting q = true ∨ t.arb.holder = some q) ∧
      (k.stage = .running → t.arb.holder = some q) := by
  cases m.task q with
  | same kept =>
    obtain ⟨frame, waiting, running⟩ := inv.task q k (kept ▸ task)
    obtain same | ⟨permit, -⟩ := m.core.arb_cases
    · rw [same]; exact ⟨frame, waiting, running⟩
    · have busy : t.task q ≠ none := by simp [task]
      exact ⟨frame, fun stage => permit.engaged busy (waiting stage), fun stage => permit.holds busy (running stage)⟩
  | ended ended => rw [ended] at task; cases task
  | begun k' begun stage frame waits =>
    obtain rfl := Option.some.inj (begun.symm.trans task)
    exact ⟨frame, fun _ => .inl waits, fun running => by rw [stage] at running; cases running⟩
  | running k' before after holds =>
    obtain rfl := Option.some.inj (after.symm.trans task)
    obtain ⟨frame, -, -⟩ := inv.task q k' before
    exact ⟨frame, fun _ => .inr holds, fun _ => holds⟩

end
end

/-! ### The invariant -/

/-- Settles O53: with no transaction, no task, an invalid `FR` and empty buffers every clause holds of the reset values. -/
theorem invariantAtReset : Obligations.InvariantAtReset where
  permit inFlight := absurd rfl inFlight
  waiting q waits := by cases q <;> cases waits
  sent inFlight := absurd rfl inFlight
  verdict := rfl
  raw := .inl rfl
  fr valid := by cases valid
  txw := .inl rfl
  rx := Nat.zero_le _
  out := rfl
  task q k task := by cases q <;> cases task
  timeout := Nat.le_add_right _ _

/-- A reset event gives the reset values but for the configuration, which it does not reach. -/
theorem Inv.resetEvent {s : State} (inv : Inv s) (rest : List Turn) :
    Inv (resetEvent { s with schedule := rest }) where
  permit := invariantAtReset.permit
  waiting := invariantAtReset.waiting
  sent := invariantAtReset.sent
  verdict := invariantAtReset.verdict
  raw := invariantAtReset.raw
  fr := invariantAtReset.fr
  txw := invariantAtReset.txw
  rx := invariantAtReset.rx
  out := invariantAtReset.out
  task := invariantAtReset.task
  timeout := inv.timeout

/-- Settles O54: a step is a reset event or a move, and a move keeps each clause. -/
theorem invariantKeptByEveryStep : Obligations.InvariantKeptByEveryStep := by
  intro s t inv stepped
  obtain ⟨rest, -, rfl⟩ | moved := step_cases s t stepped
  · exact inv.resetEvent rest
  · exact {
      permit := inv.permit_of_coreMove moved.core
      waiting := inv.waiting_of_coreMove moved.core
      sent := inv.sent_of_coreMove moved.core
      verdict := inv.verdict_of_coreMove moved.core
      raw := inv.raw_of_coreMove moved.core
      fr := inv.fr_of_codecMove moved.codec
      txw := inv.txw_of_codecMove moved.codec
      rx := inv.rx_of_codecMove moved.codec
      out := outLegal_of_step inv stepped
      task := inv.task_of_move moved
      timeout := by rw [moved.codec.cfg]; exact inv.timeout }

/-! ### Progress -/

/-- The sequencer has a command frame to write and a verdict to classify where it needs one. -/
theorem sequencer_next {s : State} (sent : s.txn.phase ≠ .idle → isFrame s.txn.sent = true)
    (verdict : s.txn.phase = .classify → ∃ v, s.txn.verdict = some v) : ∃ t, sequencer s = .next t := by
  cases phase : s.txn.phase with
  | idle => exact ⟨s, by simp only [sequencer, phase]⟩
  | write => exact ⟨_, sequencer_write phase (sent (by simp [phase]))⟩
  | settle => exact ⟨_, sequencer_settle phase⟩
  | drain => exact ⟨_, sequencer_drain phase⟩
  | validate => exact ⟨_, sequencer_validate phase⟩
  | classify =>
    obtain ⟨v, verdict⟩ := verdict phase
    exact ⟨_, sequencer_classify phase verdict⟩

theorem runTurn_next (u : Turn) {s : State} (sent : s.txn.phase ≠ .idle → isFrame s.txn.sent = true)
    (verdict : s.txn.phase = .classify → ∃ v, s.txn.verdict = some v) : ∃ t, runTurn u s = .next t := by
  cases u with
  | word w =>
    cases decoded : decode w with
    | ok i =>
      obtain ⟨t, done⟩ := exec_next i s
      exact ⟨t, by simp only [runTurn, decoded, done]⟩
    | error e => exact ⟨undecoded w s, by simp only [runTurn, decoded]⟩
  | sequencer => exact sequencer_next sent verdict
  | grant | requester r | timer | reset => exact ⟨_, rfl⟩

/-- Settles O55: only the sequencer can fault, and the invariant gives it the frame and the verdict that it needs. -/
theorem machineNeverStops : Obligations.MachineNeverStops := by
  intro s inv
  have verdict (phase : s.txn.phase = .classify) : ∃ v, s.txn.verdict = some v :=
    ⟨_, inv.verdict.trans (if_pos phase)⟩
  unfold step
  split
  · next u rest _ => exact runTurn_next u (s := { s with schedule := rest }) inv.sent verdict
  · split
    · next u _ => exact runTurn_next u inv.sent verdict
    · exact ⟨s, rfl⟩

/-! ### Consequences of the invariant -/

theorem classCodes_of_outLegal {o : Out} (legal : outLegal o) : (errCode o.err ≠ 0 ↔ o.cls.code = 3) ∧
    (o.warn = true → o.cls.code = 2) ∧ (o.cls.code = 1 → o.frame = [0x07, 0xF3]) := by
  obtain ⟨cls, frame, err, warn⟩ := o
  cases cls with
  | none | ack => cases legal; decide
  | data =>
    obtain ⟨-, -, noError⟩ := legal
    cases noError
    simp [errCode, OutClass.code]
  | failure =>
    obtain ⟨-, noWarning, kind⟩ := legal
    cases noWarning
    obtain rfl | rfl | rfl | rfl := kind <;> simp [errCode, Kind.code, OutClass.code]

/-- Settles O60: the numbers are the table of R39, and a legal `OUT` has the combinations. -/
theorem outcomeClassCodes : Obligations.OutcomeClassCodes :=
  ⟨rfl, rfl, rfl, rfl, fun _ _ inv stepped => classCodes_of_outLegal (outLegal_of_step inv stepped)⟩

/-- Settles O30: the permit that a transaction in flight goes with is neither free nor releasable, and no `EXEC` is
accepted. -/
theorem inFlightTransactionKept : Obligations.InFlightTransactionKept := by
  intro s t inv inFlight noReset stepped
  have moved := (step_move s t noReset stepped).core
  obtain ⟨owner, sent, -⟩ | ⟨r, f, accepted, -, -⟩ := moved.txn_cases
  · exact ⟨inv.holder_of_coreMove moved inFlight, owner, sent⟩
  · obtain ⟨-, idle, -⟩ := executable_iff.mp accepted
    exact absurd idle inFlight

/-- Settles O31: the owner of a transaction in flight holds the permit, so it cannot wait for it and cannot release it. -/
theorem ownerCannotAbandon : Obligations.OwnerCannotAbandon := by
  intro s inv inFlight
  constructor
  · refine exec_release_of_not_releasable fun accepted => ?_
    obtain ⟨-, idle⟩ := releasable_iff.mp accepted
    exact inFlight idle
  · refine exec_cancel_of_not_waiting (Bool.eq_false_iff.mpr fun waits => ?_)
    exact inv.waiting _ waits (inv.permit inFlight)

/-! ### What holds of every step -/

/-- Settles O37: the holder changes with the arbiter's registers only, which is a grant or a release. -/
theorem holderChangesByGrantOrRelease : Obligations.HolderChangesByGrantOrRelease :=
  fun s t noReset stepped => (step_move s t noReset stepped).core.holder_cases

theorem exec_wire_of_isFrame {f : List Byte} (h : isFrame f = true) (s : State) :
    exec (.wire f) s = .next (answer (.bytes (wireBytes f)) { s with txw := wireBytes f }) :=
  if_pos h

/-- Settles O32: of all moves the write of phase WRITE alone reaches the channel, with the wire form of the frame in
flight. -/
theorem channelSeesWholeFrames : Obligations.ChannelSeesWholeFrames := by
  intro s t stepped
  obtain ⟨rest, -, rfl⟩ | moved := step_cases s t stepped
  · exact .inl rfl
  cases moved.core with
  | write phase frame txn _ _ _ written =>
    exact .inr ⟨phase, by rw [txn], wireBytes s.txn.sent, by rw [exec_wire_of_isFrame frame]; rfl, written⟩
  | quiet _ _ _ _ written | permit _ _ _ _ written | accept _ _ _ _ _ _ _ written | settle _ _ _ _ _ written
  | capture _ _ _ _ _ _ _ written | validate _ _ _ _ _ written | deliver _ _ _ _ _ _ written => exact .inl written

/-- Settles O48: a move that logs is a quiet one with its one event or the delivery of a result. -/
theorem atMostOneEventPerStep : Obligations.AtMostOneEventPerStep := by
  intro s t noReset stepped
  cases (step_move s t noReset stepped).core with
  | quiet _ _ _ _ _ log => exact log
  | deliver r _ _ _ _ _ _ log => rw [log]; exact resultEvents_atMostOne s.log r
  | permit _ _ _ _ _ log | accept _ _ _ _ _ _ _ _ log | write _ _ _ _ _ _ _ log | settle _ _ _ _ _ _ log
  | capture _ _ _ _ _ _ _ _ log | validate _ _ _ _ _ _ log => exact .inl log

/-- Settles O49: no move writes the configuration, and a reset event takes it over. -/
theorem configurationNeverWritten : Obligations.ConfigurationNeverWritten := by
  intro s t stepped
  obtain ⟨rest, -, rfl⟩ | moved := step_cases s t stepped
  · rfl
  · exact moved.codec.cfg

end Sys2Proof.Machine
end

section
/-! PROOF. The results of `ESC` and `WIRE` (40_tx_framer.md R105 to R108). -/

namespace Sys2Proof.Machine

/-! ### `ESC` -/

theorem dropSeconds_cons_of_ne {b : Byte} (h : b ≠ 0x07) (t : List Byte) : dropSeconds (b :: t) = b :: dropSeconds t := by
  cases t with
  | nil => rfl
  | cons c t => exact if_neg fun pair => h pair.1

/-- Dropping the second byte of each pair undoes `ESC` (40_tx_framer.md R106). -/
theorem dropSeconds_esc (p : List Byte) : dropSeconds (esc p) = p := by
  induction p with
  | nil => rfl
  | cons b t ih =>
    by_cases reserved : b = 7#8
    · subst reserved
      rw [esc_reserved, dropSeconds, if_pos ⟨rfl, rfl⟩, ih]
    · rw [esc_other b t reserved, dropSeconds_cons_of_ne reserved, ih]

theorem getLast?_ne_of_cons {b c : Byte} {a : List Byte} (h : (b :: a).getLast? ≠ some c) : a.getLast? ≠ some c :=
  fun last => h (by rw [List.getLast?_cons, last, Option.getD_some])

/-- Every maximal run of `0x07` in an escaped payload is even: the payload is read byte by byte, and a pair is either before
the run, or in it. -/
theorem even_of_esc_eq (p : List Byte) {a b : List Byte} {m : Nat} (h : esc p = a ++ List.replicate m 0x07 ++ b)
    (before : a.getLast? ≠ some 0x07) (after : b.head? ≠ some 0x07) : m % 2 = 0 := by
  induction p generalizing a m with
  | nil =>
    have lengths := congrArg List.length h
    simp only [esc_nil, List.length_append, List.length_replicate, List.length_nil] at lengths
    omega
  | cons x t ih =>
    by_cases reserved : x = 7#8
    · subst reserved
      rw [esc_reserved] at h
      match a, m with
      | [], 0 => rfl
      | [], 1 =>
        have next : b = 0x07 :: esc t := (List.cons.inj h).2.symm
        exact absurd (by rw [next]; rfl) after
      | [], m + 2 =>
        have rest : esc t = [] ++ List.replicate m 0x07 ++ b := (List.cons.inj (List.cons.inj h).2).2
        rw [Nat.add_mod_right]
        exact ih rest before
      | [y], m =>
        have : y = 0x07 := (List.cons.inj h).1.symm
        exact absurd (by rw [this]; rfl) before
      | y :: z :: a, m =>
        exact ih (List.cons.inj (List.cons.inj h).2).2 (getLast?_ne_of_cons (getLast?_ne_of_cons before))
    · rw [esc_other x t reserved] at h
      match a, m with
      | [], 0 => rfl
      | [], m + 1 => exact absurd (List.cons.inj h).1 reserved
      | y :: a, m => exact ih (List.cons.inj h).2 (getLast?_ne_of_cons before)

/-- Settles O11: the reply of `ESC` is `esc`, of which each clause is a lemma. -/
theorem escResult : Obligations.EscResult := fun p s =>
  ⟨answer (.bytes (esc p)) s, esc p, rfl, rfl, esc_length p, dropSeconds_esc p, esc_filter p,
    fun _ _ _ => even_of_esc_eq p, rfl⟩

/-! ### `WIRE` -/

/-- Settles O12: the wire form is the header, the escaped payload and the trailer. -/
theorem wireResult : Obligations.WireResult := by
  intro hd pl tl s header fits len trailer
  obtain ⟨frame, wire⟩ := wireBytes_parts hd pl tl header len fits trailer
  refine ⟨_, esc pl, exec_wire_of_isFrame frame s, congrArg Reply.bytes wire, wire, dropSeconds_esc pl, ?length,
    esc_eq_self pl, rfl⟩
  case length =>
    have escaped : (esc pl).length = pl.length + pl.count 0x07 := esc_length pl
    simp only [List.length_append, escaped, header, trailer]
    omega

end Sys2Proof.Machine
end

section
/-! PROOF. The results of `UNESC` (42_rx_deframer.md R141 to R145). -/

namespace Sys2Proof.Machine

/-! ### The scan -/

/-- A scan that deletes nothing leaves the frame as it is. -/
theorem unescScan_eq_self {k i : Nat} {f : List Byte} (h : (unescScan k i f).1.length = f.length) :
    (unescScan k i f).1 = f := by
  induction k generalizing i f with
  | zero => rfl
  | succ k ih =>
    unfold unescScan at h ⊢
    split
    · rfl
    · next b there =>
      simp only [there] at h
      split
      · next reserved =>
        rw [if_pos reserved] at h
        split
        · rfl
        · next c second =>
          simp only [second] at h
          split
          · next pair =>
            rw [if_pos pair] at h
            obtain ⟨inside, -⟩ := List.getElem?_eq_some_iff.mp second
            have shorter : (delete f (i + 1)).length = f.length - 1 := List.length_eraseIdx_of_lt inside
            have := (unescScan_length k (i + 1) (delete f (i + 1))).1
            omega
          · next single => rw [if_neg single] at h; exact ih h
      · next other => rw [if_neg other] at h; exact ih h

/-- A scan stops where the byte of its index is not there, or where it is a `0x07` and the second byte is not there. -/
theorem unescScan_stop {k i : Nat} {f : List Byte} (warned : (unescScan k i f).2.2 = true) :
    (unescScan k i f).1[(unescScan k i f).2.1]? = none ∨ (unescScan k i f).1[(unescScan k i f).2.1]? = some 0x07 := by
  induction k generalizing i f with
  | zero => cases warned
  | succ k ih =>
    unfold unescScan at warned ⊢
    split
    · next missing => exact .inl missing
    · next b there =>
      simp only [there] at warned
      split
      · next reserved =>
        rw [if_pos reserved] at warned
        split
        · exact .inr (there.trans (congrArg some reserved))
        · next c second =>
          simp only [second] at warned
          split
          · next pair => rw [if_pos pair] at warned; exact ih warned
          · next single => rw [if_neg single] at warned; exact ih warned
      · next other => rw [if_neg other] at warned; exact ih warned

/-- A scan of one index stops at a `0x07` that is the last byte of the frame. -/
theorem unescScan_one_of_last {i : Nat} {f : List Byte} (length : f.length = i + 1) (last : f[i]? = some 0x07) :
    unescScan 1 i f = (f, i, true) := by
  have missing : f[i + 1]? = none := List.getElem?_eq_none length.le
  simp [unescScan, last, missing]

/-- A scan of one index that warns deletes nothing. -/
theorem unescScan_one_of_warned {i : Nat} {f : List Byte} (warned : (unescScan 1 i f).2.2 = true) :
    (unescScan 1 i f).1 = f := by
  unfold unescScan at warned ⊢
  split
  · rfl
  · next there =>
    simp only [there] at warned
    split
    · next reserved =>
      rw [if_pos reserved] at warned
      split
      · rfl
      · next second =>
        simp only [second, unescScan] at warned
        split at warned <;> cases warned
    · next other => rw [if_neg other] at warned; cases warned

/-- A scan of one index goes past a `0x07` that another byte follows. -/
theorem unescScan_one_of_single {pre post : List Byte} {b : Byte} (other : b ≠ 0x07) :
    unescScan 1 pre.length (pre ++ 0x07 :: b :: post) = (pre ++ 0x07 :: b :: post, pre.length + 1, false) := by
  have single : b ≠ 7#8 := other
  simp [unescScan, single]

/-! ### The frame, the index and the flag of `UNESC` -/

section
variable {f : List Byte} {n : Byte}

/-- For a declared length of 0 or 1 nothing is scanned. -/
theorem unesc_of_le_one (h : n.toNat ≤ 1) : unesc f n = (f, 7, false) := by
  rw [unesc, Nat.sub_eq_zero_of_le h]
  rfl

/-- The `N - 1` indices from 7 on end at `5 + N`. -/
theorem unesc_eq_unescScan {k : Nat} (h : n.toNat = k + 1) : unesc f n = unescScan k 7 f := by
  rw [unesc, h]; rfl

theorem unesc_length_le : (unesc f n).1.length ≤ f.length := (unescScan_length _ _ f).1

/-- Where the index rests (Log 33), as the nine-bit register `RX.i` holds it. -/
theorem unesc_index_toNat : (BitVec.ofNat 9 (unesc f n).2.1).toNat = (unesc f n).2.1 := by
  have index : (unesc f n).2.1 ≤ 7 + (n.toNat - 1) := by
    obtain ⟨completed, stopped⟩ := unescScan_index (n.toNat - 1) 7 f
    cases warned : (unesc f n).2.2 with
    | false => exact (completed warned).le
    | true => exact (stopped warned).2.1.le
  have := n.isLt
  rw [BitVec.toNat_ofNat, Nat.mod_eq_of_lt (by omega)]

theorem unesc_index_of_completed (h : (unesc f n).2.2 = false) : (unesc f n).2.1 = max 7 (6 + n.toNat) := by
  have := (unescScan_index (n.toNat - 1) 7 f).1 h
  rw [unesc, PAYLOAD_BASE_RX, this]
  omega

theorem unesc_index_of_warned (h : (unesc f n).2.2 = true) :
    7 ≤ (unesc f n).2.1 ∧ (unesc f n).2.1 ≤ 5 + n.toNat ∧ (unesc f n).1.length ≤ (unesc f n).2.1 + 1 := by
  obtain ⟨low, high, length⟩ := (unescScan_index (n.toNat - 1) 7 f).2 h
  exact ⟨low, show (unescScan (n.toNat - 1) 7 f).2.1 ≤ 5 + n.toNat by omega, length⟩

/-- A completed scan leaves the byte of its last index. -/
theorem unesc_length_of_completed (long : 2 ≤ n.toNat) (h : (unesc f n).2.2 = false) :
    n.toNat + 6 ≤ (unesc f n).1.length := by
  obtain ⟨k, length⟩ := Nat.exists_eq_add_of_le' long
  rw [unesc_eq_unescScan (k := k + 1) length] at h ⊢
  have := unescScan_reach k 7 f h
  omega

/-- A scan that stops with `N + 6` bytes left stops at the last of them, which is a `0x07`. -/
theorem unesc_last_of_warned (h : (unesc f n).2.2 = true) (length : (unesc f n).1.length = n.toNat + 6) :
    (unesc f n).1[n.toNat + 5]? = some 0x07 := by
  obtain ⟨-, high, reach⟩ := unesc_index_of_warned h
  have last : (unesc f n).2.1 = n.toNat + 5 := by omega
  have stop := unescScan_stop (k := n.toNat - 1) (i := 7) (f := f) h
  change (unesc f n).1[(unesc f n).2.1]? = none ∨ (unesc f n).1[(unesc f n).2.1]? = some 0x07 at stop
  rw [last] at stop
  exact stop.resolve_left fun missing => by
    have := List.getElem?_eq_none_iff.mp missing
    omega

/-- With `N + 6` bytes left of which the last is a `0x07`, `UNESC` stops exactly where the scan of one index less leaves the
same bytes without a warning. -/
theorem unesc_warned_iff (long : 2 ≤ n.toNat) (length : (unesc f n).1.length = n.toNat + 6)
    (last : (unesc f n).1[n.toNat + 5]? = some 0x07) :
    (unesc f n).2.2 = true ↔ (unesc f (n - 1)).1 = (unesc f n).1 ∧ (unesc f (n - 1)).2.2 = false := by
  obtain ⟨k, n_eq⟩ := Nat.exists_eq_add_of_le' long
  have pred_eq : (n - 1).toNat = k + 1 := by bv_omega
  have full := unesc_eq_unescScan (f := f) (k := k + 1) n_eq
  have shorter := unesc_eq_unescScan (f := f) pred_eq
  have step := unescScan_last k 7 f
  rw [← full, ← shorter] at step
  constructor
  · intro warned
    cases early : (unesc f (n - 1)).2.2 with
    | true =>
      obtain ⟨-, high, reach⟩ := unesc_index_of_warned early
      rw [step, if_pos early] at length
      omega
    | false =>
      rw [early, if_neg Bool.false_ne_true] at step
      rw [step] at warned ⊢
      exact ⟨(unescScan_one_of_warned warned).symm, rfl⟩
  · rintro ⟨same, completed⟩
    rw [completed, if_neg Bool.false_ne_true, same] at step
    have index : n.toNat + 5 = 7 + k := by omega
    rw [step, unescScan_one_of_last (by omega) (index ▸ last)]

/-- Where no pair stands in the scanned range nothing is deleted. -/
theorem unesc_of_noPair (noPair : ∀ i, 7 ≤ i → i ≤ 5 + n.toNat → ¬ (f[i]? = some 0x07 ∧ f[i + 1]? = some 0x07)) :
    (unesc f n).1 = f :=
  (unescScan_noPair (n.toNat - 1) 7 f fun i low high => noPair i low (by omega)).1

end

/-! ### `UNESC` as an operation -/

theorem replyOf_exec_unesc (f : List Byte) (n : Byte) (s : State) :
    replyOf (exec (.unesc f n) s) = some (.checked (unesc f n).1 (unesc f n).2.2) := rfl

theorem replyOf_exec_unesc_eq_iff {f g : List Byte} {n : Byte} {oor : Bool} {s : State} :
    replyOf (exec (.unesc f n) s) = some (.checked g oor) ↔ (unesc f n).1 = g ∧ (unesc f n).2.2 = oor := by
  simp [replyOf_exec_unesc]

theorem rxUnesc_f_of_fits {f : List Byte} (fits : f.length ≤ 265) (n : Byte) (draw : Nat) (rx : Rx) :
    (rxUnesc f n draw rx).f = (unesc f n).1 :=
  if_pos (decide_eq_true fits)

/-- Settles O20: the registers are those of `rxUnesc`, and the flag follows from where the scan stops and from how many bytes
a completed scan leaves. -/
theorem unescResult : Obligations.UnescResult := by
  intro F n s
  refine ⟨_, (unesc F n).1, (unesc F n).2.2, rfl, rfl, unesc_length_le, fun short => ?nothing, fun long few => ?few,
    fun many => ?many, fun _ length other => ?other, fun long length last => ?last, rfl, rfl,
    fun fits => ⟨rxUnesc_f_of_fits fits n _ _, if_pos (decide_eq_true fits)⟩,
    fun large => if_neg (by simpa [fitsRx] using large), rxUnesc_length F n _ _, rfl, fun completed => ?completed,
    fun warned => ?warned, rfl, rfl⟩
  case nothing => rw [unesc_of_le_one short]; exact ⟨rfl, rfl⟩
  case few =>
    refine Bool.eq_true_of_not_eq_false fun completed => ?_
    have := unesc_length_of_completed long completed
    omega
  case many =>
    refine Bool.eq_false_iff.mpr fun warned => ?_
    have := unesc_index_of_warned warned
    omega
  case other => exact Bool.eq_false_iff.mpr fun warned => other (unesc_last_of_warned warned length)
  case last => rw [replyOf_exec_unesc_eq_iff]; exact unesc_warned_iff long length last
  case completed => exact unesc_index_toNat.trans (unesc_index_of_completed completed)
  case warned =>
    have index : (BitVec.ofNat 9 (unesc F n).2.1).toNat = (unesc F n).2.1 := unesc_index_toNat
    exact index.symm ▸ unesc_index_of_warned warned

/-- Settles O21: without a pair nothing is deleted, so the bytes left are the operand's. -/
theorem unescWithoutPairs : Obligations.UnescWithoutPairs := by
  intro F n s noPair
  have same := unesc_of_noPair noPair
  refine ⟨(unesc F n).2.2, replyOf_exec_unesc_eq_iff.mpr ⟨same, rfl⟩, fun many => ?many, fun enough single => ?single,
    fun long few => ?few, fun long length last => ?last⟩
  case many =>
    refine Bool.eq_false_iff.mpr fun warned => ?_
    have := unesc_index_of_warned warned
    rw [same] at this
    omega
  case single =>
    by_cases short : n.toNat ≤ 1
    · rw [unesc_of_le_one short]
    · obtain ⟨-, -, completed⟩ := unescScan_noPair (n.toNat - 1) 7 F fun i low high => noPair i low (by omega)
      exact completed (by omega) fun i low high => single i low (by omega)
  case few =>
    refine Bool.eq_true_of_not_eq_false fun completed => ?_
    have := unesc_length_of_completed long completed
    rw [same] at this
    omega
  case last =>
    have pred : (n - 1).toNat = n.toNat - 1 := by bv_omega
    have same' : (unesc F (n - 1)).1 = F := unesc_of_noPair fun i low high => noPair i low (by omega)
    refine (unesc_warned_iff long (by rw [same, length, Nat.add_comm]) (by rw [same, Nat.add_comm, last])).mpr ?_
    refine ⟨same'.trans same.symm, Bool.eq_false_iff.mpr fun warned => ?_⟩
    have := unesc_index_of_warned warned
    rw [same'] at this
    omega

/-! ### Runs of `0x07` -/

section
variable {pre post : List Byte} {n : Byte} {m : Nat}

theorem unesc_evenRun (seven : pre.length = 7) (length : n.toNat = m + 1) :
    unesc (pre ++ List.replicate (2 * m) 0x07 ++ post) n = (pre ++ List.replicate m 0x07 ++ post, 7 + m, false) := by
  rw [unesc_eq_unescScan length, ← seven]
  exact unescScan_run m 0 pre post

theorem unesc_oddRun (seven : pre.length = 7) {b : Byte} (other : b ≠ 0x07) (length : n.toNat = m + 2) :
    unesc (pre ++ List.replicate (2 * m + 1) 0x07 ++ b :: post) n =
      (pre ++ List.replicate (m + 1) 0x07 ++ b :: post, 7 + m + 1, false) := by
  have split (k : Nat) : pre ++ List.replicate (k + 1) 0x07 ++ b :: post =
      pre ++ List.replicate k 0x07 ++ 0x07 :: b :: post := by simp [List.replicate_succ']
  have behind : 7 + m = (pre ++ List.replicate m (0x07 : Byte)).length := by simp [seven]
  rw [unesc_eq_unescScan length, split, split, ← seven]
  refine (unescScan_run m 1 pre (0x07 :: b :: post)).trans ?_
  rw [seven, behind]
  exact unescScan_one_of_single other

/-- The first run of pairs, behind `j` bytes without one, becomes its half, and the rest is what the scan of the `k` indices
that are left makes of it. -/
theorem unescScan_firstRun {j k : Nat} (length : pre.length = 7 + j) (last : 0 < j → pre.getLast? ≠ some 0x07)
    (noPair : ∀ i, 7 ≤ i → ¬ (pre[i]? = some 0x07 ∧ pre[i + 1]? = some 0x07)) :
    (unescScan (j + (m + k)) 7 (pre ++ List.replicate (2 * m) 0x07 ++ post)).1 =
        pre ++ List.replicate m 0x07 ++ (unescScan k 0 post).1 ∧
      (unescScan (j + (m + k)) 7 (pre ++ List.replicate (2 * m) 0x07 ++ post)).2.2 = (unescScan k 0 post).2.2 := by
  have inside {i : Nat} (h : i < 7 + j) : (pre ++ List.replicate (2 * m) 0x07 ++ post)[i]? = pre[i]? := by
    rw [List.append_assoc, List.getElem?_append_left (by omega)]
  have last' (h : 0 < j) : (pre ++ List.replicate (2 * m) 0x07 ++ post)[7 + j - 1]? ≠ some 0x07 := by
    rw [inside (by omega), ← length, ← List.getLast?_eq_getElem?]
    exact last h
  have noPair' (i : Nat) (low : 7 ≤ i) (high : i < 7 + j) : ¬ ((pre ++ List.replicate (2 * m) 0x07 ++ post)[i]? = some 0x07 ∧
      (pre ++ List.replicate (2 * m) 0x07 ++ post)[i + 1]? = some 0x07) := by
    by_cases edge : i + 1 < 7 + j
    · rw [inside high, inside edge]; exact noPair i low
    · obtain rfl : i = 7 + j - 1 := by omega
      exact fun pair => last' (by omega) pair.1
  have skipped := unescScan_skip j (m + k) 7 _ (by simp; omega) last' noPair'
  have halved : unescScan (m + k) pre.length (pre ++ List.replicate (2 * m) 0x07 ++ post) =
      unescScan k (pre.length + m) (pre ++ List.replicate m 0x07 ++ post) := unescScan_run m k pre post
  have rest := unescScan_prefix k 0 (pre ++ List.replicate m 0x07) post
  rw [List.length_append, List.length_replicate, Nat.add_zero] at rest
  rw [skipped, ← length, halved, rest]
  exact ⟨rfl, rfl⟩

end

/-- Settles O22: an even run is halved by `unescScan_run`; an odd one leaves a `0x07` that its last index goes past; and what
follows the first run is scanned as if it stood at index 7. -/
theorem unescHalvesRuns : Obligations.UnescHalvesRuns := by
  refine ⟨fun pre post b n m s seven other => ⟨fun length => ?even, fun length => ?odd⟩,
    fun pre x post g n n' j m oor s length seven last noPair positive indices rest => ?later, fun s => rfl⟩
  case even => rw [replyOf_exec_unesc, unesc_evenRun seven length]
  case odd => rw [replyOf_exec_unesc, unesc_oddRun seven other length]
  case later =>
    obtain ⟨k, n'_eq⟩ := Nat.exists_eq_add_of_le' positive
    have n_eq : n.toNat = j + (m + k) + 1 := by omega
    rw [replyOf_exec_unesc_eq_iff, unesc_eq_unescScan n'_eq, ← seven, ← Nat.add_zero x.length,
      unescScan_prefix k 0 x post] at rest
    obtain ⟨frame, flag⟩ := rest
    obtain ⟨halved, same⟩ := unescScan_firstRun (m := m) (k := k) (post := post) length last noPair
    rw [replyOf_exec_unesc_eq_iff, unesc_eq_unescScan n_eq]
    exact ⟨halved.trans (by rw [List.append_cancel_left frame]), same.trans flag⟩

end Sys2Proof.Machine
end

section
/-! PROOF. The results of `VALIDATE` (42_rx_deframer.md R130 to R138, 30_encoding.md R81). -/

namespace Sys2Proof.Machine

/-! ### `VALIDATE` as an operation -/

/-- What `VALIDATE` of its own does, by its verdict. -/
theorem exec_validate_of_eq {raw : List Byte} {v : Verdict} (h : validate raw = v) (s : State) :
    exec (.validate raw) s = .next { s with
      rx := rxValidate raw s.rx, log := s.log ++ v.events, reply := verdictReply v } := by
  rw [← h]; rfl

@[simp] theorem verdictReply_eq_error_iff {v : Verdict} {k : Kind} : verdictReply v = .error k ↔ v = .err k := by
  cases v <;> simp [verdictReply]

/-- Settles O16: an error reply is an error verdict, whose kinds are known. -/
theorem validateErrorKinds : Obligations.ValidateErrorKinds := by
  intro raw s k failed
  rw [replyOf_exec_validate, Option.some_inj, verdictReply_eq_error_iff] at failed
  exact validate_err_kind raw k failed

/-! ### Captures of fewer than ten bytes -/

theorem rxValidate_of_short {raw : List Byte} (h : raw.length < 10) (rx : Rx) :
    rxValidate raw rx = { rx with oor := false } :=
  if_pos h

theorem validate_of_incomplete {raw : List Byte} (h : raw.length ≤ 1) : validate raw = .err .incomplete := if_pos h

theorem validate_ackBytes : validate ackBytes = .ok ackBytes false := rfl

theorem validate_of_tooShort {raw : List Byte} (two : 2 ≤ raw.length) (short : raw.length < 10) (other : raw ≠ ackBytes) :
    validate raw = .err .tooShort := by
  rw [validate, if_neg (by omega), if_neg fun h => other h.2, if_pos short]

/-- Settles O13: steps 1 to 3 are told apart by the length and by whether the capture is the acknowledgment. -/
theorem validateShortCaptures : Obligations.ValidateShortCaptures := by
  refine fun raw s => ⟨fun short => ?incomplete, fun isAck => ?acknowledgment, fun two short other => ?tooShort⟩
  case incomplete =>
    rw [exec_validate_of_eq (validate_of_incomplete short), rxValidate_of_short (by omega)]; rfl
  case acknowledgment =>
    subst isAck
    rw [exec_validate_of_eq validate_ackBytes, rxValidate_of_short (by decide)]
    simp [Verdict.events, warnEvents, verdictReply]
  case tooShort =>
    rw [exec_validate_of_eq (validate_of_tooShort two (by omega) other), rxValidate_of_short (by omega)]; rfl

/-! ### Captures of ten bytes or more -/

section
variable {raw : List Byte} (ten : 10 ≤ raw.length)
include ten

theorem getElem?_lenRx : raw[6]? = some (lenRx raw) := by
  have inside : 6 < raw.length := by omega
  rw [lenRx, LEN_INDEX_RX, List.getD_eq_getElem?_getD, List.getElem?_eq_getElem inside, Option.getD_some]

theorem markersMatch_keptPart_iff : markersMatch (keptPart raw) = true ↔ marked (kept raw) :=
  markersMatch_iff (keptPart raw) (keptPart_length raw ten).1

theorem validate_of_not_marked (h : ¬ marked (kept raw)) : validate raw = .err .malformedFrame := by
  rw [validate_of_ten_le ten, if_neg (mt (markersMatch_keptPart_iff ten).mp h)]

theorem validate_of_marked (h : marked (kept raw)) :
    validate raw = .ok (unesc (kept raw) (lenRx raw)).1 (unesc (kept raw) (lenRx raw)).2.2 := by
  rw [validate_of_ten_le ten, if_pos ((markersMatch_keptPart_iff ten).mpr h)]
  rfl

theorem rxValidate_of_ten_le (rx : Rx) : rxValidate raw rx = if markersMatch (keptPart raw) then
    ⟨lenRx raw, (lenRx raw).zeroExtend 9 + 10, (unesc (keptPart raw) (lenRx raw)).1,
      BitVec.ofNat 9 (unesc (keptPart raw) (lenRx raw)).2.1, (unesc (keptPart raw) (lenRx raw)).2.2⟩
    else ⟨lenRx raw, (lenRx raw).zeroExtend 9 + 10, keptPart raw, rx.i, false⟩ :=
  if_neg (by omega)

theorem rxValidate_of_not_marked (h : ¬ marked (kept raw)) (rx : Rx) :
    rxValidate raw rx = ⟨lenRx raw, (lenRx raw).zeroExtend 9 + 10, kept raw, rx.i, false⟩ := by
  rw [rxValidate_of_ten_le ten, if_neg (mt (markersMatch_keptPart_iff ten).mp h)]
  rfl

theorem rxValidate_of_marked (h : marked (kept raw)) (rx : Rx) : rxValidate raw rx =
    ⟨lenRx raw, (lenRx raw).zeroExtend 9 + 10, (unesc (kept raw) (lenRx raw)).1,
      BitVec.ofNat 9 (unesc (kept raw) (lenRx raw)).2.1, (unesc (kept raw) (lenRx raw)).2.2⟩ := by
  rw [rxValidate_of_ten_le ten, if_pos ((markersMatch_keptPart_iff ten).mpr h)]
  rfl

end

/-- The nine bits of `RX.M` hold the length of the longest response. -/
theorem messageLength_toNat (n : Byte) : (n.zeroExtend 9 + 10).toNat = n.toNat + 10 := by
  bv_omega

/-- Settles O14: step 5 fails, after step 4 has written `RX.N`, `RX.M` and `RX.F`. -/
theorem validateMalformed : Obligations.ValidateMalformed := by
  intro raw s ten unmarked
  refine ⟨_, exec_validate_of_eq (validate_of_not_marked ten unmarked) s, rfl, rfl, ?_⟩
  rw [rxValidate_of_not_marked ten unmarked]
  exact ⟨getElem?_lenRx ten, messageLength_toNat _, rfl, rfl, rfl, rfl⟩

/-- Settles O15: step 6 is `UNESC` of the kept part, so the registers are where its scan rests. -/
theorem validateAccepts : Obligations.ValidateAccepts := by
  intro raw s ten isMarked
  refine ⟨_, lenRx raw, (unesc (kept raw) (lenRx raw)).1, (unesc (kept raw) (lenRx raw)).2.2, getElem?_lenRx ten,
    replyOf_exec_unesc _ _ s, exec_validate_of_eq (validate_of_marked ten isMarked) s, rfl, rfl, ?_⟩
  rw [rxValidate_of_marked ten isMarked]
  refine ⟨rfl, messageLength_toNat _, rfl, rfl, fun completed => ?completed, fun warned => ?warned, rfl⟩
  case completed => exact unesc_index_toNat.trans (unesc_index_of_completed completed)
  case warned =>
    have index := unesc_index_toNat (f := kept raw) (n := lenRx raw)
    exact index.symm ▸ unesc_index_of_warned warned

/-! ### The accepted captures -/

theorem validate_eq_ok_iff (raw : List Byte) :
    (∃ f oor, validate raw = .ok f oor) ↔ raw = ackBytes ∨ 10 ≤ raw.length ∧ marked (kept raw) := by
  constructor
  · rintro ⟨f, oor, accepted⟩
    obtain ⟨-, v⟩ | ⟨isAck, -⟩ | ⟨-, -, -, v⟩ | ⟨-, -, v⟩ | ⟨ten, isMarked, -⟩ := validate_cases raw
    · rw [v] at accepted; cases accepted
    · exact .inl isAck
    · rw [v] at accepted; cases accepted
    · rw [v] at accepted; cases accepted
    · exact .inr ⟨ten, isMarked⟩
  · rintro (rfl | ⟨ten, isMarked⟩)
    · exact ⟨_, _, validate_ackBytes⟩
    · exact ⟨_, _, validate_of_marked ten isMarked⟩

/-- A sequence of at least nine bytes with the markers is the wire form of an `RF`, whose fields stand between them. -/
theorem eq_encode_rf_of_marked {f : List Byte} (h : marked f) (nine : 9 ≤ f.length) : ∃ c0 c1 len body,
    f = [ACK0, ACK1, START0, START1, c0, c1, len] ++ body ++ [END0, END1] ∧ f.getD 6 0 = len := by
  obtain ⟨start, last⟩ := h
  match f, nine with
  | b0 :: b1 :: b2 :: b3 :: c0 :: c1 :: len :: t, nine =>
    refine ⟨c0, c1, len, t.take (t.length - 2), ?_, rfl⟩
    have two : 2 ≤ t.length := by simpa using nine
    have tail : t.drop (t.length - 2) = [END0, END1] := by
      rw [← last, show (b0 :: b1 :: b2 :: b3 :: c0 :: c1 :: len :: t).length - 2 = t.length - 2 + 7 by simp; omega]
      rfl
    obtain ⟨rfl, rfl, rfl, rfl⟩ : b0 = ACK0 ∧ b1 = ACK1 ∧ b2 = START0 ∧ b3 = START1 := by simpa using start
    rw [← tail, List.append_assoc, List.take_append_drop]
    rfl

theorem marked_rf (c0 c1 len : Byte) (body : List Byte) :
    marked ([ACK0, ACK1, START0, START1, c0, c1, len] ++ body ++ [END0, END1]) := by
  refine ⟨rfl, ?_⟩
  have length : ([ACK0, ACK1, START0, START1, c0, c1, len] ++ body ++ [END0, END1]).length - 2 =
      ([ACK0, ACK1, START0, START1, c0, c1, len] ++ body).length := by simp
  rw [length, List.drop_left]

theorem wellFormed_rf_iff {c0 c1 len : Byte} {body : List Byte} :
    wellFormed (.rf c0 c1 len body 0x07 0x0F) = true ↔ 1 ≤ body.length ∧ body.length ≤ len.toNat + 1 := by
  simp [wellFormed]

/-- A capture has ten bytes and the markers of step 5 exactly where its kept part is a well-formed `RF`. -/
theorem marked_kept_iff (raw : List Byte) : 10 ≤ raw.length ∧ marked (kept raw) ↔
    ∃ c0 c1 len body, wellFormed (.rf c0 c1 len body 0x07 0x0F) = true ∧
      raw.take (len.toNat + 10) = [ACK0, ACK1, START0, START1, c0, c1, len] ++ body ++ [END0, END1] := by
  constructor
  · rintro ⟨ten, isMarked⟩
    have length : (kept raw).length = min ((raw.getD 6 0).toNat + 10) raw.length := List.length_take
    obtain ⟨c0, c1, len, body, parts, declared⟩ := eq_encode_rf_of_marked isMarked (by omega)
    have len_eq : raw.getD 6 0 = len := by
      rw [← declared]; exact (lenRx_keptPart raw).symm
    have total := congrArg List.length parts
    simp only [List.length_append, List.length_cons, List.length_nil] at total
    rw [len_eq] at length
    refine ⟨c0, c1, len, body, wellFormed_rf_iff.mpr (by omega), ?_⟩
    rw [← len_eq]
    exact parts.trans (by rw [len_eq])
  · rintro ⟨c0, c1, len, body, wf, parts⟩
    obtain ⟨low, -⟩ := wellFormed_rf_iff.mp wf
    have total := congrArg List.length parts
    simp only [List.length_append, List.length_cons, List.length_nil, List.length_take] at total
    have len_eq : raw.getD 6 0 = len := by
      have := congrArg (·[6]?) parts
      simp only [List.getElem?_take_of_lt (show 6 < len.toNat + 10 by omega)] at this
      rw [List.getD_eq_getElem?_getD, this]
      rfl
    refine ⟨by omega, ?_⟩
    rw [kept, len_eq, parts]
    exact marked_rf c0 c1 len body

/-- Settles O17: the acknowledgment is accepted by step 2, and what passes step 5 is a well-formed `RF`. -/
theorem acceptedCapturesAreWireForms : Obligations.AcceptedCapturesAreWireForms := by
  intro raw s
  simp only [replyOf_exec_validate, Option.some_inj, verdictReply_eq_checked_iff]
  exact (validate_eq_ok_iff raw).trans (or_congr_right (marked_kept_iff raw))

/-! ### A bounded capture buffer -/

theorem rxValidate_eq_of_keptPart_eq {x y : List Byte} (hx : 10 ≤ x.length) (hy : 10 ≤ y.length)
    (h : keptPart x = keptPart y) (rx : Rx) : rxValidate x rx = rxValidate y rx := by
  have len : lenRx x = lenRx y := by rw [← lenRx_keptPart x, h, lenRx_keptPart]
  rw [rxValidate_of_ten_le hx, rxValidate_of_ten_le hy, h, len]

theorem keptPart_take {cap : Nat} (h : 265 ≤ cap) (raw : List Byte) : keptPart (raw.take cap) = keptPart raw := by
  have len : lenRx (raw.take cap) = lenRx raw := by
    simp only [lenRx, LEN_INDEX_RX, List.getD_eq_getElem?_getD, List.getElem?_take_of_lt (show 6 < cap by omega)]
  have := lenRx_lt raw
  rw [keptPart, keptPart, len, List.take_take, FRAME_OVERHEAD_RX, Nat.min_eq_left (by omega)]

/-- Settles O19: what is dropped lies behind the kept part, which has at most 265 bytes. -/
theorem captureBufferMayDropExcess : Obligations.CaptureBufferMayDropExcess := by
  intro raw cap s large
  by_cases fits : raw.length ≤ cap
  · rw [List.take_of_length_le fits]
  · have ten : 10 ≤ (raw.take cap).length := by rw [List.length_take]; omega
    have same := keptPart_take large raw
    rw [exec_validate_of_eq (validate_eq_of_keptPart_eq ten (by omega) same),
      rxValidate_eq_of_keptPart_eq ten (by omega) same]
    rfl

end Sys2Proof.Machine
end

section
/-! PROOF. The round trip through both framers: a built frame, its wire form behind an acknowledgment, and what `VALIDATE`
makes of it (42_rx_deframer.md, consequences a model must reproduce; 90_conflicts.md C2, C3). -/

namespace Sys2Proof.Machine

/-! ### What `BUILD` and `WIRE` reply -/

section
variable {c0 c1 : Byte} {p f w : List Byte} {s : State}

theorem eq_frameOf_of_built (fits : p.length ≤ 255) (built : replyOf (exec (.build [c0, c1] p) s) = some (.frame f)) :
    f = frameOf c0 c1 p := by
  rw [exec_build_of_length_le c0 c1 fits s] at built
  exact (Reply.frame.inj (Option.some.inj built)).symm

theorem eq_wireBytes_of_sent (frame : isFrame f = true) (sent : replyOf (exec (.wire f) s) = some (.bytes w)) :
    w = wireBytes f := by
  rw [exec_wire_of_isFrame frame s] at sent
  exact (Reply.bytes.inj (Option.some.inj sent)).symm

end

/-! ### A built frame behind an acknowledgment -/

/-- The seven bytes before the payload in a captured response: the acknowledgment, then the header of its frame (R59). -/
def headerRx (c0 c1 : Byte) (p : List Byte) : List Byte := [ACK0, ACK1, START0, START1, c0, c1, lenByte p]

/-- The checksum of a built frame and its end marker. -/
def trailerOf (c0 c1 : Byte) (p : List Byte) : List Byte := [csum (csumOperand c0 c1 p), END0, END1]

section
variable (c0 c1 : Byte) (p : List Byte)

theorem headerRx_length : (headerRx c0 c1 p).length = 7 := rfl

theorem trailerOf_length : (trailerOf c0 c1 p).length = 3 := rfl

theorem ack_frameOf : [0x07, 0xF3] ++ frameOf c0 c1 p = headerRx c0 c1 p ++ (p ++ trailerOf c0 c1 p) := by
  simp [frameOf, headerRx, trailerOf]

theorem ten_le_length_response (x : List Byte) : 10 ≤ (headerRx c0 c1 p ++ (x ++ trailerOf c0 c1 p)).length := by
  rw [List.length_append, List.length_append, headerRx_length, trailerOf_length]
  omega

theorem lenRx_headerRx (x : List Byte) : lenRx (headerRx c0 c1 p ++ x) = lenByte p := rfl

theorem marked_ack_frameOf : marked ([0x07, 0xF3] ++ frameOf c0 c1 p) := by
  have parts : [0x07, 0xF3] ++ frameOf c0 c1 p =
      [ACK0, ACK1, START0, START1, c0, c1, lenByte p] ++ (p ++ [csum (csumOperand c0 c1 p)]) ++ [END0, END1] := by
    simp [frameOf]
  exact parts ▸ marked_rf c0 c1 (lenByte p) _

variable {p} (fits : p.length ≤ 255)
include fits

theorem ack_wireBytes_frameOf :
    [0x07, 0xF3] ++ wireBytes (frameOf c0 c1 p) = headerRx c0 c1 p ++ (esc p ++ trailerOf c0 c1 p) := by
  rw [(wireBytes_frameOf c0 c1 p fits).2]
  simp [headerRx, trailerOf]

/-- Step 4 keeps the header and as many bytes as the payload and the trailer have. -/
theorem kept_headerRx (x : List Byte) : kept (headerRx c0 c1 p ++ x) = headerRx c0 c1 p ++ x.take (p.length + 3) := by
  have length : (lenByte p).toNat + 10 = (headerRx c0 c1 p).length + (p.length + 3) := by
    rw [lenByte_toNat p fits, headerRx_length]; omega
  rw [← keptPart_eq_kept, keptPart, lenRx_headerRx, FRAME_OVERHEAD_RX, length, List.take_length_add_append]

theorem kept_ack_frameOf : kept ([0x07, 0xF3] ++ frameOf c0 c1 p) = [0x07, 0xF3] ++ frameOf c0 c1 p := by
  rw [ack_frameOf, kept_headerRx c0 c1 fits, List.take_of_length_le (by simp [trailerOf_length])]

/-- Without `0x07` in its payload the scan of a built frame changes nothing and misses nothing. -/
theorem unesc_ack_frameOf (clear : 0x07 ∉ p) : (unesc ([0x07, 0xF3] ++ frameOf c0 c1 p) (lenByte p)).1 =
      [0x07, 0xF3] ++ frameOf c0 c1 p ∧ (unesc ([0x07, 0xF3] ++ frameOf c0 c1 p) (lenByte p)).2.2 = false := by
  have scanned (i : Nat) (low : 7 ≤ i) (high : i < 7 + ((lenByte p).toNat - 1)) :
      ([0x07, 0xF3] ++ frameOf c0 c1 p)[i]? ≠ some 0x07 := by
    rw [lenByte_toNat p fits] at high
    have inside : i - 7 < p.length := by omega
    rw [ack_frameOf, List.getElem?_append_right low, headerRx_length, List.getElem?_append_left inside]
    exact fun reserved => clear (List.mem_of_getElem? reserved)
  obtain ⟨frame, -, completed⟩ := unescScan_noPair ((lenByte p).toNat - 1) 7 ([0x07, 0xF3] ++ frameOf c0 c1 p)
    fun i low high pair => scanned i low high pair.1
  refine ⟨frame, completed ?_ scanned⟩
  rw [lenByte_toNat p fits, List.length_append, frameOf_length]
  simp
  omega

theorem validate_ack_frameOf (clear : 0x07 ∉ p) :
    validate ([0x07, 0xF3] ++ frameOf c0 c1 p) = .ok ([0x07, 0xF3] ++ frameOf c0 c1 p) false := by
  have ten : 10 ≤ ([0x07, 0xF3] ++ frameOf c0 c1 p).length := ack_frameOf c0 c1 p ▸ ten_le_length_response c0 c1 p p
  have whole := kept_ack_frameOf c0 c1 fits
  have len : lenRx ([0x07, 0xF3] ++ frameOf c0 c1 p) = lenByte p := rfl
  obtain ⟨frame, flag⟩ := unesc_ack_frameOf c0 c1 fits clear
  rw [validate_of_marked ten (whole.symm ▸ marked_ack_frameOf c0 c1 p), whole, len, frame, flag]

end

/-! ### The domain of the round trip -/

/-- Behind a run of `0x07` the escaped payload and the trailer never begin with the payload and the trailer as they are:
they lag behind by the run, so where the end marker should stand there is a byte before it. -/
theorem take_run_ne (b : List Byte) (k : Byte) (r : Nat) :
    (List.replicate (r + 1) 0x07 ++ (esc b ++ [k, END0, END1])).take (b.length + 3) ≠ b ++ [k, END0, END1] := by
  induction b generalizing r with
  | nil =>
    match r with
    | 0 => simp
    | 1 =>
      intro same
      obtain ⟨seven, fifteen⟩ : 0x07 = k ∧ k = 0x0F := by simpa [List.replicate] using same
      exact absurd (seven.trans fifteen) (by decide)
    | r + 2 => simp [List.replicate]
  | cons x t ih =>
    intro same
    rw [List.replicate_succ, List.cons_append, List.length_cons, Nat.add_right_comm, List.take_succ_cons,
      List.cons_append] at same
    obtain ⟨rfl, rest⟩ := List.cons.inj same
    refine ih (r + 1) ?_
    have longer : List.replicate r 0x07 ++ (esc (0x07 :: t) ++ [k, END0, END1]) =
        List.replicate (r + 1 + 1) 0x07 ++ (esc t ++ [k, END0, END1]) := by
      rw [List.replicate_succ', List.replicate_succ']
      simp
    rw [← longer, rest]

/-- The escaped payload and the trailer begin with the payload and the trailer only where nothing is escaped. -/
theorem not_mem_of_take_eq (p : List Byte) (k : Byte)
    (h : (esc p ++ [k, END0, END1]).take (p.length + 3) = p ++ [k, END0, END1]) : 0x07 ∉ p := by
  induction p with
  | nil => exact List.not_mem_nil
  | cons x t ih =>
    by_cases reserved : x = 7#8
    · subst reserved
      have rest : (List.replicate (0 + 1) 0x07 ++ (esc t ++ [k, END0, END1])).take (t.length + 3) =
          t ++ [k, END0, END1] := by
        rw [esc_reserved, List.length_cons, Nat.add_right_comm] at h
        exact (List.cons.inj h).2
      exact absurd rest (take_run_ne t k 0)
    · rw [esc_other x t reserved, List.length_cons, Nat.add_right_comm] at h
      exact List.not_mem_cons_of_ne_of_not_mem (Ne.symm reserved) (ih (List.cons.inj h).2)

/-- A frame that comes back with its own length has lost no byte: it is the kept part of the capture. -/
theorem kept_eq_of_validate_eq {raw g : List Byte} {oor : Bool} (ten : 10 ≤ raw.length)
    (accepted : validate raw = .ok g oor) (length : g.length = (kept raw).length) : kept raw = g := by
  have isMarked : marked (kept raw) := by
    by_contra unmarked
    rw [validate_of_not_marked ten unmarked] at accepted
    cases accepted
  rw [validate_of_marked ten isMarked] at accepted
  obtain ⟨frame, -⟩ := Verdict.ok.inj accepted
  have same : (unesc (kept raw) (lenRx raw)).1 = kept raw := unescScan_eq_self (by rw [← length, ← frame]; rfl)
  exact same.symm.trans frame

/-- Settles O23: without `0x07` the wire form is the frame itself and the scan changes nothing; and a frame that comes back
whole is the kept part of its capture, which has the payload unescaped only where nothing was escaped. -/
theorem roundTripIffNoReservedByte : Obligations.RoundTripIffNoReservedByte := by
  intro c0 c1 p f w s fits built sent
  obtain rfl := eq_frameOf_of_built fits built
  obtain rfl := eq_wireBytes_of_sent (wireBytes_frameOf c0 c1 p fits).1 sent
  rw [replyOf_exec_validate, Option.some_inj, verdictReply_eq_checked_iff, ack_wireBytes_frameOf c0 c1 fits]
  constructor
  · intro accepted
    have ten := ten_le_length_response c0 c1 p (esc p)
    have keptBytes := kept_headerRx c0 c1 fits (esc p ++ trailerOf c0 c1 p)
    have length : ([0x07, 0xF3] ++ frameOf c0 c1 p).length =
        (kept (headerRx c0 c1 p ++ (esc p ++ trailerOf c0 c1 p))).length := by
      rw [keptBytes, ack_frameOf]
      simp only [List.length_append, List.length_take, trailerOf_length, esc_length]
      omega
    have whole := kept_eq_of_validate_eq ten accepted length
    rw [keptBytes, ack_frameOf] at whole
    exact not_mem_of_take_eq p _ (List.append_cancel_left whole)
  · intro clear
    rw [esc_eq_self p clear, ← ack_frameOf, validate_ack_frameOf c0 c1 fits clear]

/-! ### One escaped byte -/

/-- The kept part of a response with one escaped byte ends one byte early, in the `0x07` of the end marker. -/
theorem kept_of_count_eq_one (c0 c1 : Byte) {p : List Byte} (fits : p.length ≤ 255) (one : p.count 0x07 = 1) :
    kept (headerRx c0 c1 p ++ (esc p ++ trailerOf c0 c1 p)) =
      headerRx c0 c1 p ++ esc p ++ [csum (csumOperand c0 c1 p)] ++ [END0] := by
  have length : p.length + 3 = (esc p ++ [csum (csumOperand c0 c1 p), END0]).length := by
    have escaped : (esc p).length = p.length + p.count 0x07 := esc_length p
    rw [List.length_append, escaped, one]
    rfl
  have parts : esc p ++ trailerOf c0 c1 p = esc p ++ [csum (csumOperand c0 c1 p), END0] ++ [END1] := by
    simp [trailerOf]
  rw [kept_headerRx c0 c1 fits, parts, length, List.take_left]
  simp

theorem not_marked_append_END0 (x : List Byte) : ¬ marked (x ++ [END0]) := by
  rintro ⟨-, last⟩
  have ends := congrArg List.getLast? last
  rw [List.getLast?_drop] at ends
  split at ends
  · cases ends
  · rw [List.getLast?_append] at ends
    have : some END0 = some END1 := ends
    exact absurd this (by decide)

/-- Settles O24: the last byte that step 4 keeps is the first of the end marker. -/
theorem singleReservedByteRejected : Obligations.SingleReservedByteRejected := by
  intro c0 c1 p f w s fits one built sent
  obtain rfl := eq_frameOf_of_built fits built
  obtain rfl := eq_wireBytes_of_sent (wireBytes_frameOf c0 c1 p fits).1 sent
  have ten := ten_le_length_response c0 c1 p (esc p)
  have unmarked := kept_of_count_eq_one c0 c1 fits one ▸ not_marked_append_END0 _
  rw [ack_wireBytes_frameOf c0 c1 fits, replyOf_exec_validate, validate_of_not_marked ten unmarked]
  rfl

/-! ### The payload of a returned frame -/

theorem wellSized_iff {r : List Byte} : wellSized r = true ↔ 10 ≤ r.length ∧ r.length = (r.getD 6 0).toNat + 10 := by
  simp [wellSized, lenRx]

/-- Settles O25: a built frame is well-sized, and its payload stands behind the seven bytes of the header. -/
theorem payloadOfReturnedFrame : Obligations.PayloadOfReturnedFrame := by
  refine ⟨fun c0 c1 p f s fits built => ?built, fun r size => ?other⟩
  case built =>
    obtain rfl := eq_frameOf_of_built fits built
    have len : (lenRx (headerRx c0 c1 p ++ (p ++ trailerOf c0 c1 p))).toNat = p.length := lenByte_toNat p fits
    have sized : wellSized (headerRx c0 c1 p ++ (p ++ trailerOf c0 c1 p)) = true := by
      refine wellSized_iff.mpr ?_
      change _ ∧ _ = (lenRx (headerRx c0 c1 p ++ (p ++ trailerOf c0 c1 p))).toNat + 10
      rw [len, List.length_append, List.length_append, headerRx_length, trailerOf_length]
      omega
    rw [ack_frameOf, payloadRx, if_pos sized, len, PAYLOAD_BASE_RX, ← headerRx_length c0 c1 p, List.drop_left,
      List.take_left]
  case other =>
    refine if_neg fun sized => ?_
    have := wellSized_iff.mp sized
    omega

end Sys2Proof.Machine
end

section
/-! PROOF. The transaction sequencer and the line: from an accepted `EXEC` to its delivery (43_transaction.md R160 to R172),
the write of a frame and the drain (20_memory.md R54 to R57). -/

namespace Sys2Proof.Machine

/-! ### What is accepted, what is refused -/

/-- Settles O56: the three premises are the conditions of `executable`. -/
theorem execAccepted : Obligations.ExecAccepted := fun r f s holds idle frame =>
  ⟨answer .accepted (beginTxn r f s), exec_exec_of_executable (executable_iff.mpr ⟨holds, idle, frame⟩),
    rfl, rfl, rfl, rfl, rfl⟩

theorem isFrame_iff {f : List Byte} : isFrame f = true ↔ 8 ≤ f.length ∧ f.length = 8 + (f.getD 4 0).toNat := by
  simp [isFrame, lenTx]

theorem exec_build_of_length_ne {command : List Byte} (h : command.length ≠ 2) (p : List Byte) (s : State) :
    exec (.build command p) s = .next (refuse s) := by
  match command, h with
  | [], _ | [_], _ | _ :: _ :: _ :: _, _ => rfl

theorem exec_wire_of_not_isFrame {f : List Byte} (h : ¬ isFrame f = true) (s : State) :
    exec (.wire f) s = .next (refuse s) :=
  if_neg h

/-- Settles O10: each operation tests its operand's type before anything else. -/
theorem operandsOutsideTheirTypeRefused : Obligations.OperandsOutsideTheirTypeRefused := by
  have other {f : List Byte} (size : f.length < 8 ∨ f.length ≠ 8 + (f.getD 4 0).toNat) : ¬ isFrame f = true := by
    rw [isFrame_iff]; omega
  refine ⟨fun command p s length => exec_build_of_length_ne length p s,
    fun f s size => exec_wire_of_not_isFrame (other size) s,
    fun r f s size => exec_exec_of_not_executable fun accepted => ?_⟩
  obtain ⟨-, -, frame⟩ := executable_iff.mp accepted
  exact other size frame

/-! ### The line -/

/-- Settles O38: `AK` and `RF` are the arrival of their bytes. -/
theorem framesOnTheLineArrive : Obligations.FramesOnTheLineArrive := fun s =>
  ⟨⟨arrive [ACK0, ACK1] s, rfl, rfl, rfl⟩, fun c0 c1 len body e0 e1 =>
    ⟨arrive ([ACK0, ACK1, START0, START1, c0, c1, len] ++ body ++ [e0, e1]) s, rfl, rfl, rfl⟩⟩

theorem writePhase_eq (s : State) : writePhase s = { s with
    txw := wireBytes s.txn.sent, ch := { s.ch with written := s.ch.written ++ wireBytes s.txn.sent },
    txn := { s.txn with phase := .settle } } := rfl

/-- A command frame that is not the write of phase WRITE is refused. -/
theorem exec_cw_of_other {s : State} {c0 c1 len k e0 e1 : Byte} {wp : List Byte} (h : s.txn.phase ≠ .write ∨
    isFrame s.txn.sent = false ∨ wireBytes s.txn.sent ≠ [START0, START1, c0, c1, len] ++ wp ++ [k, e0, e1]) :
    exec (.cw c0 c1 len wp k e0 e1) s = .next (refuse s) := by
  refine if_neg fun ⟨phase, frame, bytes⟩ => ?_
  obtain phase' | noFrame | bytes' := h
  · exact phase' phase
  · rw [noFrame] at frame; cases frame
  · exact bytes' bytes

/-- Settles O39: `CW` in phase WRITE is `writePhase` where its bytes are those of the frame in flight. -/
theorem commandFrameWritten : Obligations.CommandFrameWritten := by
  refine fun s c0 c1 len wp k e0 e1 => ⟨fun phase frame bytes => ?written, exec_cw_of_other⟩
  case written => rw [exec_cw_of_write phase frame bytes, writePhase_eq, bytes]

/-- Settles O40: the window is what `nextWindow` says, and the drain puts what waited before it. -/
theorem waitingBytesComeFirst : Obligations.WaitingBytesComeFirst := by
  refine fun s => ⟨fun d ws windows => ?named, fun windows => ?free, fun raw rest scheduled phase window => ?drained⟩
  case named => simp only [nextWindow, windows]
  case free => simp only [nextWindow, windows]
  case drained =>
    exact ⟨_, (step_sequencer scheduled).trans (sequencer_captured (s := { s with schedule := rest }) phase window),
      rfl, rfl, rfl, rfl, rfl⟩

/-! ### The sequencer's turns, one behind the other -/

/-- The state of a transaction in phase WRITE after its write and the settle delay (43_transaction.md R162, R163). -/
def drainReady (s : State) : State := setPhase .drain (writePhase s)

/-- The state after the delivery of `r` for a transaction in phase WRITE: the frame has gone out, the channel is drained, and
`RX` holds `rx` (43_transaction.md R160). -/
def afterDelivery (r : Result) (rx : Rx) (s : State) : State := { s with
  txw := wireBytes s.txn.sent
  raw := []
  rx := rx
  txn := { s.txn with phase := .idle, verdict := none }
  out := r.out
  ch := ⟨[], s.ch.windows.tail, s.ch.written ++ wireBytes s.txn.sent⟩
  log := s.log ++ r.events
  draws := s.draws + if s.ch.windows = [] then 1 else 0 }

/-- The state after the delivery of the outcome that the capture `raw` calls for (43_transaction.md R164 to R166). -/
def afterCapture (raw : List Byte) (s : State) : State :=
  afterDelivery (classify (validate raw)) (rxValidate raw s.rx) s

/-- The state after the delivery of a transaction whose drain hits the ceiling (43_transaction.md R170). -/
def afterCeiling (s : State) : State := afterDelivery (.failure .channelTimeout) s.rx s

/-- The sequencer does not look at the schedule. -/
theorem sequencer_schedule {s t : State} (h : sequencer s = .next t) (q : List Turn) :
    sequencer { s with schedule := q } = .next { t with schedule := q } := by
  cases phase : s.txn.phase with
  | idle =>
    simp only [sequencer, phase] at h ⊢
    cases h; rfl
  | write =>
    simp only [sequencer, phase] at h ⊢
    split at h
    · next frame => cases h; exact if_pos frame
    · cases h
  | settle =>
    rw [sequencer_settle phase] at h
    cases h; exact sequencer_settle (s := { s with schedule := q }) phase
  | drain =>
    cases window : nextWindow s with
    | captured w =>
      rw [sequencer_captured phase window] at h
      cases h; exact sequencer_captured (s := { s with schedule := q }) phase window
    | ceilingHit =>
      rw [sequencer_ceiling phase window] at h
      cases h; exact sequencer_ceiling (s := { s with schedule := q }) phase window
  | validate =>
    rw [sequencer_validate phase] at h
    cases h; exact sequencer_validate (s := { s with schedule := q }) phase
  | classify =>
    cases verdict : s.txn.verdict with
    | some v =>
      rw [sequencer_classify phase verdict] at h
      cases h; exact sequencer_classify (s := { s with schedule := q }) phase verdict
    | none => simp only [sequencer, phase, verdict] at h; cases h

/-- A scheduled turn of the sequencer. -/
theorem run_sequencer {s t : State} (h : sequencer s = .next t) (k : Nat) (rest : List Turn) :
    Host.Core.run Sys2Proof.core (k + 1) { s with schedule := .sequencer :: rest } =
      Host.Core.run Sys2Proof.core k { t with schedule := rest } :=
  run_succ k _ _ ((step_sequencer rfl).trans (sequencer_schedule h rest))

section
variable {s : State} (phase : s.txn.phase = .write) (frame : isFrame s.txn.sent = true) (k : Nat) (rest : List Turn)
include phase frame

theorem run_drainReady : Host.Core.run Sys2Proof.core (k + 2) { s with schedule := .sequencer :: .sequencer :: rest } =
    Host.Core.run Sys2Proof.core k { drainReady s with schedule := rest } :=
  (run_sequencer (sequencer_write phase frame) (k + 1) _).trans (run_sequencer (sequencer_settle rfl) k rest)

/-- Five turns of the sequencer from phase WRITE to delivery, where the window gives a capture. -/
theorem run_afterCapture {w : List Byte} (window : nextWindow s = .captured w) :
    Host.Core.run Sys2Proof.core (k + 5) { s with schedule := List.replicate 5 .sequencer ++ rest } =
      Host.Core.run Sys2Proof.core k { afterCapture (s.ch.arrived ++ w) s with schedule := rest } := by
  have drain := sequencer_captured (s := drainReady s) rfl window
  exact (run_drainReady phase frame (k + 3) _).trans <| (run_sequencer drain (k + 2) _).trans <|
    (run_sequencer (sequencer_validate rfl) (k + 1) _).trans (run_sequencer (sequencer_classify rfl rfl) k rest)

/-- Three turns of the sequencer from phase WRITE to delivery, where the drain hits the ceiling. -/
theorem run_afterCeiling (window : nextWindow s = .ceilingHit) :
    Host.Core.run Sys2Proof.core (k + 3) { s with schedule := List.replicate 3 .sequencer ++ rest } =
      Host.Core.run Sys2Proof.core k { afterCeiling s with schedule := rest } :=
  (run_drainReady phase frame (k + 1) _).trans
    (run_sequencer (sequencer_ceiling (s := drainReady s) rfl window) k rest)

end

/-! ### The outcome -/

theorem classify_of_ne_ackBytes {raw f : List Byte} {oor : Bool} (h : raw ≠ ackBytes) (v : validate raw = .ok f oor) :
    classify (validate raw) = .data f oor := by
  rw [v, classify, if_neg fun isAck => h (eq_ackBytes_of_validate_eq_ok (isAck ▸ v))]

/-- What is delivered is the class of the verdict. -/
theorem deliversOutcome_of_classify {raw : List Byte} {s t : State} (out : t.out = (classify (validate raw)).out)
    (log : t.log = s.log ++ (classify (validate raw)).events) : DeliversOutcome raw s t := by
  refine ⟨fun k failed => ?failure, fun isAck => ?ack, fun g oor other accepted => ?data⟩
  case failure =>
    rw [replyOf_exec_validate, Option.some_inj, verdictReply_eq_error_iff] at failed
    rw [failed] at out log
    exact ⟨out, log⟩
  case ack =>
    subst isAck
    exact ⟨out, log.trans (List.append_nil _)⟩
  case data =>
    rw [replyOf_exec_validate, Option.some_inj, verdictReply_eq_checked_iff] at accepted
    rw [classify_of_ne_ackBytes other accepted] at out log
    exact ⟨out, log⟩

/-- A step that leaves the phase VALIDATE or CLASSIFY as it is leaves the transaction, its capture and `OUT`. -/
theorem CoreMove.kept_of_phase_eq {s t : State} (m : CoreMove s t)
    (late : s.txn.phase = .validate ∨ s.txn.phase = .classify) (same : t.txn.phase = s.txn.phase) :
    t.txn = s.txn ∧ t.raw = s.raw ∧ t.out = s.out := by
  cases m with
  | quiet txn _ raw out | permit _ txn raw out => exact ⟨txn, raw, out⟩
  | accept r f accepted =>
    obtain ⟨-, idle, -⟩ := executable_iff.mp accepted
    simp [idle] at late
  | write phase | settle phase | capture _ phase => simp [phase] at late
  | validate phase txn => simp [phase, txn] at same
  | deliver _ _ txn => rw [← same, txn] at late; simp at late

/-- Settles O26: the five turns end in `afterCapture`, which delivers the class of the verdict; and in an interleaving each of
the last two phases is one turn, which no other step replaces. -/
theorem execDeliversOutcome : Obligations.ExecDeliversOutcome := by
  refine ⟨fun s r f raw holds idle frame window => ?run, fun s rest inv scheduled => ⟨fun phase => ?validate,
    fun phase => ?classify⟩, fun s t late noReset stepped same =>
      (step_move s t noReset stepped).core.kept_of_phase_eq late same⟩
  case run =>
    have accepted := exec_exec_of_executable (executable_iff.mpr ⟨holds, idle, frame⟩)
    have run := run_afterCapture (s := answer .accepted (beginTxn r f s)) rfl frame 0 [] window
    have validated := exec_validate_of_eq (raw := s.ch.arrived ++ raw) rfl s
    exact ⟨answer .accepted (beginTxn r f s), _,
      { afterCapture (s.ch.arrived ++ raw) (answer .accepted (beginTxn r f s)) with schedule := [] }, accepted, rfl, rfl, rfl, rfl,
      validated, run, rfl, rfl, rfl, rfl, rfl, rfl, rfl, rfl, deliversOutcome_of_classify rfl rfl, rfl⟩
  case validate =>
    exact ⟨_, _, exec_validate_of_eq rfl s,
      (step_sequencer scheduled).trans (sequencer_validate (s := { s with schedule := rest }) phase),
      rfl, rfl, rfl, rfl, rfl⟩
  case classify =>
    have verdict : s.txn.verdict = some (Machine.validate s.raw) := inv.verdict.trans (if_pos phase)
    exact ⟨_, (step_sequencer scheduled).trans (sequencer_classify (s := { s with schedule := rest }) phase verdict),
      deliversOutcome_of_classify rfl rfl, rfl, rfl, rfl, rfl, rfl⟩

/-- Settles O27: the three turns end in `afterCeiling`. -/
theorem ceilingFailsTransaction : Obligations.CeilingFailsTransaction := by
  intro s r f holds idle frame window
  have accepted := exec_exec_of_executable (executable_iff.mpr ⟨holds, idle, frame⟩)
  have run := run_afterCeiling (s := answer .accepted (beginTxn r f s)) rfl frame 0 [] window
  exact ⟨answer .accepted (beginTxn r f s), { afterCeiling (answer .accepted (beginTxn r f s)) with schedule := [] },
    accepted, run, rfl, rfl, rfl, rfl, rfl, rfl, rfl, rfl, rfl⟩

/-! ### The grant -/

theorem grantable_iff {s : State} : grantable s = true ↔ s.arb.holder = none ∧ ∃ q, s.arb.waiting q = true := by
  have either : (∃ q, s.arb.waiting q = true) ↔ s.arb.waitPoll = true ∨ s.arb.waitCmd = true :=
    ⟨fun ⟨q, waits⟩ => by cases q <;> simp_all, fun waits => waits.elim (⟨.poll, ·⟩) (⟨.cmd, ·⟩)⟩
  simp [grantable, either]

/-- An enabled grant gives the permit to one that waits, whatever the free value picks. -/
theorem grant_of_grantable {s : State} (h : grantable s = true) :
    ∃ r draws, s.arb.waiting r = true ∧ grant s = giveTo r { s with draws := draws } := by
  obtain ⟨-, q, waits⟩ := grantable_iff.mp h
  unfold grant
  rw [if_pos h]
  split
  · next poll cmd => exact ⟨Config.arbPick s.draws, s.draws + 1, by cases Config.arbPick s.draws <;> assumption, rfl⟩
  · next poll _ => exact ⟨.poll, s.draws, poll, rfl⟩
  · next poll =>
    have cmd : s.arb.waiting .cmd = true := by
      cases q with
      | poll => exact absurd (poll.symm.trans waits) Bool.false_ne_true
      | cmd => exact waits
    exact ⟨.cmd, s.draws, cmd, rfl⟩

theorem grant_of_not_grantable {s : State} (h : ¬ grantable s = true) : grant s = s := if_neg h

/-- Settles O34: the turn is the grant, which is enabled where the permit is free and somebody waits. -/
theorem grantPicksOneThatWaits : Obligations.GrantPicksOneThatWaits := by
  intro s rest scheduled
  rw [step_grant scheduled]
  refine ⟨fun free waits => ?granted, fun blocked => ?nothing⟩
  case granted =>
    obtain ⟨r, draws, waits, given⟩ :=
      grant_of_grantable (s := { s with schedule := rest }) (grantable_iff.mpr ⟨free, waits⟩)
    exact ⟨_, r, congrArg _ given, waits, rfl, setWaiting_same s.arb r false, setWaiting_other s.arb r false, rfl⟩
  case nothing =>
    refine congrArg _ (grant_of_not_grantable fun enabled => ?_)
    obtain ⟨free, q, waits⟩ := grantable_iff.mp enabled
    exact blocked.elim (· free) fun nobody => Bool.false_ne_true ((nobody q).symm.trans waits)

end Sys2Proof.Machine
end

section
/-! PROOF. The commands and their requesters (30_encoding.md R86, R91; 44_arbiter.md R184 to R200). -/

namespace Sys2Proof.Machine

/-! ### The beginning of a command -/

theorem begun_startTransaction (c : Command) (p : List Byte) (s : State) : Begun c p s (startTransaction c p s) := by
  cases c <;> exact ⟨rfl, rfl, rfl, rfl, rfl, rfl, rfl, rfl, rfl, rfl, rfl⟩

/-- A command in range that fits, given to its requester at rest, begins its transaction. -/
theorem exec_commandInstr_of_idle {c : Command} {value : Int} {p : List Byte} {s : State} (inRange : commandInRange c value)
    (fits : p.length ≤ 255) (idle : idleRequester (commandRequester c) s) :
    exec (commandInstr c value p) s = .next (startTransaction c p s) := by
  have rest : atRest (issuer c) s = true := (atRest_iff _ s).mpr (issuer_eq c ▸ idle)
  rw [exec_commandInstr c value p s inRange, beginCommand_of_atRest c p s rest fits]

/-- Settles O42: the command's `BUILD` gives `frameOf`, and its transaction begins with that frame. -/
theorem commandBeginsTransaction : Obligations.CommandBeginsTransaction := by
  intro c value p f s inRange fits idle built
  obtain rfl := eq_frameOf_of_built fits built
  exact ⟨_, exec_commandInstr_of_idle inRange fits idle, begun_startTransaction c p s⟩

/-- Settles O57: each form is the instruction of its command, and a query has no range to be outside of. -/
theorem eachCommandCompletes : Obligations.EachCommandCompletes := by
  refine fun p s fits => ⟨fun idle => ⟨fun v low high => ?setVent, fun v low high => ?setTemp⟩, fun idle => ?queries⟩
  case setVent => exact ⟨_, exec_commandInstr_of_idle (c := .setVent) ⟨low, high⟩ fits idle, begun_startTransaction _ p s⟩
  case setTemp => exact ⟨_, exec_commandInstr_of_idle (c := .setTemp) ⟨low, high⟩ fits idle, begun_startTransaction _ p s⟩
  case queries =>
    have completes (q : Query) : ∃ t, exec (q.instr p) s = .next t ∧ Begun (.get q) p s t :=
      ⟨_, exec_commandInstr_of_idle (c := .get q) (value := 0) trivial fits idle, begun_startTransaction _ p s⟩
    exact ⟨completes .temp, completes .vent, completes .fan, completes .filt, completes .valve, completes .byp,
      completes .preh, completes .hours, completes .unit⟩

theorem beginCommand_of_tooLarge {c : Command} {p : List Byte} {s : State} (idle : idleRequester (issuer c) s)
    (large : 255 < p.length) : beginCommand c p s = rejectCommand c .payloadTooLarge s := by
  rw [beginCommand, if_pos ((atRest_iff _ s).mpr idle), if_pos large]

theorem beginCommand_of_engaged {c : Command} {s : State} (engaged : ¬ idleRequester (issuer c) s) (p : List Byte) :
    beginCommand c p s = refuse s :=
  if_neg (mt (atRest_iff _ s).mp engaged)

/-- Settles O43: a command in range is tried by its requester, which rejects a payload that does not fit and refuses while it
is engaged. -/
theorem commandThatCannotBegin : Obligations.CommandThatCannotBegin := by
  intro c value p s inRange
  rw [exec_commandInstr c value p s inRange, ← issuer_eq c]
  exact ⟨fun large idle => congrArg _ (beginCommand_of_tooLarge idle large),
    fun engaged => congrArg _ (beginCommand_of_engaged engaged p)⟩

/-! ### A requester's turn -/

section
variable {s : State} {r : Requester} {k : Task} {rest : List Turn}

theorem task_schedule (h : s.task r = some k) : ({ s with schedule := rest } : State).task r = some k :=
  (task_congr rfl rfl r).trans h

/-- The turn of a requester with a task is a step of the task. -/
theorem step_requester_of_task (scheduled : s.schedule = .requester r :: rest) (task : s.task r = some k) :
    step s = .next (taskStep r k { s with schedule := rest }) := by
  rw [step_requester scheduled, requesterTurn_of_task (task_schedule task)]

end

/-! ### The Poll Cycle -/

theorem requesterTurn_poll_of_query {s : State} {q : Query} {p : List Byte} {qs : List (Query × List Byte)}
    (queued : s.todo = (q, p) :: qs) (idle : idleRequester .poll s) :
    requesterTurn .poll s = beginCommand (.get q) p { s with todo := qs } := by
  have noTask : s.taskPoll = none := idle.1
  have rest : atRest .poll s = true := (atRest_iff .poll s).mpr idle
  simp only [requesterTurn, State.task, noTask, nextQuery, queued, rest, if_true]

theorem taskStep_todo (r : Requester) (k : Task) (s : State) : (taskStep r k s).todo = s.todo := by
  unfold taskStep
  split
  · split
    · rw [setTask_todo, beginTxn_todo]
    · rfl
  · split
    · rw [endHold_todo]
    · rfl

/-- Settles O46: at rest `POLL` begins the first query of its list; with a task its turn is a step of that task, which does
not reach the list. -/
theorem pollCycleOneQueryAtATime : Obligations.PollCycleOneQueryAtATime := by
  refine fun s rest => ⟨fun scheduled q p qs queued idle => ?query, fun scheduled busy t stepped => ?busy,
    fun scheduled => ?timer⟩
  case query =>
    have turn := requesterTurn_poll_of_query (s := { s with schedule := rest }) queued idle
    have word := exec_commandInstr (.get q) 0 p { s with schedule := rest, todo := qs } trivial
    exact (step_requester scheduled).trans ((congrArg _ turn).trans word.symm)
  case busy =>
    obtain ⟨k, task⟩ := Option.ne_none_iff_exists'.mp busy
    rw [step_requester_of_task scheduled task] at stepped
    cases stepped
    exact taskStep_todo .poll k _
  case timer => simp only [step, scheduled, runTurn, pollTimer]

/-! ### The turns of a task -/

/-- Settles O58: `executable` and `releasable` ask for the permit and the idle phase, so without them the task is suspended,
and with them it goes on to its `EXEC` or to its end. -/
theorem requesterTurnFollowsWithx : Obligations.RequesterTurnFollowsWithx := by
  intro r k s rest scheduled task frame
  rw [step_requester_of_task scheduled task]
  refine ⟨fun missing => ?suspended, fun holds idle stage => ?exec, fun holds idle stage => ?release⟩
  case suspended =>
    have blocked : ¬ (s.arb.holder = some r ∧ s.txn.phase = .idle) := not_and_or.mpr missing
    refine congrArg _ (taskStep_of_suspended (fun _ => ?_) fun _ => ?_)
    · refine Bool.eq_false_iff.mpr fun accepted => ?_
      obtain ⟨holds, idle, -⟩ := executable_iff.mp accepted
      exact blocked ⟨holds, idle⟩
    · exact Bool.eq_false_iff.mpr fun accepted => blocked (releasable_iff.mp accepted)
  case exec =>
    have accepted : executable r k.frame { s with schedule := rest } = true := executable_iff.mpr ⟨holds, idle, frame⟩
    rw [taskStep_of_executable stage accepted]
    refine ⟨_, rfl, ?_, ?_, ?_, setTask_same _ r _, ?_, ?_⟩
    · rw [setTask_txn, beginTxn_txn]
    · rw [setTask_txn, beginTxn_txn]
    · rw [setTask_txn, beginTxn_txn]
    · exact (setTask_other _ r _).trans (task_congr rfl rfl _)
    · cases r <;> rfl
  case release =>
    have accepted : releasable r { s with schedule := rest } = true := releasable_iff.mpr ⟨holds, idle⟩
    rw [taskStep_of_releasable stage accepted, endHold_of_running (task_schedule task) stage]
    refine ⟨_, rfl, ?_, fun q => ?_, finishTransaction_task_same _ r k, ?_, finishTransaction_reports _ r k, ?_⟩
    · rw [finishTransaction_arb]
    · rw [finishTransaction_arb]
    · exact (finishTransaction_task_other _ r k).trans (task_congr rfl rfl _)
    · cases r <;> rfl

/-! ### The end of a command by a request -/

theorem beginCommand_keeps_txn_holder (c : Command) (p : List Byte) (s : State) :
    (beginCommand c p s).txn = s.txn ∧ (beginCommand c p s).arb.holder = s.arb.holder := by
  unfold beginCommand
  split
  · split
    · exact ⟨rfl, rfl⟩
    · obtain ⟨txn, -, arb, -⟩ := startTransaction_spec c p s
      exact ⟨txn, by rw [arb, setWaiting_holder_arb]⟩
  · exact ⟨rfl, rfl⟩

/-- The turn of a requester without a task touches neither the transaction nor the holder. -/
theorem requesterTurn_keeps_txn_holder {r : Requester} {s : State} (noTask : s.task r = none) :
    (requesterTurn r s).txn = s.txn ∧ (requesterTurn r s).arb.holder = s.arb.holder := by
  unfold requesterTurn
  split
  · next task => rw [noTask] at task; cases task
  · unfold nextQuery
    split
    · split
      · exact beginCommand_keeps_txn_holder _ _ { s with todo := _ }
      · exact ⟨rfl, rfl⟩
    · exact ⟨rfl, rfl⟩
  · exact ⟨rfl, rfl⟩

/-- Settles O59: both requests leave their requester without a task; what is reported is said by the stage of the task that
ends. -/
theorem requestsThatEndACommand : Obligations.RequestsThatEndACommand := by
  refine fun r s => ⟨fun waits => ?cancel, fun holds idle => ?release⟩
  case cancel =>
    have noTask : (abandonWait r s).task r = none := abandonWait_task_same s r
    refine ⟨_, exec_cancel_of_waiting waits, (task_congr rfl rfl r).trans noTask, abandonWait_reports s r,
      fun a x rest => ⟨_, step_requester rfl, ?_⟩⟩
    exact requesterTurn_keeps_txn_holder ((task_congr rfl rfl r).trans noTask)
  case release =>
    refine ⟨_, exec_release_of_releasable (releasable_iff.mpr ⟨holds, idle⟩),
      (task_congr rfl rfl r).trans (endHold_task_same s r), fun noTask => ?_, fun k task stage => ?_, fun k task stage => ?_⟩
    · rw [answer_reports, endHold_of_none noTask, release_reports]
    · rw [answer_reports, endHold_of_waiting task stage, release_reports, setTask_reports]
    · rw [answer_reports, endHold_of_running task stage, finishTransaction_reports]

/-! ### The whole transaction of a command -/

section
variable {s : State} (k : Nat) (rest : List Turn)

theorem run_grant {r : Requester} (free : s.arb.holder = none) (waits : s.arb.waiting r = true)
    (alone : s.arb.waiting (otherRequester r) = false) :
    Host.Core.run Sys2Proof.core (k + 1) { s with schedule := .grant :: rest } =
      Host.Core.run Sys2Proof.core k { giveTo r s with schedule := rest } :=
  run_succ k _ _ ((step_grant rfl).trans
    (congrArg _ (grant_of_alone (s := { s with schedule := rest }) r free waits alone)))

theorem run_execTurn {r : Requester} {c : Command} {f : List Byte} (task : s.task r = some ⟨c, f, .waiting⟩)
    (accepted : executable r f s = true) :
    Host.Core.run Sys2Proof.core (k + 1) { s with schedule := .requester r :: rest } =
      Host.Core.run Sys2Proof.core k
        { ((beginTxn r f s).setTask r (some ⟨c, f, .running⟩)) with schedule := rest } := by
  refine run_succ k _ _ ((step_requester_of_task rfl (task_schedule task)).trans (congrArg _ ?_))
  refine (taskStep_of_executable (s := { s with schedule := rest }) rfl accepted).trans ?_
  cases r <;> rfl

theorem run_releaseTurn {r : Requester} {c : Command} {f : List Byte} (task : s.task r = some ⟨c, f, .running⟩)
    (accepted : releasable r s = true) :
    Host.Core.run Sys2Proof.core (k + 1) { s with schedule := .requester r :: rest } =
      Host.Core.run Sys2Proof.core k { finishTransaction r ⟨c, f, .running⟩ s with schedule := rest } := by
  refine run_succ k _ _ ((step_requester_of_task rfl (task_schedule task)).trans (congrArg _ ?_))
  refine (taskStep_of_releasable (s := { s with schedule := rest }) rfl accepted).trans ?_
  rw [endHold_of_running (task_schedule task) rfl]
  cases r <;> rfl

end

/-- The frame of a command. -/
def commandFrame (c : Command) (p : List Byte) : List Byte := frameOf (Config.cmdId c).1 (Config.cmdId c).2 p

/-- A command whose `EXEC` has been accepted on a channel that nobody else waits for (44_arbiter.md R190). -/
def commandInFlight (c : Command) (p : List Byte) (s : State) : State :=
  (beginTxn (commandRequester c) (commandFrame c p) (giveTo (commandRequester c) (startTransaction c p s))).setTask
    (commandRequester c) (some ⟨c, commandFrame c p, .running⟩)

/-- The state after the transaction of a command that ends in `result` and leaves `RX` as `rx`. -/
def commandEnded (c : Command) (p : List Byte) (result : Result) (rx : Rx) (s : State) : State :=
  finishTransaction (commandRequester c) ⟨c, commandFrame c p, .running⟩
    (afterDelivery result rx (commandInFlight c p s))

section
variable {c : Command} {p : List Byte} {s : State}

theorem commandInFlight_txn : (commandInFlight c p s).txn = ⟨.write, commandRequester c, commandFrame c p, none⟩ := by
  rw [commandInFlight, setTask_txn, beginTxn_txn]

theorem commandInFlight_ch : (commandInFlight c p s).ch = s.ch := by cases c <;> rfl

theorem commandInFlight_log : (commandInFlight c p s).log = s.log := by cases c <;> rfl

theorem commandInFlight_reports : (commandInFlight c p s).reports = s.reports := by cases c <;> rfl

theorem commandInFlight_holder : (commandInFlight c p s).arb.holder = some (commandRequester c) := by
  rw [commandInFlight, setTask_arb, beginTxn_arb, giveTo_arb]

theorem nextWindow_commandInFlight : nextWindow (commandInFlight c p s) = nextWindow s := by cases c <;> rfl

/-- A permit that comes to a waiting requester and goes again leaves the arbiter's registers as they were. -/
theorem arb_granted_released {a : Arb} {r : Requester} (free : a.holder = none) (notWaiting : a.waiting r = false) :
    { ((a.setWaiting r true).setWaiting r false) with holder := none } = a := by
  obtain ⟨holder, waitPoll, waitCmd⟩ := a
  cases free
  cases r <;> cases notWaiting <;> rfl

section
variable (result : Result) (rx : Rx)

theorem commandEnded_txn :
    (commandEnded c p result rx s).txn = ⟨.idle, commandRequester c, commandFrame c p, none⟩ := by
  rw [commandEnded, finishTransaction_txn, afterDelivery, commandInFlight_txn]

theorem commandEnded_out : (commandEnded c p result rx s).out = result.out := finishTransaction_out _ _ _

theorem commandEnded_log : (commandEnded c p result rx s).log = s.log ++ result.events := by
  rw [commandEnded, finishTransaction_log, afterDelivery, commandInFlight_log]

theorem commandEnded_reports :
    (commandEnded c p result rx s).reports = s.reports ++ [.done c (commandEnded c p result rx s).out] := by
  rw [commandEnded_out, commandEnded, finishTransaction_reports, afterDelivery, commandInFlight_reports]

theorem commandEnded_written :
    (commandEnded c p result rx s).ch.written = s.ch.written ++ wireBytes (commandFrame c p) := by
  rw [commandEnded, finishTransaction_ch, afterDelivery, commandInFlight_ch, commandInFlight_txn]

theorem commandEnded_task : (commandEnded c p result rx s).task (commandRequester c) = none :=
  finishTransaction_task_same (afterDelivery result rx (commandInFlight c p s)) _ _

section
variable (idle : idleRequester (commandRequester c) s) (free : s.arb.holder = none)
include idle free

theorem commandEnded_arb : (commandEnded c p result rx s).arb = s.arb := by
  obtain ⟨-, -, notWaiting⟩ := idle
  obtain ⟨-, -, waits, -⟩ := startTransaction_spec c p s
  rw [commandEnded, finishTransaction_arb, afterDelivery, commandInFlight, setTask_arb, beginTxn_arb, giveTo_arb, waits,
    issuer_eq]
  exact arb_granted_released free notWaiting

/-- The requester is at rest again, whatever is still scheduled. -/
theorem idleRequester_commandEnded (rest : List Turn) :
    idleRequester (commandRequester c) { commandEnded c p result rx s with schedule := rest } := by
  have arb := commandEnded_arb (p := p) result rx idle free
  obtain ⟨-, notHolding, notWaiting⟩ := idle
  refine ⟨(task_congr rfl rfl _).trans (commandEnded_task result rx), ?_, ?_⟩
  · exact arb.symm ▸ notHolding
  · exact arb.symm ▸ notWaiting

end

theorem run_commandEnded (k : Nat) (rest : List Turn) : Host.Core.run Sys2Proof.core (k + 1)
      { afterDelivery result rx (commandInFlight c p s) with schedule := .requester (commandRequester c) :: rest } =
    Host.Core.run Sys2Proof.core k { commandEnded c p result rx s with schedule := rest } :=
  run_releaseTurn k rest ((task_congr rfl rfl _).trans (setTask_same _ _ _))
    (releasable_iff.mpr ⟨commandInFlight_holder, rfl⟩)

end

/-- The grant and the requester's turn carry a command that has begun to its `EXEC`. -/
theorem run_commandInFlight (fits : p.length ≤ 255) (free : s.arb.holder = none) (phase : s.txn.phase = .idle)
    (alone : s.arb.waiting (otherRequester (commandRequester c)) = false) (k : Nat) (rest : List Turn) :
    Host.Core.run Sys2Proof.core (k + 2)
        { startTransaction c p s with schedule := .grant :: .requester (commandRequester c) :: rest } =
      Host.Core.run Sys2Proof.core k { commandInFlight c p s with schedule := rest } := by
  obtain ⟨txn, -, arb, task, -, -⟩ := startTransaction_spec c p s
  rw [issuer_eq] at arb task
  have granted := run_grant (k + 1) (.requester (commandRequester c) :: rest) (s := startTransaction c p s)
    (r := commandRequester c) (by rw [arb, setWaiting_holder_arb, free]) (by rw [arb, setWaiting_same])
    (by rw [arb, setWaiting_other, alone])
  have accepted : executable (commandRequester c) (commandFrame c p)
      (giveTo (commandRequester c) (startTransaction c p s)) = true :=
    executable_iff.mpr ⟨rfl, by rw [giveTo_txn, txn, phase], (wireBytes_frameOf _ _ p fits).1⟩
  exact granted.trans (run_execTurn k rest ((task_congr rfl rfl _).trans task) accepted)

theorem isFrame_commandInFlight (fits : p.length ≤ 255) : isFrame (commandInFlight c p s).txn.sent = true := by
  rw [commandInFlight_txn]
  exact (wireBytes_frameOf _ _ p fits).1

end

theorem success_iff {c : Command} (isSet : ∀ q, c ≠ .get q) (out : Out) :
    Report.success (.done c out) = some true ↔ out.cls = .ack := by
  cases c with
  | get q => exact absurd rfl (isSet q)
  | setVent | setTemp => simp [Report.success]

/-- Settles O44: grant, `EXEC`, the five phases and the release, one run behind the other; the class of the outcome is `Ack`
exactly where the capture is the acknowledgment. -/
theorem commandTransactionRuns : Obligations.CommandTransactionRuns := by
  rintro c value p _ raw s inRange fits idle free phase alone window rfl
  have window' := nextWindow_commandInFlight (c := c) (p := p) (s := s) ▸ window
  have waited := congrArg Ch.arrived (commandInFlight_ch (c := c) (p := p) (s := s))
  have write : (commandInFlight c p s).txn.phase = .write := by rw [commandInFlight_txn]
  have run := (run_commandInFlight fits free phase alone 6 _).trans
    ((run_afterCapture write (isFrame_commandInFlight fits) 1 [.requester (commandRequester c)] window').trans
      (run_commandEnded _ _ 0 []))
  rw [waited] at run
  have ack (rx : Rx) : (commandEnded c p (classify (validate (s.ch.arrived ++ raw))) rx s).out.cls = .ack ↔
      s.ch.arrived ++ raw = [0x07, 0xF3] := by
    rw [commandEnded_out]; exact classify_ack_iff _
  have txn (rx : Rx) := commandEnded_txn (c := c) (p := p) (s := s) (classify (validate (s.ch.arrived ++ raw))) rx
  exact ⟨_, _, exec_commandInstr_of_idle inRange fits idle, run, commandEnded_written _ _,
    commandEnded_arb _ _ idle free, congrArg Txn.phase (txn _), congrArg Txn.sent (txn _), congrArg Txn.owner (txn _),
    idleRequester_commandEnded _ _ idle free [], commandEnded_reports _ _, ack _,
    fun isSet => (success_iff isSet _).trans (ack _)⟩

/-- Settles O45: the ceiling ends the transaction as a failure, and the requester's turn after it is the same release. -/
theorem permitReleasedAfterTimeout : Obligations.PermitReleasedAfterTimeout := by
  intro c value p s inRange fits idle free phase alone window
  have window' := nextWindow_commandInFlight (c := c) (p := p) (s := s) ▸ window
  have write : (commandInFlight c p s).txn.phase = .write := by rw [commandInFlight_txn]
  have run := (run_commandInFlight fits free phase alone 4 _).trans
    ((run_afterCeiling write (isFrame_commandInFlight fits) 1 [.requester (commandRequester c)] window').trans
      (run_commandEnded _ _ 0 []))
  exact ⟨_, _, exec_commandInstr_of_idle inRange fits idle, run, commandEnded_arb _ _ idle free,
    congrArg Txn.phase (commandEnded_txn _ _), idleRequester_commandEnded _ _ idle free [], commandEnded_out _ _,
    commandEnded_log _ _, commandEnded_reports _ _⟩

end Sys2Proof.Machine
end

section
/-! PROOF. What the pure operations share with the requesters, and the reset (00_scope.md R11; 70_reset_and_hazards.md R240 to
R242). -/

namespace Sys2Proof.Machine

/-- Settles O47: each of the six operations ends in an update of the registers that the statement leaves out alone. -/
theorem pureOperationsShareNothing : Obligations.PureOperationsShareNothing := by
  intro s t i pure done
  obtain ⟨bs, rfl⟩ | ⟨c, p, rfl⟩ | ⟨p, rfl⟩ | ⟨f, rfl⟩ | ⟨raw, rfl⟩ | ⟨f, n, rfl⟩ := pure
  · cases done; rfl
  · simp only [exec, execBuild] at done
    split at done
    · split at done <;> cases done <;> rfl
    · cases done; rfl
  · cases done; rfl
  · by_cases frame : isFrame f = true
    · rw [exec_wire_of_isFrame frame] at done; cases done; rfl
    · rw [exec_wire_of_not_isFrame frame] at done; cases done; rfl
  · cases done; rfl
  · cases done; rfl

/-- Settles O51: the values are those of `State.reset`. -/
theorem resetValues : Obligations.ResetValues := ⟨rfl, rfl, rfl, rfl, rfl, rfl, rfl, rfl, rfl, rfl⟩

theorem step_reset {s : State} {rest : List Turn} (h : s.schedule = .reset :: rest) :
    step s = .next (resetEvent { s with schedule := rest }) := by
  simp only [step, h, runTurn]

/-- Settles O52: the reset event is `State.reset` but for the configuration, the channel and the model's own fields. -/
theorem resetEventValues : Obligations.ResetEventValues := fun _ _ scheduled =>
  ⟨_, step_reset scheduled, rfl, rfl, rfl, rfl, rfl, rfl, rfl, rfl, rfl, rfl, rfl, rfl, rfl⟩

end Sys2Proof.Machine
end
